-- ==== Sys2Proof/Word.lean ====
section
/-!
DEFINITION. The two widths of number the block stores: bytes and 64-bit values.

The spec computes on unbounded natural numbers and narrows only where a rule says so (00_scope.md
R6), so the function layer of the model works on `Nat`. What a register, a byte of memory or a slot
stores is a bit vector of its width.
-/

namespace Sys2Proof

/-- A byte of memory, an 8-bit register, a command byte. -/
abbrev U8 := BitVec 8

/-- A 64-bit value: a pointer, an id, a count, a table size (00_scope.md R4, `VALUE_WIDTH`). -/
abbrev U64 := BitVec 64

end Sys2Proof
end

