-- ==== Sys2Proof/Syntax.lean ====
section
/-!
DEFINITION. The ten commands (30_encoding.md R46), one constructor per row of spec/opcode_table.json.

A command byte has no operand field: every operand is in a register (R45), so no constructor has an
argument.
-/

namespace Sys2Proof

inductive Instr where
  /-- `READ_BITS`, 40_bitcursor.md R62. -/
  | readBits
  /-- `WRITE_BITS`, 40_bitcursor.md R67. -/
  | writeBits
  /-- `HDR_ENCODE`, 41_header_codec.md R85. -/
  | hdrEncode
  /-- `HDR_DECODE`, 41_header_codec.md R91. -/
  | hdrDecode
  /-- `FT_INIT`, 42_frequency_table.md R102. -/
  | ftInit
  /-- `FT_RELEASE`, 42_frequency_table.md R103. -/
  | ftRelease
  /-- `FT_LOOKUP`, 42_frequency_table.md R107. -/
  | ftLookup
  /-- `FT_RESIZE`, 42_frequency_table.md R113. -/
  | ftResize
  /-- `FT_ADD`, 42_frequency_table.md R119. -/
  | ftAdd
  /-- `FT_BUILD`, 42_frequency_table.md R126. -/
  | ftBuild
  deriving DecidableEq, Repr

/-- The command number of the table of 30_encoding.md R46: the `op` field of the command byte. -/
def Instr.opNumber : Instr → Nat
  | .readBits => 1
  | .writeBits => 2
  | .hdrEncode => 3
  | .hdrDecode => 4
  | .ftInit => 5
  | .ftRelease => 6
  | .ftLookup => 7
  | .ftResize => 8
  | .ftAdd => 9
  | .ftBuild => 10

end Sys2Proof
end

