-- ==== Sys2Proof/WellFormed.lean ====
section
/-!
DEFINITION. What makes a command byte, and a command, well formed (30_encoding.md R45, R46, R48).

A command has no operand, so the only thing that can be ill formed is the byte the host writes: its
reserved field must be 0 and its command number one of 1 to 10.
-/

namespace Sys2Proof

/-- `CMD[7:4]`, the reserved field (R45). -/
def rsvField (b : U8) : Nat := b.toNat / 16

/-- `CMD[3:0]`, the command number (R45). -/
def opField (b : U8) : Nat := b.toNat % 16

/-- R45: the reserved field must be written `0000`. -/
def rsvIsZero (b : U8) : Bool := rsvField b == 0

/-- R46, R48: command numbers start at 1; number 0 is reserved. -/
def opIsNotZero (b : U8) : Bool := opField b != 0

/-- R46, R48: command numbers end at 10; numbers 11 to 15 are reserved. -/
def opIsListed (b : U8) : Bool := opField b ≤ 10

/-- A command byte of R46: none of the reserved bytes of R48. -/
def wellFormedByte (b : U8) : Bool := rsvIsZero b && opIsNotZero b && opIsListed b

/-- A command is well formed when its number fits the `op` field and makes a well-formed byte. -/
def Instr.WellFormed (i : Instr) : Bool := i.opNumber < 16 && wellFormedByte (BitVec.ofNat 8 i.opNumber)

end Sys2Proof
end

