-- ==== Sys2Proof/Decode.lean ====
section
/-!
DEFINITION. The command map (30_encoding.md R45, R46, R48): bytes to a command or a rejection by
name, and the encoder.
-/

namespace Sys2Proof

/-- Why a byte string is no command. -/
inductive Reject where
  /-- There is no byte to decode. Safe: nothing is started. -/
  | noByte
  /-- R48: `CMD[7:4]` is not 0. Safe: writing the byte executes no operation. -/
  | reservedField
  /-- R48: `CMD[7:4]` is 0 and `CMD[3:0]` is 0. Safe: writing the byte executes no operation. -/
  | reservedZero
  /-- R48: `CMD[7:4]` is 0 and `CMD[3:0]` is 11 to 15. Safe: writing the byte executes no operation. -/
  | reservedNumber
  deriving DecidableEq, Repr

/-- The table of R46, by command number. -/
def instrOfNumber : Nat → Option Instr
  | 1 => some .readBits
  | 2 => some .writeBits
  | 3 => some .hdrEncode
  | 4 => some .hdrDecode
  | 5 => some .ftInit
  | 6 => some .ftRelease
  | 7 => some .ftLookup
  | 8 => some .ftResize
  | 9 => some .ftAdd
  | 10 => some .ftBuild
  | _ => none

/-- One command byte (R45, R46, R48). -/
def decodeByte (b : U8) : Except Reject Instr :=
  if !rsvIsZero b then .error .reservedField
  else if !opIsNotZero b then .error .reservedZero
  else match instrOfNumber (opField b) with
    | some i => .ok i
    | none => .error .reservedNumber

/-- A command is one byte long (R45), so decoding takes one byte and gives back the rest. -/
def decode : List U8 → Except Reject (Instr × List U8)
  | [] => .error .noByte
  | b :: rest =>
    match decodeByte b with
    | .ok i => .ok (i, rest)
    | .error r => .error r

/-- The command byte of a command: `rsv = 0000`, then the command number (R45, R46). -/
def encodeByte (i : Instr) : U8 := BitVec.ofNat 8 (0 * 16 + i.opNumber)

/-- The bytes of a command. -/
def encode (i : Instr) : List U8 := [encodeByte i]

/-- The command byte held in the low `nbits` bits of `w`, bit 0 the least significant (the numbering
of spec/opcode_table.json); a row has 8 bits. -/
def tableByte (nbits w : Nat) : U8 := BitVec.ofNat 8 (w % 2 ^ nbits)

/-- What the decoder reads from an opcode-table word. -/
def decodeTableWord (nbits w : Nat) : Option Instr :=
  match decode [tableByte nbits w] with
  | .ok (i, _) => some i
  | .error _ => none

end Sys2Proof
end

