-- ==== Sys2Proof/Config.lean ====
section
/-!
DEFINITION. What the spec leaves open: the two OPEN parameters and the values it does not fix.

None of these has a body, so nothing can be proved about what they answer: a statement that mentions
one holds whatever it is. The fixed parameters of 00_scope.md R4 (2, 64, 6, 59, address 0, 2^64)
stand as the numbers the rules' own pseudocode prints.
-/

namespace Sys2Proof

/-- The OPEN parameter `INIT_SIZE` (00_scope.md R4, 92 D16) before its stated bounds are applied;
`Machine.initSize` applies them. Fixed, the same at every build (10_state.md R19). Log entry 8. -/
opaque Config.initSizeRaw : (wordSize : Nat) → Nat

/-- The OPEN parameter `ALLOC_OK` (00_scope.md R4, 92 D15): the answer to draw number `draw`, a
request of `slots` slots, where no answer has been fixed from outside. Log entry 7. -/
opaque Config.allocOk : (draw : Nat) → (slots : Nat) → Bool

/-- What a byte of memory holds that nothing has written: any value (10_state.md R20, 93 U8).
Log entry 5. -/
opaque Config.powerUpByte : (address : Nat) → U8

/-- `clog2 0`, which the spec does not define and no rule evaluates (41_header_codec.md R80, 93 U3).
Log entry 9. -/
opaque Config.clog2OfZero : Nat

end Sys2Proof
end

