-- ==== Sys2Proof/Machine/State.lean ====
section
/-!
DEFINITION. Everything the spec gives the machine, as plain data (10_state.md), and what stops it.
-/

namespace Sys2Proof.Machine

/-- The five error kinds (30_encoding.md R47, 60_exceptions.md R140). They are results of a command,
reported in `STATUS`; they do not stop the machine. -/
inductive ErrKind where
  | nullPointer
  | invalidValue
  | insufficientSpace
  | invalidData
  | overflow
  deriving DecidableEq, Repr

/-- The fourteen registers, in the order of their numbers (10_state.md R11). -/
inductive Reg where
  | cmd | status | ptr | off | cap | val | size | len | hws | hpad | huw | tmax | anm | slot
  deriving DecidableEq, Repr

/-- One entry place of the table (10_state.md R14, 30_encoding.md R53); `count = 0` means empty. -/
structure Slot where
  id : U64
  count : U64
  deriving DecidableEq, Repr

/-- The frequency table while `T.valid = 1` (10_state.md R14). `slots` lists the occupied slots by
ascending index; a slot it does not list is `(id 0, count 0)` (R15 (f), 93 U16; log entry 10). -/
structure Table where
  size : U64
  num : U64
  slots : List (Nat × Slot)
  deriving DecidableEq, Repr

/-- The allocator of the table store (20_memory.md R31), as an input: `answers` are the coming
answers fixed from outside, next first; when there are none the answer is `Config.allocOk` at the
number of the draw, `count` (92 D15; log entry 7). -/
structure Allocator where
  answers : List Bool
  count : Nat
  deriving DecidableEq, Repr

/-- Byte memory: the bytes that have been written, by ascending address (20_memory.md R30; log
entries 5 and 6). -/
abbrev Memory := List Host.Cell

/-- One thing the outside world does while CORE is idle (10_state.md R11, R20, 30_encoding.md R54,
70_reset_and_hazards.md R165). Reads change nothing and need no constructor. -/
inductive Action where
  /-- `SET reg, value`. A write to `cmd` starts a command, so a mnemonic line is `write .cmd byte`. -/
  | write (r : Reg) (value : Nat)
  /-- `MEM addr: bytes`: store the bytes at ascending addresses from `addr`. -/
  | store (addr : U64) (bytes : List U8)
  /-- Reset (70_reset_and_hazards.md R160). -/
  | reset
  deriving DecidableEq, Repr

/-- The machine's state: the fourteen registers (R11), the table (R14), byte memory (R30), and the
model's own inputs: the allocator's coming answers and the host's coming actions (R19). -/
structure State where
  cmd : U8
  status : U8
  ptr : U64
  off : U8
  cap : U64
  val : U64
  size : U8
  len : U64
  hws : U8
  hpad : U8
  huw : U64
  tmax : U64
  anm : BitVec 1
  slot : U64
  /-- `none` is `T.valid = 0`. -/
  table : Option Table
  mem : Memory
  alloc : Allocator
  /-- The host's coming actions, next first (log entry 1). -/
  script : List Action
  deriving DecidableEq, Repr

/-- Why the machine stops. -/
inductive Fault where
  /-- Raised by `step`, for a host `MEM` line whose bytes run past address `2^64 - 1`, which do not
  exist (20_memory.md R30). No command raises it. Safe: the spec gives such a line no meaning. -/
  | storePastTop
  deriving DecidableEq, Repr

/-- Why an instruction has no meaning. -/
inductive Refusal where
  /-- Raised by `exec` for an instruction that is not modelled; no arm raises it now. Safe: a refused
  instruction proves nothing. -/
  | notModelled (mnemonic : String)
  deriving DecidableEq, Repr

/-- Reset state (10_state.md R20, 70_reset_and_hazards.md R160): every register 0, no table, idle.
The last three fields are the model's own (log entries 2, 5 and 7). -/
def State.reset : State where
  cmd := 0
  status := 0
  ptr := 0
  off := 0
  cap := 0
  val := 0
  size := 0
  len := 0
  hws := 0
  hpad := 0
  huw := 0
  tmax := 0
  anm := 0
  slot := 0
  table := none
  mem := []
  alloc := ⟨[], 0⟩
  script := []

end Sys2Proof.Machine
end

