-- ==== Sys2Proof/Machine/Flags.lean ====
section
/-!
DEFINITION. The status codes (30_encoding.md R47). `STATUS` is the only status the block has: no
condition codes, no carry, no zero flag (10_state.md R13).
-/

namespace Sys2Proof.Machine

/-- Code 0, the command succeeded (R47). -/
def statusOk : U8 := 0

/-- The code of an error kind (R47). -/
def ErrKind.code : ErrKind → U8
  | .nullPointer => 1
  | .invalidValue => 2
  | .insufficientSpace => 3
  | .invalidData => 4
  | .overflow => 5

end Sys2Proof.Machine
end

