-- ==== Sys2Proof/Machine/Operands.lean ====
section
/-!
DEFINITION. Operands as numbers: the bit cursor, the header triple, and the arithmetic helpers of
00_scope.md R7.
-/

namespace Sys2Proof.Machine

/-- `ceil_div(a, b)` for `b > 0` (00_scope.md R7). -/
def ceilDiv (a b : Nat) : Nat := (a + b - 1) / b

/-- `v & (2^n - 1)` (00_scope.md R6, R7). -/
def lowBits (n v : Nat) : Nat := v &&& (2 ^ n - 1)

/-- A bit cursor with the bytes that remain from its pointer on (10_state.md R16). -/
structure Cursor where
  ptr : Nat
  off : Nat
  cap : Nat
  deriving DecidableEq, Repr

/-- The header triple (10_state.md R17). -/
structure Header where
  wordSize : Nat
  padBits : Nat
  uniqueWords : Nat
  deriving DecidableEq, Repr

/-- The bytes a field of `size` bits at offset `off` lies in (40_bitcursor.md R60). -/
def footprint (off size : Nat) : Nat := ceilDiv (off + size) 8

/-- Advancing a cursor by `size` bits (40_bitcursor.md R60), the capacity falling by the whole bytes
consumed (R61, R66). -/
def Cursor.advance (c : Cursor) (size : Nat) : Cursor where
  ptr := c.ptr + (c.off + size) / 8
  off := (c.off + size) % 8
  cap := c.cap - (c.off + size) / 8

/-- The checks `read_bits` and `write_bits` make, in their order, before any access (40_bitcursor.md
R61, R66; 20_memory.md R37): the error of the first that applies. -/
def Cursor.fieldError (c : Cursor) (size : Nat) : Option ErrKind :=
  if c.ptr = 0 then some .nullPointer
  else if 8 ≤ c.off ∨ size = 0 ∨ 64 < size then some .invalidValue
  else if 2 ^ 64 ≤ c.ptr + footprint c.off size then some .invalidValue
  else if c.cap < footprint c.off size then some .insufficientSpace
  else none

/-- The cursor operands `PTR`, `OFF`, `CAP` (30_encoding.md R49). -/
def State.cursor (s : State) : Cursor := ⟨s.ptr.toNat, s.off.toNat, s.cap.toNat⟩

/-- The header operands `HWS`, `HPAD`, `HUW` (30_encoding.md R49). -/
def State.header (s : State) : Header := ⟨s.hws.toNat, s.hpad.toNat, s.huw.toNat⟩

/-- `T.valid` (10_state.md R14). -/
def State.tValid (s : State) : Bool := s.table.isSome

/-- `T.size`, which reads 0 when there is no table (10_state.md R14). -/
def State.tSize (s : State) : U64 := match s.table with | some t => t.size | none => 0

/-- `T.num`, which reads 0 when there is no table (10_state.md R14). -/
def State.tNum (s : State) : U64 := match s.table with | some t => t.num | none => 0

end Sys2Proof.Machine
end

