-- ==== Sys2Proof/Machine/Sparse.lean ====
section
/-!
DEFINITION. Sparse data by number: a list of (key, value) pairs with strictly rising keys. Byte
memory and the table's slots are held so.
-/

namespace Sys2Proof.Machine

/-- The value listed at a key. -/
def Sparse.find {α : Type} : List (Nat × α) → Nat → Option α
  | [], _ => none
  | (j, v) :: rest, k => if j = k then some v else Sparse.find rest k

/-- Set the value at a key, keeping the keys strictly rising. -/
def Sparse.put {α : Type} (k : Nat) (v : α) : List (Nat × α) → List (Nat × α)
  | [] => [(k, v)]
  | (j, w) :: rest =>
    if k < j then (k, v) :: (j, w) :: rest
    else if k = j then (k, v) :: rest
    else (j, w) :: Sparse.put k v rest

/-- The keys rise strictly from `lo` on, and all lie below `hi`. -/
def Sparse.risingFrom {α : Type} (hi : Nat) : (lo : Nat) → List (Nat × α) → Bool
  | _, [] => true
  | lo, (j, _) :: rest => lo ≤ j && j < hi && Sparse.risingFrom hi (j + 1) rest

/-- The canonical form: strictly rising keys below `hi`. -/
def Sparse.wf {α : Type} (hi : Nat) (l : List (Nat × α)) : Bool := Sparse.risingFrom hi 0 l

end Sys2Proof.Machine
end

