-- ==== Sys2Proof/Machine/Ops.lean ====
section
/-!
DEFINITION. The named operations over memory, the allocator and the registers: byte accesses, what a
failing command does, how results are written back, and what the host does between commands.
-/

namespace Sys2Proof.Machine

/-! ### Byte memory (20_memory.md) -/

/-- What an unlisted address holds: any value (93 U8; log entry 5). -/
def Memory.unlisted (a : Nat) : U8 := Config.powerUpByte a

/-- The byte at an address. -/
def Memory.readByte (m : Memory) (a : Nat) : U8 :=
  match Sparse.find m a with
  | some b => b
  | none => Memory.unlisted a

/-- `MemRead(a, 1)`, a number 0..255 (00_scope.md R7). -/
def Memory.read (m : Memory) (a : Nat) : Nat := (m.readByte a).toNat

/-- `MemWrite(a, 1, v)` (00_scope.md R7). -/
def Memory.write (m : Memory) (a v : Nat) : Memory := Sparse.put a (BitVec.ofNat 8 v) m

/-- The canonical form: strictly rising addresses below `2^64`. What an unlisted address holds is not
known, so no entry is known to equal it (log entry 6). -/
def Memory.wf (m : Memory) : Bool := Sparse.wf (2 ^ 64) m

/-- The `n` bytes from `ptr` as one number, the first the most significant (20_memory.md R32). -/
def Memory.loadBytes (m : Memory) (ptr : Nat) : Nat → Nat
  | 0 => 0
  | n + 1 => m.loadBytes ptr n * 256 + m.read (ptr + n)

/-- Store `acc` as the `n` bytes from `ptr`, the first the most significant, by ascending address
(40_bitcursor.md R66). -/
def Memory.storeBytes (m : Memory) (ptr acc : Nat) : Nat → Memory
  | 0 => m
  | n + 1 => (m.storeBytes ptr (acc / 256) n).write (ptr + n) (acc % 256)

/-- The host's `MEM addr: bytes` line (30_encoding.md R54). -/
def Memory.hostStore (m : Memory) (addr : Nat) : List U8 → Memory
  | [] => m
  | b :: rest => Memory.hostStore (m.write addr b.toNat) (addr + 1) rest

/-! ### The allocator (20_memory.md R31) -/

/-- `alloc_ok(n)`: one draw of `ALLOC_OK` for a request of `n` slots (00_scope.md R7). -/
def Allocator.answer (A : Allocator) (n : Nat) : Bool :=
  match A.answers with
  | b :: _ => b
  | [] => Config.allocOk A.count n

/-- The allocator after one draw. -/
def Allocator.next (A : Allocator) : Allocator := ⟨A.answers.tail, A.count + 1⟩

/-! ### How a command ends -/

/-- `raise E`: what a failing command does (00_scope.md R7, 60_exceptions.md R144). The block's whole
"trap entry": `STATUS` takes the code, nothing is saved and control goes nowhere. -/
def State.raise (s : State) (e : ErrKind) : State := { s with status := e.code }

/-- The end of a successful command: `x[STATUS] <- 0` (00_scope.md R8). -/
def State.succeed (s : State) : State := { s with status := statusOk }

/-- Write a cursor back to `PTR`, `OFF`, `CAP`. -/
def State.setCursor (s : State) (c : Cursor) : State :=
  { s with ptr := BitVec.ofNat 64 c.ptr, off := BitVec.ofNat 8 c.off, cap := BitVec.ofNat 64 c.cap }

/-- Write a header back to `HWS`, `HPAD`, `HUW`. -/
def State.setHeader (s : State) (h : Header) : State :=
  { s with
    hws := BitVec.ofNat 8 h.wordSize
    hpad := BitVec.ofNat 8 h.padBits
    huw := BitVec.ofNat 64 h.uniqueWords }

/-- `x[VAL] <- v`. -/
def State.setVal (s : State) (v : Nat) : State := { s with val := BitVec.ofNat 64 v }

/-- `x[SLOT] <- j`. -/
def State.setSlot (s : State) (j : Nat) : State := { s with slot := BitVec.ofNat 64 j }

/-- Memory after a command's writes. -/
def State.setMem (s : State) (m : Memory) : State := { s with mem := m }

/-- The table state after a command. -/
def State.setTable (s : State) (t : Option Table) : State := { s with table := t }

/-- The allocator after a command's draws. -/
def State.setAlloc (s : State) (A : Allocator) : State := { s with alloc := A }

/-- A reserved command byte executes no operation: `InvalidValue`, nothing else (30_encoding.md R48). -/
def State.reservedByte (s : State) : State := s.raise .invalidValue

/-! ### The host (10_state.md R11, 70_reset_and_hazards.md R165) -/

/-- What the host reads from a register while CORE is idle (R11). -/
def State.hostRead (s : State) : Reg → Nat
  | .cmd => s.cmd.toNat
  | .status => s.status.toNat
  | .ptr => s.ptr.toNat
  | .off => s.off.toNat
  | .cap => s.cap.toNat
  | .val => s.val.toNat
  | .size => s.size.toNat
  | .len => s.len.toNat
  | .hws => s.hws.toNat
  | .hpad => s.hpad.toNat
  | .huw => s.huw.toNat
  | .tmax => s.tmax.toNat
  | .anm => s.anm.toNat
  | .slot => s.slot.toNat

/-- A host write to a register: a wider value keeps the low bits, a write to `STATUS` is ignored
(R11, R13). That a write to `CMD` also starts a command is `State.takeAction`'s. -/
def State.hostWrite (s : State) (r : Reg) (v : Nat) : State :=
  match r with
  | .cmd => { s with cmd := BitVec.ofNat 8 v }
  | .status => s
  | .ptr => { s with ptr := BitVec.ofNat 64 v }
  | .off => { s with off := BitVec.ofNat 8 v }
  | .cap => { s with cap := BitVec.ofNat 64 v }
  | .val => { s with val := BitVec.ofNat 64 v }
  | .size => { s with size := BitVec.ofNat 8 v }
  | .len => { s with len := BitVec.ofNat 64 v }
  | .hws => { s with hws := BitVec.ofNat 8 v }
  | .hpad => { s with hpad := BitVec.ofNat 8 v }
  | .huw => { s with huw := BitVec.ofNat 64 v }
  | .tmax => { s with tmax := BitVec.ofNat 64 v }
  | .anm => { s with anm := BitVec.ofNat 1 v }
  | .slot => { s with slot := BitVec.ofNat 64 v }

/-- Reset (70_reset_and_hazards.md R160): the registers and the table as `State.reset` has them, the
table's array released, byte memory untouched. The allocator and the host are not CORE's. -/
def State.afterReset (s : State) : State :=
  { State.reset with mem := s.mem, alloc := s.alloc, script := s.script }

/-- A host `MEM` line fits the address space (20_memory.md R30). -/
def storeFits (addr : U64) (bytes : List U8) : Bool := addr.toNat + bytes.length ≤ 2 ^ 64

/-- What the next host action comes to. -/
inductive Taken where
  /-- The host does nothing and CORE is idle. -/
  | idle
  /-- The host acted and CORE stayed idle. -/
  | acted (s : State)
  /-- The host wrote this byte to `CMD`, which starts a command in this state. -/
  | command (b : U8) (s : State)
  /-- The host's action cannot be carried out. -/
  | stuck (f : Fault)
  deriving DecidableEq, Repr

/-- Take the host's next action (10_state.md R10, R11; log entry 1). -/
def State.takeAction (s : State) : Taken :=
  match s.script with
  | [] => .idle
  | .write .cmd v :: rest => .command (BitVec.ofNat 8 v) (({ s with script := rest }).hostWrite .cmd v)
  | .write r v :: rest => .acted (({ s with script := rest }).hostWrite r v)
  | .store addr bytes :: rest =>
    if storeFits addr bytes then
      .acted { s with script := rest, mem := s.mem.hostStore addr.toNat bytes }
    else .stuck .storePastTop
  | .reset :: rest => .acted ({ s with script := rest }).afterReset

end Sys2Proof.Machine
end

