-- ==== Sys2Proof/Machine/BitCursor.lean ====
section
/-!
DEFINITION. The BitCursor unit (40_bitcursor.md): `READ_BITS` and `WRITE_BITS`.
-/

namespace Sys2Proof.Machine

/-- The value of the field of `size` bits at `(ptr, off)` (R61; 20_memory.md R32). -/
def fieldValue (m : Memory) (ptr off size : Nat) : Nat :=
  let n := footprint off size
  lowBits size (m.loadBytes ptr n >>> (8 * n - off - size))

/-- Function `read_bits` (R61). -/
def readBits (m : Memory) (c : Cursor) (size : Nat) : Except ErrKind (Nat × Cursor) :=
  match c.fieldError size with
  | some e => .error e
  | none => .ok (fieldValue m c.ptr c.off size, c.advance size)

/-- R66: whether byte `i` of the `n` bytes touched is only partly covered by the field. -/
def partlyCovered (off size n i : Nat) : Bool :=
  (i == 0 && off != 0) || (i + 1 == n && 8 * n - off - size != 0)

/-- R66: the old content of the first `k` of the `n` bytes touched, the first the most significant;
only partly covered bytes are read, the others count as 0. -/
def oldBytes (m : Memory) (ptr off size n : Nat) : Nat → Nat
  | 0 => 0
  | k + 1 =>
    oldBytes m ptr off size n k * 256 + (if partlyCovered off size n k then m.read (ptr + k) else 0)

/-- R66: put `v` into the field of `size` bits that has `shift` bits after it, within `width` bits. -/
def mergeField (width size shift acc v : Nat) : Nat :=
  let mask := (2 ^ size - 1) <<< shift
  (acc &&& ((2 ^ width - 1) ^^^ mask)) ||| (v <<< shift)

/-- R66: the `n` bytes touched as one number, after the field has been put in. -/
def fieldWritten (m : Memory) (ptr off value size : Nat) : Nat :=
  let n := footprint off size
  mergeField (8 * n) size (8 * n - off - size) (oldBytes m ptr off size n n) (lowBits size value)

/-- Function `write_bits` (R66). -/
def writeBits (m : Memory) (c : Cursor) (value size : Nat) : Except ErrKind (Memory × Cursor) :=
  match c.fieldError size with
  | some e => .error e
  | none =>
    .ok (m.storeBytes c.ptr (fieldWritten m c.ptr c.off value size) (footprint c.off size),
      c.advance size)

/-- Command `READ_BITS` (R62). -/
def execReadBits (s : State) : Host.Outcome State Fault Refusal :=
  match readBits s.mem s.cursor s.size.toNat with
  | .error e => .next (s.raise e)
  | .ok (v, c) => .next (((s.setVal v).setCursor c).succeed)

/-- Command `WRITE_BITS` (R67). -/
def execWriteBits (s : State) : Host.Outcome State Fault Refusal :=
  match writeBits s.mem s.cursor s.val.toNat s.size.toNat with
  | .error e => .next (s.raise e)
  | .ok (m, c) => .next (((s.setMem m).setCursor c).succeed)

end Sys2Proof.Machine
end

