-- ==== Sys2Proof/Machine/FrequencyTable.lean ====
section
/-!
DEFINITION. The FrequencyTable unit (42_frequency_table.md): the six `FT_` commands.
-/

namespace Sys2Proof.Machine

/-! ### Slots -/

/-- An empty slot as allocated (20_memory.md R31). -/
def emptySlot : Slot := ⟨0, 0⟩

/-- `T.slot[j]`. A slot that is not listed is empty. -/
def slotAt (A : List (Nat × Slot)) (j : Nat) : Slot :=
  match Sparse.find A j with
  | some sl => sl
  | none => emptySlot

/-- Slot `j` of the current table as the host reads it while CORE is idle: there is one when a table
exists and `j < T.size` (10_state.md R14). -/
def State.hostSlot (s : State) (j : Nat) : Option Slot :=
  match s.table with
  | some t => if j < t.size.toNat then some (slotAt t.slots j) else none
  | none => none

/-- A fresh table of `n` slots, each `(id 0, count 0)`, with `T.num = 0` (20_memory.md R31). -/
def freshTable (n : Nat) : Table := ⟨BitVec.ofNat 64 n, 0, []⟩

/-- The maximum representable value, `2^64 - 1` (R118). -/
def maxCount : U64 := BitVec.allOnes 64

/-! ### lookup_or_empty -/

/-- The hash (R101). -/
def hash (id : U64) (size : Nat) : Nat := id.toNat % size

/-- The probe loop of R106: at most `left` slots, the next at distance `k` from `h`. -/
def probe (A : List (Nat × Slot)) (size : Nat) (id : U64) (anm : Bool) (h : Nat) :
    (left k : Nat) → Option Nat
  | 0, _ => none
  | left + 1, k =>
    let j := (h + k) % size
    if (slotAt A j).count = 0 then some j
    else if anm = false ∧ (slotAt A j).id = id then some j
    else probe A size id anm h left (k + 1)

/-- Function `lookup_or_empty` (R106): `size - 1` slots are examined. -/
def lookupOrEmpty (A : List (Nat × Slot)) (size : Nat) (id : U64) (anm : Bool) :
    Except ErrKind Nat :=
  match probe A size id anm (hash id size) (size - 1) 0 with
  | some j => .ok j
  | none => .error .insufficientSpace

/-! ### resize -/

/-- What an operation on the current table comes to: whether it failed, and the table and the
allocator it leaves, which a failure may have changed too (60_exceptions.md R145). -/
structure TableStep where
  error : Option ErrKind
  table : Table
  alloc : Allocator
  deriving DecidableEq, Repr

/-- The rehash loop of R112 over the listed old slots, which come by ascending index, into `N`. -/
def rehash (newSize : Nat) : (old N : List (Nat × Slot)) → Except ErrKind (List (Nat × Slot))
  | [], N => .ok N
  | (_, sl) :: rest, N =>
    if sl.count = 0 then rehash newSize rest N
    else
      match lookupOrEmpty N newSize sl.id true with
      | .ok q => rehash newSize rest (Sparse.put q sl N)
      | .error e => .error e

/-- Function `resize` (R112). The branch where a rehash lookup fails cannot be taken; it has the
behaviour R112 offers for it (log entry 11). -/
def resize (t : Table) (A : Allocator) (newSize : Nat) : TableStep :=
  if t.size = 0 ∨ newSize = 0 ∨ newSize ≤ t.size.toNat then ⟨some .invalidValue, t, A⟩
  else if A.answer newSize = false then ⟨some .insufficientSpace, t, A.next⟩
  else
    match rehash newSize t.slots [] with
    | .ok N => ⟨none, { t with size := BitVec.ofNat 64 newSize, slots := N }, A.next⟩
    | .error e => ⟨some e, t, A.next⟩

/-! ### add_or_increment -/

/-- The last part of R118: count `word` in slot `j`, which is empty or holds it. -/
def countIn (t : Table) (j : Nat) (word : U64) : Except ErrKind Table :=
  if (slotAt t.slots j).count = 0 then
    if t.num = maxCount then .error .overflow
    else .ok { t with num := t.num + 1, slots := Sparse.put j ⟨word, 1⟩ t.slots }
  else if (slotAt t.slots j).count = maxCount then .error .overflow
  else
    .ok { t with
      slots := Sparse.put j ⟨(slotAt t.slots j).id, (slotAt t.slots j).count + 1⟩ t.slots }

/-- `countIn` as a step on the table: a failure leaves the table it was given. -/
def countStep (t : Table) (A : Allocator) (j : Nat) (word : U64) : TableStep :=
  match countIn t j word with
  | .ok t' => ⟨none, t', A⟩
  | .error e => ⟨some e, t, A⟩

/-- The retried lookup of R118, once, on the resized table. -/
def addRetry (t : Table) (A : Allocator) (word : U64) : TableStep :=
  match lookupOrEmpty t.slots t.size.toNat word false with
  | .ok j => countStep t A j word
  | .error e => ⟨some e, t, A⟩

/-- Function `add_or_increment` (R118), with its single resize-and-retry. -/
def addOrIncrement (t : Table) (A : Allocator) (word : U64) (maxSize : Nat) : TableStep :=
  match lookupOrEmpty t.slots t.size.toNat word false with
  | .ok j => countStep t A j word
  | .error _ =>
    if t.size.toNat = maxSize then ⟨some .insufficientSpace, t, A⟩
    else
      let r := resize t A (min (2 * t.size.toNat) maxSize)
      match r.error with
      | some e => ⟨some e, r.table, r.alloc⟩
      | none => addRetry r.table r.alloc word

/-! ### build -/

/-- `max_size(ws) = 2^min(ws, 59)` (R104). -/
def maxSize (ws : Nat) : Nat := 2 ^ min ws 59

/-- The OPEN parameter `INIT_SIZE(ws)` within its stated bounds, `1 ≤ INIT_SIZE(ws) ≤ max_size(ws)`
(00_scope.md R4; log entry 8). -/
def initSize (ws : Nat) : Nat := max 1 (min (Config.initSizeRaw ws) (maxSize ws))

/-- `present(w)` of R125: the slot that holds `w`, if any; a failing lookup means absent. -/
def present (t : Table) (w : U64) : Option Nat :=
  match lookupOrEmpty t.slots t.size.toNat w false with
  | .ok j => if (slotAt t.slots j).count = 0 then none else some j
  | .error _ => none

/-- `choose(low, high)` of R125. -/
def choose (t : Table) (low high : U64) : U64 :=
  match present t low, present t high with
  | none, none => low
  | some _, none => low
  | none, some _ => high
  | some jl, some jh =>
    if (slotAt t.slots jl).count.toNat < (slotAt t.slots jh).count.toNat then high else low

/-- The word loop of R124, `n` words from the local cursor on. -/
def addWords (m : Memory) (ws : Nat) : (n : Nat) → Cursor → Table → Allocator → TableStep × Cursor
  | 0, c, t, A => (⟨none, t, A⟩, c)
  | n + 1, c, t, A =>
    match readBits m c ws with
    | .error e => (⟨some e, t, A⟩, c)
    | .ok (w, c') =>
      let r := addOrIncrement t A (BitVec.ofNat 64 w) (maxSize ws)
      match r.error with
      | some _ => (r, c')
      | none => addWords m ws n c' r.table r.alloc

/-- The completed partial word of R125: `final` trailing bits `tb`, padded low or high. -/
def completedWord (t : Table) (ws final tb : Nat) : U64 :=
  let pad := ws - final
  let low := tb <<< pad
  choose t (BitVec.ofNat 64 low) (BitVec.ofNat 64 (low ||| (2 ^ pad - 1)))

/-- The partial-word step of R124, when `final` trailing bits remain. -/
def addFinal (m : Memory) (ws final : Nat) (c : Cursor) (t : Table) (A : Allocator) : TableStep :=
  match readBits m c final with
  | .error e => ⟨some e, t, A⟩
  | .ok (tb, _) => addOrIncrement t A (completedWord t ws final tb) (maxSize ws)

/-- The scan of R124 on a fresh table: the whole words, then the partial word if there is one. -/
def scan (m : Memory) (ptr len ws : Nat) (t : Table) (A : Allocator) : TableStep :=
  match addWords m ws (8 * len / ws) ⟨ptr, 0, len⟩ t A with
  | (r, c) =>
    match r.error with
    | some _ => r
    | none => if 8 * len % ws = 0 then r else addFinal m ws (8 * len % ws) c r.table r.alloc

/-- `pad_bits` of a build (R124, R125): 0 if the source divides evenly. -/
def buildPad (len ws : Nat) : Nat := if 8 * len % ws = 0 then 0 else ws - 8 * len % ws

/-- What a build comes to: the header or the error, the table state and the allocator it leaves. -/
structure BuildStep where
  result : Except ErrKind Header
  table : Option Table
  alloc : Allocator
  deriving Repr

/-- Function `build` (R124) with starting capacity `n0`; `old` is the table before it. A failure
before the first allocation has succeeded changes nothing; a later one leaves no table. -/
def build (n0 : Nat) (m : Memory) (ptr len ws : Nat) (old : Option Table) (A : Allocator) :
    BuildStep :=
  if ptr = 0 then ⟨.error .nullPointer, old, A⟩
  else if len = 0 ∨ ws < 2 ∨ 64 < ws then ⟨.error .invalidValue, old, A⟩
  else if 2 ^ 64 ≤ ptr + len then ⟨.error .invalidValue, old, A⟩
  else if A.answer n0 = false then ⟨.error .insufficientSpace, old, A.next⟩
  else
    let r := scan m ptr len ws (freshTable n0) A.next
    match r.error with
    | some e => ⟨.error e, none, r.alloc⟩
    | none => ⟨.ok ⟨ws, buildPad len ws, r.table.num.toNat⟩, some r.table, r.alloc⟩

/-! ### The commands -/

/-- Write back a step on the current table. -/
def State.finishTable (s : State) (r : TableStep) : State :=
  let s' := (s.setTable (some r.table)).setAlloc r.alloc
  match r.error with
  | some e => s'.raise e
  | none => s'.succeed

/-- Command `FT_INIT` (R102). -/
def execFtInit (s : State) : Host.Outcome State Fault Refusal :=
  if s.len = 0 then .next (s.raise .invalidValue)
  else if s.alloc.answer s.len.toNat = false then
    .next ((s.setAlloc s.alloc.next).raise .insufficientSpace)
  else .next (((s.setTable (some (freshTable s.len.toNat))).setAlloc s.alloc.next).succeed)

/-- Command `FT_RELEASE` (R103). -/
def execFtRelease (s : State) : Host.Outcome State Fault Refusal :=
  match s.table with
  | none => .next (s.raise .nullPointer)
  | some _ => .next ((s.setTable none).succeed)

/-- Command `FT_LOOKUP` (R107). -/
def execFtLookup (s : State) : Host.Outcome State Fault Refusal :=
  match s.table with
  | none => .next (s.raise .nullPointer)
  | some t =>
    match lookupOrEmpty t.slots t.size.toNat s.val (s.anm == 1) with
    | .ok j => .next ((s.setSlot j).succeed)
    | .error e => .next (s.raise e)

/-- Command `FT_RESIZE` (R113). -/
def execFtResize (s : State) : Host.Outcome State Fault Refusal :=
  match s.table with
  | none => .next (s.raise .nullPointer)
  | some t => .next (s.finishTable (resize t s.alloc s.len.toNat))

/-- Command `FT_ADD` (R119). -/
def execFtAdd (s : State) : Host.Outcome State Fault Refusal :=
  match s.table with
  | none => .next (s.raise .nullPointer)
  | some t => .next (s.finishTable (addOrIncrement t s.alloc s.val s.tmax.toNat))

/-- `FT_BUILD` with the starting capacity given. -/
def ftBuildFrom (n0 : Nat) (s : State) : State :=
  let r := build n0 s.mem s.ptr.toNat s.len.toNat s.size.toNat s.table s.alloc
  let s' := (s.setTable r.table).setAlloc r.alloc
  match r.result with
  | .error e => s'.raise e
  | .ok h => (s'.setHeader h).succeed

/-- Command `FT_BUILD` (R126). -/
def execFtBuild (s : State) : Host.Outcome State Fault Refusal :=
  .next (ftBuildFrom (initSize s.size.toNat) s)

end Sys2Proof.Machine
end

