-- ==== Sys2Proof/Machine/HeaderCodec.lean ====
section
/-!
DEFINITION. The HeaderCodec unit (41_header_codec.md): `HDR_ENCODE` and `HDR_DECODE`. The wire layout
is 30_encoding.md R50 to R52.
-/

namespace Sys2Proof.Machine

/-- Function `clog2` (R80): 1 at 1; otherwise the highest set bit's position, one more if a lower bit
is set. The spec does not define it at 0 and never evaluates it there (log entry 9). -/
def clog2 (x : Nat) : Nat :=
  if x = 0 then Config.clog2OfZero
  else if x = 1 then 1
  else if lowBits (Nat.log2 x) x ≠ 0 then Nat.log2 x + 1
  else Nat.log2 x

/-- Function `header_bits` (R81). -/
def headerBits (ws : Nat) : Nat := 6 + clog2 ws + ws

/-- Function `header_bytes` (R81). -/
def headerBytes (ws : Nat) : Nat := ceilDiv (headerBits ws) 8

/-- Function `encode` (R84): the checks in their order, then three `write_bits`. -/
def encodeHeader (m : Memory) (h : Header) (ptr cap : Nat) : Except ErrKind (Memory × Cursor) :=
  if ptr = 0 then .error .nullPointer
  else if h.wordSize < 2 ∨ 64 < h.wordSize then .error .invalidValue
  else if h.uniqueWords = 0 ∨ 2 ^ h.wordSize < h.uniqueWords ∨ h.wordSize ≤ h.padBits then
    .error .invalidValue
  else if 2 ^ 64 ≤ ptr + headerBytes h.wordSize then .error .invalidValue
  else if cap < headerBytes h.wordSize then .error .insufficientSpace
  else do
    let (m1, c1) ← writeBits m ⟨ptr, 0, cap⟩ h.wordSize 6
    let (m2, c2) ← writeBits m1 c1 h.padBits (clog2 h.wordSize)
    writeBits m2 c2 (h.uniqueWords - 1) h.wordSize

/-- Function `decode` (R90): its steps and checks in the source's order. -/
def decodeHeader (m : Memory) (ptr cap : Nat) : Except ErrKind (Header × Cursor) :=
  if ptr = 0 then .error .nullPointer
  else if 2 ^ 64 ≤ ptr + 2 then .error .invalidValue
  else if cap < 2 then .error .insufficientSpace
  else do
    let (ws, c1) ← readBits m ⟨ptr, 0, cap⟩ 6
    if ws < 2 ∨ 64 < ws then .error .invalidData
    else if 2 ^ 64 ≤ ptr + headerBytes ws then .error .invalidValue
    else if cap < headerBytes ws then .error .insufficientSpace
    else do
      let (pad, c2) ← readBits m c1 (clog2 ws)
      if ws ≤ pad then .error .invalidData
      else do
        let (u, c3) ← readBits m c2 ws
        .ok (⟨ws, pad, u + 1⟩, c3)

/-- Command `HDR_ENCODE` (R85); `OFF` is not read. -/
def execHdrEncode (s : State) : Host.Outcome State Fault Refusal :=
  match encodeHeader s.mem s.header s.ptr.toNat s.cap.toNat with
  | .error e => .next (s.raise e)
  | .ok (m, c) => .next (((s.setMem m).setCursor c).succeed)

/-- Command `HDR_DECODE` (R91); `OFF` is not read. -/
def execHdrDecode (s : State) : Host.Outcome State Fault Refusal :=
  match decodeHeader s.mem s.ptr.toNat s.cap.toNat with
  | .error e => .next (s.raise e)
  | .ok (h, c) => .next (((s.setHeader h).setCursor c).succeed)

end Sys2Proof.Machine
end

