-- ==== Sys2Proof/Machine/Dispatch.lean ====
section
/-!
DEFINITION. One arm per command of 30_encoding.md R46, each a call of its meaning.
-/

namespace Sys2Proof.Machine

def exec (i : Instr) (s : State) : Host.Outcome State Fault Refusal :=
  match i with
  | .readBits => Sys2Proof.Machine.execReadBits s
  | .writeBits => Sys2Proof.Machine.execWriteBits s
  | .hdrEncode => Sys2Proof.Machine.execHdrEncode s
  | .hdrDecode => Sys2Proof.Machine.execHdrDecode s
  | .ftInit => Sys2Proof.Machine.execFtInit s
  | .ftRelease => Sys2Proof.Machine.execFtRelease s
  | .ftLookup => Sys2Proof.Machine.execFtLookup s
  | .ftResize => Sys2Proof.Machine.execFtResize s
  | .ftAdd => Sys2Proof.Machine.execFtAdd s
  | .ftBuild => Sys2Proof.Machine.execFtBuild s

end Sys2Proof.Machine
end

