-- ==== Sys2Proof/Machine/Step.lean ====
section
/-!
DEFINITION. One step: the host's next action, and the command it starts if it writes `CMD`
(10_state.md R10, R12).
-/

namespace Sys2Proof.Machine

/-- Run the command a byte written to `CMD` starts; a reserved byte executes none (30_encoding.md
R46, R48). -/
def runByte (b : U8) (s : State) : Host.Outcome State Fault Refusal :=
  match decode [b] with
  | .ok (i, _) => exec i s
  | .error _ => .next s.reservedByte

/-- One step. With no host action to take CORE is idle and changes nothing (10_state.md R10). -/
def step (s : State) : Host.Outcome State Fault Refusal :=
  match s.takeAction with
  | .idle => .next s
  | .acted s' => .next s'
  | .command b s' => runByte b s'
  | .stuck f => .fault f

/-- `s` with the command of an opcode-table word as the host's next action: a write of its byte to
`CMD` (log entry 2). -/
def State.withFetchWord (s : State) (nbits w : Nat) : State :=
  { s with script := .write .cmd (tableByte nbits w).toNat :: s.script }

end Sys2Proof.Machine
end

