-- ==== Sys2Proof/Safety.lean ====
section
/-!
DEFINITION. The terms claims use: the stream bits of memory, what a table holds, the order of a rehash,
the invariants of a well-formed state, draws of the allocator, and what a source of a build contains.
-/

namespace Sys2Proof.Machine

/-! ### The bit stream (20_memory.md R32) -/

/-- `sbit(P)`: the bit at stream position `P`. -/
def Memory.streamBit (m : Memory) (P : Nat) : Nat := (m.read (P / 8) >>> (7 - P % 8)) &&& 1

/-- The value of the field of `n` bits at stream position `P`, its first stream bit the most
significant. -/
def Memory.fieldAt (m : Memory) (P : Nat) : Nat → Nat
  | 0 => 0
  | n + 1 => m.fieldAt P n * 2 + m.streamBit (P + n)

/-- The footprint `ptr .. ptr + n - 1` of a field or a header holds this address. -/
abbrev InFootprint (ptr n a : Nat) : Prop := ptr ≤ a ∧ a < ptr + n

/-- A header of this triple can be encoded at `ptr`: none of the errors of 41_header_codec.md R84
applies. -/
abbrev Header.Fits (h : Header) (ptr cap : Nat) : Prop :=
  ptr ≠ 0 ∧ 2 ≤ h.wordSize ∧ h.wordSize ≤ 64 ∧ 1 ≤ h.uniqueWords ∧ h.uniqueWords ≤ 2 ^ h.wordSize ∧
    h.padBits < h.wordSize ∧ ptr + headerBytes h.wordSize < 2 ^ 64 ∧ headerBytes h.wordSize ≤ cap

/-- Two memories read alike at every address. -/
def Memory.Same (m m' : Memory) : Prop := ∀ a, m'.readByte a = m.readByte a

/-- A field of `size` bits can be read or written at this cursor: none of the errors of 40_bitcursor.md
R61 and R66 applies. -/
abbrev Cursor.Fits (c : Cursor) (size : Nat) : Prop :=
  c.ptr ≠ 0 ∧ c.off < 8 ∧ 1 ≤ size ∧ size ≤ 64 ∧ c.ptr + footprint c.off size < 2 ^ 64 ∧
    footprint c.off size ≤ c.cap

/-- What a write of `size` bits of `value` at stream position `P` changes: the field holds the clipped
value, and every other stream bit is as before (40_bitcursor.md R66). -/
structure WroteField (m m' : Memory) (P size value : Nat) : Prop where
  field : m'.fieldAt P size = value % 2 ^ size
  others : ∀ Q, (Q < P ∨ P + size ≤ Q) → m'.streamBit Q = m.streamBit Q

/-! ### What a table holds (10_state.md R14, R15) -/

/-- Slot `j` is occupied. -/
abbrev Occupied (A : List (Nat × Slot)) (j : Nat) : Prop := (slotAt A j).count ≠ 0

/-- The `(id, count)` pair stands in some slot. -/
def Table.Holds (t : Table) (id : U64) (count : Nat) : Prop :=
  0 < count ∧ ∃ j, j < t.size.toNat ∧ (slotAt t.slots j).id = id ∧
    (slotAt t.slots j).count.toNat = count

/-- How often `w` has been counted: the counts of the listed slots that hold it. -/
def countOf : List (Nat × Slot) → U64 → Nat
  | [], _ => 0
  | (_, sl) :: rest, w => (if sl.id = w then sl.count.toNat else 0) + countOf rest w

/-- The sum of all counts. -/
def totalCount : List (Nat × Slot) → Nat
  | [] => 0
  | (_, sl) :: rest => sl.count.toNat + totalCount rest

/-- The probe for `id` stops at distance `k` from its hash position: the slot there is empty, or, unless
`anm` is set, holds the id (42_frequency_table.md R106). -/
abbrev ProbeStops (A : List (Nat × Slot)) (size : Nat) (id : U64) (anm : Bool) (k : Nat) : Prop :=
  (slotAt A ((hash id size + k) % size)).count = 0 ∨
    (anm = false ∧ (slotAt A ((hash id size + k) % size)).id = id)

/-- Distance `k` is the first of the `size - 1` distances examined at which the probe stops. -/
abbrev ProbeFinds (A : List (Nat × Slot)) (size : Nat) (id : U64) (anm : Bool) (k : Nat) : Prop :=
  k < size - 1 ∧ ProbeStops A size id anm k ∧ ∀ i, i < k → ¬ ProbeStops A size id anm i

/-- The distance of slot `j` from the hash position of `id` (R15 (d)). -/
def probeDistance (size : Nat) (id : U64) (j : Nat) : Nat := (j + size - hash id size) % size

/-- R15 (d) for one occupied slot: it is at most `size - 2` past the hash position of its id, and all
slots from there up to it are occupied. -/
abbrev ChainTo (A : List (Nat × Slot)) (size : Nat) (j : Nat) (id : U64) : Prop :=
  probeDistance size id j + 2 ≤ size ∧
    ∀ i, i < probeDistance size id j → Occupied A ((hash id size + i) % size)

/-- What R15 says of the slots of a table of `size` slots: (f) the slots listed are the occupied ones;
(c) no two of them hold the same id; (d) the probe-chain invariant. That the list is in its canonical
form is the model's own (log entry 10). -/
abbrev SlotsWF (A : List (Nat × Slot)) (size : Nat) : Prop :=
  Sparse.wf size A = true ∧
  (∀ e ∈ A, e.2.count ≠ 0) ∧
  (∀ e ∈ A, ∀ e' ∈ A, e.2.id = e'.2.id → e.1 = e'.1) ∧
  (∀ e ∈ A, ChainTo A size e.1 e.2.id)

/-- The table invariants of 10_state.md R15: (a) `T.size ≥ 1`; (b) `T.num` counts the occupied slots;
and what it says of the slots. (R15 (e) speaks of resize.) -/
abbrev Table.WF (t : Table) : Prop :=
  1 ≤ t.size.toNat ∧ t.num.toNat = t.slots.length ∧ SlotsWF t.slots t.size.toNat

/-! ### Rehashing (42_frequency_table.md R112) -/

/-- Array `N'` is array `N` with `sl` put into the first empty slot from the hash position of its id. -/
def PlacedIn (N N' : List (Nat × Slot)) (size : Nat) (sl : Slot) : Prop :=
  ∃ k, ProbeFinds N size sl.id true k ∧
    ∀ j, slotAt N' j = if j = (hash sl.id size + k) % size then sl else slotAt N j

/-- One turn of the rehash loop: old slot `i` takes array `N` to `N'`. -/
structure RehashTurn (old : List (Nat × Slot)) (i : Nat) (N N' : List (Nat × Slot)) (size : Nat) :
    Prop where
  occupied : Occupied old i → PlacedIn N N' size (slotAt old i)
  empty : ¬ Occupied old i → ∀ j, slotAt N' j = slotAt N j

/-- Array `new` of `newSize` slots is what the `oldSize` slots of `old`, taken by ascending index, make
of an empty array (R112, 92 D18). `B i` is the array after the first `i` of them. -/
def RehashedInOrder (old new : List (Nat × Slot)) (oldSize newSize : Nat) : Prop :=
  ∃ B : Nat → List (Nat × Slot), (∀ j, slotAt (B 0) j = ⟨0, 0⟩) ∧
    (∀ i, i < oldSize → RehashTurn old i (B i) (B (i + 1)) newSize) ∧
    ∀ j, slotAt new j = slotAt (B oldSize) j

/-! ### Well-formed states -/

/-- The table, if there is one, satisfies R15. -/
def State.TableInv (s : State) : Prop := ∀ t, s.table = some t → t.WF

/-- `STATUS` holds one of the six codes (10_state.md R13). -/
abbrev State.StatusInv (s : State) : Prop := s.status.toNat ≤ 5

/-- A well-formed state: canonical memory, a table as R15 says, a legal status. -/
def State.Inv (s : State) : Prop := s.mem.wf = true ∧ s.StatusInv ∧ s.TableInv

/-- The width of a register (10_state.md R11). -/
def Reg.width : Reg → Nat
  | .cmd | .status | .off | .size | .hws | .hpad => 8
  | .ptr | .cap | .val | .len | .huw | .tmax | .slot => 64
  | .anm => 1

/-! ### Draws -/

/-- The allocator after `d` draws. -/
def Allocator.after (A : Allocator) (d : Nat) : Allocator := ⟨A.answers.drop d, A.count + d⟩

/-- The draw after the next `d` is refused, whatever size is requested. -/
def Allocator.Refuses (A : Allocator) (d : Nat) : Prop := ∀ n, (A.after d).answer n = false

/-- The next `k` allocation requests, whatever their sizes, are all granted (92 D15: a claim of
success takes this as a named premise). -/
def Allocator.Grants : Nat → Allocator → Prop
  | 0, _ => True
  | k + 1, A => (∀ n, A.answer n = true) ∧ Allocator.Grants k A.next

/-! ### Sources of a build (42_frequency_table.md R124, R125) -/

/-- Whole word `i` of the source at `ptr`. -/
def sourceWord (m : Memory) (ptr ws i : Nat) : Nat := m.fieldAt (8 * ptr + i * ws) ws

/-- How often `w` occurs among the first `n` whole words. -/
def occurrences (m : Memory) (ptr ws w : Nat) : Nat → Nat
  | 0 => 0
  | n + 1 => occurrences m ptr ws w n + (if sourceWord m ptr ws n = w then 1 else 0)

/-- The low completion of the trailing partial word. -/
def lowCompletion (m : Memory) (ptr len ws : Nat) : Nat :=
  m.fieldAt (8 * ptr + (8 * len / ws) * ws) (8 * len % ws) * 2 ^ (ws - 8 * len % ws)

/-- The high completion of the trailing partial word. -/
def highCompletion (m : Memory) (ptr len ws : Nat) : Nat :=
  lowCompletion m ptr len ws + (2 ^ (ws - 8 * len % ws) - 1)

/-- The completion R125 chooses: the one that occurs more often among the whole words, the low one
on a tie. -/
def chosenCompletion (m : Memory) (ptr len ws : Nat) : Nat :=
  if occurrences m ptr ws (lowCompletion m ptr len ws) (8 * len / ws) <
      occurrences m ptr ws (highCompletion m ptr len ws) (8 * len / ws) then
    highCompletion m ptr len ws
  else lowCompletion m ptr len ws

/-- How often a build counts `w`: its occurrences among the whole words, and once more if it is the
completion chosen for a trailing partial word. -/
def buildCount (m : Memory) (ptr len ws w : Nat) : Nat :=
  occurrences m ptr ws w (8 * len / ws) +
    (if 8 * len % ws ≠ 0 ∧ chosenCompletion m ptr len ws = w then 1 else 0)

/-- The words a build adds, in order: the whole words of the source, and the completion chosen for a
trailing partial word. -/
def buildWords (m : Memory) (ptr len ws : Nat) : List U64 :=
  (List.range (8 * len / ws)).map (fun i => BitVec.ofNat 64 (sourceWord m ptr ws i)) ++
    (if 8 * len % ws = 0 then [] else [BitVec.ofNat 64 (chosenCompletion m ptr len ws)])

/-- Add a list of words in turn, stopping at the first failure. -/
def addAll (maxSize : Nat) : List U64 → Table → Allocator → TableStep
  | [], t, A => ⟨none, t, A⟩
  | w :: rest, t, A =>
    let r := addOrIncrement t A w maxSize
    match r.error with
    | some _ => r
    | none => addAll maxSize rest r.table r.alloc

end Sys2Proof.Machine
end

