-- ==== Sys2Proof/Certificates/Slice0/Obligations.lean ====
section
/-!
DEFINITION. The statements for the provers. Each docstring names the rule of spec/ it comes from; one
that rests on a choice of the model says so and names the log entry.
-/

open Sys2Proof Sys2Proof.Machine

/-! ### Command bytes and steps -/

/-- 30_encoding.md R46: the ten command bytes, written out from the table, decode to their commands. -/
def Obligations.CommandMapDecodes : Prop :=
  decode [0b00000001#8] = .ok (.readBits, []) ∧ decode [0b00000010#8] = .ok (.writeBits, []) ∧
  decode [0b00000011#8] = .ok (.hdrEncode, []) ∧ decode [0b00000100#8] = .ok (.hdrDecode, []) ∧
  decode [0b00000101#8] = .ok (.ftInit, []) ∧ decode [0b00000110#8] = .ok (.ftRelease, []) ∧
  decode [0b00000111#8] = .ok (.ftLookup, []) ∧ decode [0b00001000#8] = .ok (.ftResize, []) ∧
  decode [0b00001001#8] = .ok (.ftAdd, []) ∧ decode [0b00001010#8] = .ok (.ftBuild, [])

/-- 30_encoding.md R45, R46: every command is well formed, decoding its byte gives it back with the
bytes after it, and each byte that decodes is the byte of its command. -/
def Obligations.DecodeUndoesEncode : Prop :=
  (∀ i : Instr, i.WellFormed = true ∧
    ∀ rest, decode (encode i ++ rest) = .ok (i, rest)) ∧
  (∀ b i rest, decode (b :: rest) = .ok (i, rest) → encode i = [b])

/-- 30_encoding.md R48: exactly the bytes 1 to 10 are commands, and running any other sets `STATUS` to
2 and changes nothing else. -/
def Obligations.ReservedBytesExecuteNothing : Prop :=
  (∀ b : U8, (∃ i, decode [b] = .ok (i, [])) ↔ 1 ≤ b.toNat ∧ b.toNat ≤ 10) ∧
  (∀ (b : U8) (s : State), b.toNat = 0 ∨ 10 < b.toNat →
    runByte b s = .next { s with status := 2 })

/-- 10_state.md R10, R11: a host write to `CMD` starts the command its byte decodes to, in a state where
`CMD` holds the byte. That the host's actions stand in `script` is the model's choice (log entry 1),
and so is `withFetchWord` (log entry 2). -/
def Obligations.StepRunsDecodedCommand : Prop :=
  (∀ (s : State) (v : Nat) (rest : List Action) (i : Instr),
    s.script = .write .cmd v :: rest → decode [BitVec.ofNat 8 v] = .ok (i, []) →
    step s = exec i { s with cmd := BitVec.ofNat 8 v, script := rest }) ∧
  (∀ (s : State) (i : Instr),
    step (s.withFetchWord 8 (encodeByte i).toNat) = exec i { s with cmd := encodeByte i })

/-- 10_state.md R11, 30_encoding.md R48: a host write of a reserved byte to `CMD` leaves the byte in
`CMD` and sets `STATUS` to 2. The script is the model's choice (log entry 1). -/
def Obligations.StepOnReservedByte : Prop :=
  ∀ (s : State) (v : Nat) (rest : List Action) (r : Reject),
    s.script = .write .cmd v :: rest → decode [BitVec.ofNat 8 v] = .error r →
    step s = .next { s with cmd := BitVec.ofNat 8 v, script := rest, status := 2 }

/-- 10_state.md R10: "While idle, CORE changes nothing." That it is idle when no host action is left is
the model's choice (log entry 1). -/
def Obligations.IdleStepChangesNothing : Prop :=
  ∀ s : State, s.script = [] → step s = .next s

/-- 10_state.md R11, R13, R14: a host write to a register other than `CMD` keeps the low bits, touches
no other register, is ignored for `STATUS`, and leaves table and memory alone. The script is the
model's choice (log entry 1). -/
def Obligations.HostWriteSetsOneRegister : Prop :=
  ∀ (s : State) (r : Reg) (v : Nat) (rest : List Action), r ≠ .cmd →
    s.script = .write r v :: rest →
    ∃ t, step s = .next t ∧ t.script = rest ∧ t.table = s.table ∧ t.mem = s.mem ∧
      t.alloc = s.alloc ∧
      ∀ q, t.hostRead q = if q = r ∧ r ≠ .status then v % 2 ^ r.width else s.hostRead q

/-- 30_encoding.md R54, 20_memory.md R30: a host `MEM` line stores its bytes at ascending addresses and
changes nothing else; one that runs past the last address stops the machine, which is the model's
choice (log entry 4). -/
def Obligations.HostStorePlacesBytes : Prop :=
  ∀ (s : State) (addr : U64) (bytes : List U8) (rest : List Action),
    s.script = .store addr bytes :: rest →
    (addr.toNat + bytes.length ≤ 2 ^ 64 →
      ∃ m, step s = .next { s with script := rest, mem := m } ∧
        (∀ i b, bytes[i]? = some b → m.readByte (addr.toNat + i) = b) ∧
        ∀ a, ¬ InFootprint addr.toNat bytes.length a → m.readByte a = s.mem.readByte a) ∧
    (2 ^ 64 < addr.toNat + bytes.length → step s = .fault .storePastTop)

/-- 10_state.md R20: after reset every register is 0 and there is no table; a later reset does the same
and leaves byte memory alone. That reset is a host action is the model's choice (log entry 3). -/
def Obligations.ResetClearsRegisters : Prop :=
  (∀ r, State.reset.hostRead r = 0) ∧ State.reset.table = none ∧ State.reset.tValid = false ∧
  State.reset.tSize = 0 ∧ State.reset.tNum = 0 ∧
  (∀ (s : State) (rest : List Action), s.script = .reset :: rest →
    ∃ t, step s = .next t ∧ (∀ r, t.hostRead r = 0) ∧ t.table = none ∧ t.mem = s.mem)

/-! ### Invariants and whole-machine rules -/

/-- Every step keeps byte memory in its canonical form (log entry 6), from every state. -/
def Obligations.StepKeepsMemoryCanonical : Prop :=
  ∀ s t : State, s.mem.wf = true → step s = .next t → t.mem.wf = true

/-- 10_state.md R15: every step keeps the table invariants, from every state whose table has them. -/
def Obligations.StepKeepsTableInvariants : Prop :=
  ∀ s t : State, s.TableInv → step s = .next t → t.TableInv

/-- 10_state.md R13: every step keeps `STATUS` one of the six codes. -/
def Obligations.StepKeepsStatusLegal : Prop :=
  ∀ s t : State, s.StatusInv → step s = .next t → t.StatusInv

/-- The state after reset meets the invariant `State.Inv`: `STATUS` is one of the six codes (10_state.md
R13), the table, if there is one, satisfies R15, and memory is in its canonical form, which is the
model's own form of a memory whose content R20 leaves open (log entries 5 and 6). -/
def Obligations.ResetIsWellFormed : Prop := State.reset.Inv

/-- 70_reset_and_hazards.md R167, 60_exceptions.md R144: every command, in every state, completes or
fails in a next state, in which the host's coming actions and `CMD` are as before. -/
def Obligations.EveryCommandEndsInNextState : Prop :=
  ∀ (i : Instr) (s : State), ∃ t, exec i s = .next t ∧ t.script = s.script ∧ t.cmd = s.cmd

/-- A step is never refused, and stops only at a host `MEM` line that runs past the last address, which
is the model's choice (log entry 4). -/
def Obligations.StepStopsOnlyAtBadStore : Prop :=
  (∀ (s : State) (r : Refusal), step s ≠ .refused r) ∧
  (∀ (s : State) (f : Fault), step s = .fault f →
    f = .storePastTop ∧ ∃ addr bytes rest, s.script = .store addr bytes :: rest ∧
      2 ^ 64 < addr.toNat + bytes.length)

/-- 60_exceptions.md R144, R145: a failing command changes `STATUS` only, and the table only if it is
`FT_ADD` or `FT_BUILD`. (The draws it consumed are not state of CORE: log entry 7.) -/
def Obligations.FailureChangesOnlyStatus : Prop :=
  ∀ (i : Instr) (s t : State), exec i s = .next t → t.status ≠ 0 →
    t = { s with status := t.status, alloc := t.alloc, table := t.table } ∧
    (i ≠ .ftAdd → i ≠ .ftBuild → t.table = s.table)

/-- The status codes each command can leave: OK and the kinds 60_exceptions.md R141 lists for it. -/
def Obligations.CommandsRaiseOnlyListedKinds : Prop :=
  ∀ (i : Instr) (s t : State), exec i s = .next t →
    t.status ∈ (match i with
      | .readBits | .writeBits | .hdrEncode | .ftResize => [0, 1, 2, 3]
      | .hdrDecode => [0, 1, 2, 3, 4]
      | .ftInit => [0, 2, 3]
      | .ftRelease => [0, 1]
      | .ftLookup => [0, 1, 3]
      | .ftAdd | .ftBuild => [0, 1, 2, 3, 5] : List U8)

/-- The commands that do not write memory (20_memory.md R30, R34) leave every byte of it. -/
def Obligations.ReadingCommandsKeepMemory : Prop :=
  ∀ (i : Instr) (s t : State), i ≠ .writeBits → i ≠ .hdrEncode → exec i s = .next t →
    t.mem = s.mem

/-- `WRITE_BITS` and `HDR_ENCODE` (40_bitcursor.md R67, 41_header_codec.md R85; 20_memory.md R34, R38):
whatever the outcome, only `PTR`, `OFF`, `CAP` and `STATUS` of the registers change, and memory reads
as before outside the bytes of the field, or of the header, at the address in `PTR`. -/
def Obligations.WritingCommandsFrame : Prop :=
  (∀ s t : State, exec .writeBits s = .next t →
    t = { s with mem := t.mem, ptr := t.ptr, off := t.off, cap := t.cap, status := t.status } ∧
    ∀ a, ¬ InFootprint s.ptr.toNat (footprint s.off.toNat s.size.toNat) a →
      t.mem.readByte a = s.mem.readByte a) ∧
  (∀ s t : State, exec .hdrEncode s = .next t →
    t = { s with mem := t.mem, ptr := t.ptr, off := t.off, cap := t.cap, status := t.status } ∧
    ∀ a, ¬ InFootprint s.ptr.toNat (headerBytes s.hws.toNat) a →
      t.mem.readByte a = s.mem.readByte a)

/-- What the commands that write no memory leave of the rest of the state (30_encoding.md R49); the
allocator's draws are the model's own field (log entry 7). -/
def Obligations.ReadingCommandsFrame : Prop :=
  (∀ s t : State, exec .readBits s = .next t →
    t = { s with val := t.val, ptr := t.ptr, off := t.off, cap := t.cap, status := t.status }) ∧
  (∀ s t : State, exec .hdrDecode s = .next t →
    t = { s with hws := t.hws, hpad := t.hpad, huw := t.huw, ptr := t.ptr, off := t.off, cap := t.cap,
                 status := t.status }) ∧
  (∀ (i : Instr) (s t : State), i = .ftInit ∨ i = .ftRelease ∨ i = .ftResize ∨ i = .ftAdd →
    exec i s = .next t →
    t = { s with table := t.table, alloc := t.alloc, status := t.status }) ∧
  (∀ s t : State, exec .ftLookup s = .next t → t = { s with slot := t.slot, status := t.status }) ∧
  (∀ s t : State, exec .ftBuild s = .next t →
    t = { s with hws := t.hws, hpad := t.hpad, huw := t.huw, table := t.table, alloc := t.alloc,
                 status := t.status })

/-! ### BitCursor -/

/-- 20_memory.md R32: the value of a field is the sum over its stream bits, the first the most
significant; and a field splits with its high part first. -/
def Obligations.FieldIsSumOfStreamBits : Prop :=
  (∀ (m : Memory) (P n : Nat),
    m.fieldAt P n = ∑ k ∈ Finset.range n, m.streamBit (P + k) * 2 ^ (n - 1 - k)) ∧
  (∀ (m : Memory) (P a b : Nat),
    m.fieldAt P (a + b) = m.fieldAt P a * 2 ^ b + m.fieldAt (P + a) b)

/-- 40_bitcursor.md R62: `READ_BITS`, its result in every case. -/
def Obligations.ReadBitsCommand : Prop :=
  ∀ s : State,
    (s.cursor.Fits s.size.toNat →
      ∃ t, exec .readBits s = .next t ∧
        t.val.toNat = s.mem.fieldAt (8 * s.ptr.toNat + s.off.toNat) s.size.toNat ∧
        t.ptr.toNat = s.ptr.toNat + (s.off.toNat + s.size.toNat) / 8 ∧
        t.off.toNat = (s.off.toNat + s.size.toNat) % 8 ∧
        t.cap.toNat + (s.off.toNat + s.size.toNat) / 8 = s.cap.toNat ∧
        t = { s with val := t.val, ptr := t.ptr, off := t.off, cap := t.cap, status := 0 }) ∧
    (s.ptr = 0 → exec .readBits s = .next { s with status := 1 }) ∧
    (s.ptr ≠ 0 →
      8 ≤ s.off.toNat ∨ s.size = 0 ∨ 64 < s.size.toNat ∨
        2 ^ 64 ≤ s.ptr.toNat + footprint s.off.toNat s.size.toNat →
      exec .readBits s = .next { s with status := 2 }) ∧
    (s.ptr ≠ 0 → s.off.toNat < 8 → s.size ≠ 0 → s.size.toNat ≤ 64 →
      s.ptr.toNat + footprint s.off.toNat s.size.toNat < 2 ^ 64 →
      s.cap.toNat < footprint s.off.toNat s.size.toNat →
      exec .readBits s = .next { s with status := 3 })

/-- 40_bitcursor.md R67: `WRITE_BITS`, its result in every case; what memory then holds is said by the
stream bits (R66). -/
def Obligations.WriteBitsCommand : Prop :=
  ∀ s : State,
    (s.cursor.Fits s.size.toNat →
      ∃ t, exec .writeBits s = .next t ∧
        WroteField s.mem t.mem (8 * s.ptr.toNat + s.off.toNat) s.size.toNat s.val.toNat ∧
        (∀ a, ¬ InFootprint s.ptr.toNat (footprint s.off.toNat s.size.toNat) a →
          t.mem.readByte a = s.mem.readByte a) ∧
        t.ptr.toNat = s.ptr.toNat + (s.off.toNat + s.size.toNat) / 8 ∧
        t.off.toNat = (s.off.toNat + s.size.toNat) % 8 ∧
        t.cap.toNat + (s.off.toNat + s.size.toNat) / 8 = s.cap.toNat ∧
        t = { s with mem := t.mem, ptr := t.ptr, off := t.off, cap := t.cap, status := 0 }) ∧
    (s.ptr = 0 → exec .writeBits s = .next { s with status := 1 }) ∧
    (s.ptr ≠ 0 →
      8 ≤ s.off.toNat ∨ s.size = 0 ∨ 64 < s.size.toNat ∨
        2 ^ 64 ≤ s.ptr.toNat + footprint s.off.toNat s.size.toNat →
      exec .writeBits s = .next { s with status := 2 }) ∧
    (s.ptr ≠ 0 → s.off.toNat < 8 → s.size ≠ 0 → s.size.toNat ≤ 64 →
      s.ptr.toNat + footprint s.off.toNat s.size.toNat < 2 ^ 64 →
      s.cap.toNat < footprint s.off.toNat s.size.toNat →
      exec .writeBits s = .next { s with status := 3 })

/-- 40_bitcursor.md R63 (d): one read of `a + b` bits is a read of `a` bits and then one of `b` bits. -/
def Obligations.ReadSplitsInTwo : Prop :=
  ∀ (m : Memory) (c c' : Cursor) (a b v : Nat), 1 ≤ a → 1 ≤ b → a + b ≤ 64 →
    readBits m c (a + b) = .ok (v, c') →
    ∃ c1, readBits m c a = .ok (v >>> b, c1) ∧ readBits m c1 b = .ok (v &&& (2 ^ b - 1), c')

/-- 40_bitcursor.md R63 (a), (e): what is read is below `2^size` and depends on no byte outside the
footprint. -/
def Obligations.ReadDependsOnlyOnFootprint : Prop :=
  ∀ (m m' : Memory) (c : Cursor) (size : Nat),
    (∀ a, InFootprint c.ptr (footprint c.off size) a → m'.readByte a = m.readByte a) →
    readBits m' c size = readBits m c size ∧
    ∀ v c', readBits m c size = .ok (v, c') → v < 2 ^ size

/-- 40_bitcursor.md R69 (a): writing and then reading back at the starting position yields the clipped
value and the same cursor, advanced by exactly `size` bits. -/
def Obligations.WriteThenReadRoundTrip : Prop :=
  ∀ s t : State, exec .writeBits s = .next t → t.status = 0 →
    8 * t.ptr.toNat + t.off.toNat = 8 * s.ptr.toNat + s.off.toNat + s.size.toNat ∧
    ∃ u, exec .readBits { t with ptr := s.ptr, off := s.off, cap := s.cap } = .next u ∧
      u.status = 0 ∧ u.val.toNat = s.val.toNat % 2 ^ s.size.toNat ∧
      u.ptr = t.ptr ∧ u.off = t.off ∧ u.cap = t.cap

/-- 40_bitcursor.md R69 (e): one write of `a + b` bits and two writes of `a` and of `b` bits succeed
together and come to the same memory and cursor. -/
def Obligations.WriteSplitsInTwo : Prop :=
  ∀ (m : Memory) (c : Cursor) (v1 v2 a b : Nat), 1 ≤ a → 1 ≤ b → a + b ≤ 64 →
    (∀ m' c', writeBits m c ((v1 % 2 ^ a) * 2 ^ b + v2 % 2 ^ b) (a + b) = .ok (m', c') →
      ∃ m1 c1 m2, writeBits m c v1 a = .ok (m1, c1) ∧ writeBits m1 c1 v2 b = .ok (m2, c') ∧
        m'.Same m2) ∧
    (∀ m1 c1 m2 c2, writeBits m c v1 a = .ok (m1, c1) → writeBits m1 c1 v2 b = .ok (m2, c2) →
      ∃ m', writeBits m c ((v1 % 2 ^ a) * 2 ^ b + v2 % 2 ^ b) (a + b) = .ok (m', c2) ∧ m'.Same m2)

/-- 40_bitcursor.md R69 (f): repeating a successful write leaves memory unchanged. -/
def Obligations.RepeatedWriteChangesNothing : Prop :=
  ∀ (m m1 : Memory) (c c1 : Cursor) (v size : Nat), writeBits m c v size = .ok (m1, c1) →
    ∃ m2, writeBits m1 c v size = .ok (m2, c1) ∧ m1.Same m2

/-- 20_memory.md R34: the bytes `WRITE_BITS` stores depend on the old content of no byte but the first
and the last, and on these only where the field covers them partly. -/
def Obligations.WriteReadsOnlyPartlyCoveredBytes : Prop :=
  ∀ (m m' m1 m1' : Memory) (c c1 c1' : Cursor) (v size : Nat),
    (c.off ≠ 0 ∨ (footprint c.off size = 1 ∧ c.off + size < 8) →
      m'.readByte c.ptr = m.readByte c.ptr) →
    ((c.off + size) % 8 ≠ 0 →
      m'.readByte (c.ptr + footprint c.off size - 1) = m.readByte (c.ptr + footprint c.off size - 1)) →
    writeBits m c v size = .ok (m1, c1) → writeBits m' c v size = .ok (m1', c1') →
    ∀ a, InFootprint c.ptr (footprint c.off size) a → m1'.readByte a = m1.readByte a

/-! ### HeaderCodec -/

/-- 41_header_codec.md R80: `clog2` is 1 at 1; from 2 on it is the position of the highest set bit, one
more if a lower bit is set, which is the least `c` with `2^c ≥ x`. -/
def Obligations.Clog2IsCeilingLogarithm : Prop :=
  clog2 1 = 1 ∧
  (∀ x hb : Nat, 2 ≤ x → x.testBit hb = true → (∀ i, hb < i → x.testBit i = false) →
    clog2 x = if x &&& (2 ^ hb - 1) ≠ 0 then hb + 1 else hb) ∧
  (∀ x c : Nat, 2 ≤ x → (x ≤ 2 ^ c ↔ clog2 x ≤ c))

/-- 30_encoding.md R52, 41_header_codec.md R81: the header sizes of the table, in bits for word sizes 2
to 8 and by row beyond, and in bytes. -/
def Obligations.HeaderSizesMatchTheTable : Prop :=
  (List.range' 2 7).map headerBits = [9, 11, 12, 14, 15, 16, 17] ∧
  (∀ ws, 9 ≤ ws → ws ≤ 16 → headerBits ws = 6 + 4 + ws) ∧
  (∀ ws, 17 ≤ ws → ws ≤ 32 → headerBits ws = 6 + 5 + ws) ∧
  (∀ ws, 33 ≤ ws → ws ≤ 64 → headerBits ws = 6 + 6 + ws) ∧
  (∀ ws, 2 ≤ ws → ws ≤ 64 → headerBytes ws =
    if ws ≤ 7 then 2 else if ws ≤ 14 then 3 else if ws ≤ 21 then 4 else if ws ≤ 29 then 5
    else if ws ≤ 36 then 6 else if ws ≤ 44 then 7 else if ws ≤ 52 then 8 else if ws ≤ 60 then 9
    else 10)

/-- 41_header_codec.md R85: `HDR_ENCODE`, its result in every case; the three fields stand in the bytes
as 30_encoding.md R50 and R51 lay them out, and every other stream bit is kept. -/
def Obligations.HdrEncodeCommand : Prop :=
  ∀ s : State,
    (s.header.Fits s.ptr.toNat s.cap.toNat →
      ∃ t, exec .hdrEncode s = .next t ∧
        t.mem.fieldAt (8 * s.ptr.toNat) 6 = s.hws.toNat % 64 ∧
        t.mem.fieldAt (8 * s.ptr.toNat + 6) (clog2 s.hws.toNat) = s.hpad.toNat ∧
        t.mem.fieldAt (8 * s.ptr.toNat + 6 + clog2 s.hws.toNat) s.hws.toNat + 1 = s.huw.toNat ∧
        (∀ Q, Q < 8 * s.ptr.toNat ∨ 8 * s.ptr.toNat + headerBits s.hws.toNat ≤ Q →
          t.mem.streamBit Q = s.mem.streamBit Q) ∧
        (∀ a, ¬ InFootprint s.ptr.toNat (headerBytes s.hws.toNat) a →
          t.mem.readByte a = s.mem.readByte a) ∧
        t.ptr.toNat = s.ptr.toNat + headerBits s.hws.toNat / 8 ∧
        t.off.toNat = headerBits s.hws.toNat % 8 ∧
        t.cap.toNat + headerBits s.hws.toNat / 8 = s.cap.toNat ∧
        t = { s with mem := t.mem, ptr := t.ptr, off := t.off, cap := t.cap, status := 0 }) ∧
    (s.ptr = 0 → exec .hdrEncode s = .next { s with status := 1 }) ∧
    (s.ptr ≠ 0 →
      s.hws.toNat < 2 ∨ 64 < s.hws.toNat ∨ s.huw = 0 ∨ 2 ^ s.hws.toNat < s.huw.toNat ∨
        s.hws.toNat ≤ s.hpad.toNat ∨ 2 ^ 64 ≤ s.ptr.toNat + headerBytes s.hws.toNat →
      exec .hdrEncode s = .next { s with status := 2 }) ∧
    (s.ptr ≠ 0 → 2 ≤ s.hws.toNat → s.hws.toNat ≤ 64 → s.huw ≠ 0 →
      s.huw.toNat ≤ 2 ^ s.hws.toNat → s.hpad.toNat < s.hws.toNat →
      s.ptr.toNat + headerBytes s.hws.toNat < 2 ^ 64 →
      s.cap.toNat < headerBytes s.hws.toNat →
      exec .hdrEncode s = .next { s with status := 3 })

/-- 41_header_codec.md R91: `HDR_DECODE`, its result in every case, in the order of its tests. `ws` is
the word size found in the first 6 stream bits. -/
def Obligations.HdrDecodeCommand : Prop :=
  ∀ (s : State) (ws : Nat), ws = s.mem.fieldAt (8 * s.ptr.toNat) 6 →
    (s.ptr = 0 → exec .hdrDecode s = .next { s with status := 1 }) ∧
    (s.ptr ≠ 0 → 2 ^ 64 ≤ s.ptr.toNat + 2 → exec .hdrDecode s = .next { s with status := 2 }) ∧
    (s.ptr ≠ 0 → s.ptr.toNat + 2 < 2 ^ 64 → s.cap.toNat < 2 →
      exec .hdrDecode s = .next { s with status := 3 }) ∧
    (s.ptr ≠ 0 → s.ptr.toNat + 2 < 2 ^ 64 → 2 ≤ s.cap.toNat →
      (ws < 2 → exec .hdrDecode s = .next { s with status := 4 }) ∧
      (2 ≤ ws → 2 ^ 64 ≤ s.ptr.toNat + headerBytes ws →
        exec .hdrDecode s = .next { s with status := 2 }) ∧
      (2 ≤ ws → s.ptr.toNat + headerBytes ws < 2 ^ 64 → s.cap.toNat < headerBytes ws →
        exec .hdrDecode s = .next { s with status := 3 }) ∧
      (2 ≤ ws → s.ptr.toNat + headerBytes ws < 2 ^ 64 → headerBytes ws ≤ s.cap.toNat →
        (ws ≤ s.mem.fieldAt (8 * s.ptr.toNat + 6) (clog2 ws) →
          exec .hdrDecode s = .next { s with status := 4 }) ∧
        (s.mem.fieldAt (8 * s.ptr.toNat + 6) (clog2 ws) < ws →
          ∃ t, exec .hdrDecode s = .next t ∧ t.hws.toNat = ws ∧
            t.hpad.toNat = s.mem.fieldAt (8 * s.ptr.toNat + 6) (clog2 ws) ∧
            t.huw.toNat = s.mem.fieldAt (8 * s.ptr.toNat + 6 + clog2 ws) ws + 1 ∧
            t.ptr.toNat = s.ptr.toNat + headerBits ws / 8 ∧
            t.off.toNat = headerBits ws % 8 ∧
            t.cap.toNat + headerBits ws / 8 = s.cap.toNat ∧
            t = { s with hws := t.hws, hpad := t.hpad, huw := t.huw, ptr := t.ptr, off := t.off,
                         cap := t.cap, status := 0 })))

/-- 41_header_codec.md R92, first part: for word sizes 2 to 63, decoding what was encoded gives the
header back with the same cursor. -/
def Obligations.HeaderRoundTrip : Prop :=
  ∀ s t : State, exec .hdrEncode s = .next t → t.status = 0 → s.hws.toNat ≤ 63 →
    ∃ u, exec .hdrDecode { t with ptr := s.ptr, cap := s.cap, hws := 0, hpad := 0, huw := 0 } = .next u ∧
      u.status = 0 ∧ u.hws = s.hws ∧ u.hpad = s.hpad ∧ u.huw = s.huw ∧
      u.ptr = t.ptr ∧ u.off = t.off ∧ u.cap = t.cap

/-- 41_header_codec.md R92, converse: encoding what was decoded succeeds with the same cursor and leaves
every byte of memory as it was. -/
def Obligations.DecodeThenEncodeKeepsMemory : Prop :=
  ∀ s t : State, exec .hdrDecode s = .next t → t.status = 0 →
    ∃ u, exec .hdrEncode { t with ptr := s.ptr, cap := s.cap } = .next u ∧ u.status = 0 ∧
      s.mem.Same u.mem ∧ u.ptr = t.ptr ∧ u.off = t.off ∧ u.cap = t.cap

/-- 41_header_codec.md R86: a header of word size 64 is encoded, in 76 bits with a word-size field of 0,
and decoding it fails with `InvalidData`. -/
def Obligations.WordSize64EncodesButDoesNotDecode : Prop :=
  ∀ s : State, s.hws.toNat = 64 → s.header.Fits s.ptr.toNat s.cap.toNat →
    ∃ t, exec .hdrEncode s = .next t ∧ t.status = 0 ∧
      t.mem.fieldAt (8 * s.ptr.toNat) 6 = 0 ∧
      t.mem.fieldAt (8 * s.ptr.toNat + 6) 6 = s.hpad.toNat ∧
      t.mem.fieldAt (8 * s.ptr.toNat + 12) 64 + 1 = s.huw.toNat ∧
      t.ptr.toNat = s.ptr.toNat + 9 ∧ t.off.toNat = 4 ∧
      exec .hdrDecode { t with ptr := s.ptr, cap := s.cap } =
        .next { t with ptr := s.ptr, cap := s.cap, status := 4 }

/-- 10_state.md R17, 41_header_codec.md R92: every header decoded satisfies the header invariant, with a
word size of at most 63. -/
def Obligations.DecodedHeaderIsLegal : Prop :=
  ∀ s t : State, exec .hdrDecode s = .next t → t.status = 0 →
    2 ≤ t.hws.toNat ∧ t.hws.toNat ≤ 63 ∧ t.hpad.toNat < t.hws.toNat ∧ 1 ≤ t.huw.toNat ∧
      t.huw.toNat ≤ 2 ^ t.hws.toNat

/-! ### FrequencyTable: lifecycle, lookup, resize -/

/-- 42_frequency_table.md R102: `FT_INIT`, its result in every case. That a draw advances the field
`alloc` is the model's choice (log entry 7). -/
def Obligations.FtInitCommand : Prop :=
  ∀ s : State,
    (s.len = 0 → exec .ftInit s = .next { s with status := 2 }) ∧
    (s.len ≠ 0 → s.alloc.answer s.len.toNat = false →
      exec .ftInit s = .next { s with alloc := s.alloc.next, status := 3 }) ∧
    (s.len ≠ 0 → s.alloc.answer s.len.toNat = true →
      ∃ t, exec .ftInit s = .next t ∧ t.tValid = true ∧ t.tSize = s.len ∧ t.tNum = 0 ∧
        (∀ j, j < s.len.toNat → t.hostSlot j = some ⟨0, 0⟩) ∧
        t = { s with table := t.table, alloc := s.alloc.next, status := 0 })

/-- 42_frequency_table.md R103: `FT_RELEASE`, its result in every case. -/
def Obligations.FtReleaseCommand : Prop :=
  ∀ s : State,
    (s.tValid = false → exec .ftRelease s = .next { s with status := 1 }) ∧
    (s.tValid = true →
      ∃ t, exec .ftRelease s = .next t ∧ t.tValid = false ∧ t.tSize = 0 ∧ t.tNum = 0 ∧
        (∀ j, t.hostSlot j = none) ∧ t = { s with table := t.table, status := 0 })

/-- 42_frequency_table.md R107 with R106: `FT_LOOKUP`, its result in every case: the first of the
`T.size - 1` slots examined at which the probe stops, or `InsufficientSpace`. -/
def Obligations.FtLookupCommand : Prop :=
  ∀ s : State,
    (s.table = none → exec .ftLookup s = .next { s with status := 1 }) ∧
    (∀ (t : Table) (k : Nat), s.table = some t →
      ProbeFinds t.slots t.size.toNat s.val (s.anm == 1) k →
      ∃ u, exec .ftLookup s = .next u ∧
        u.slot.toNat = (s.val.toNat % t.size.toNat + k) % t.size.toNat ∧
        u = { s with slot := u.slot, status := 0 }) ∧
    (∀ t : Table, s.table = some t →
      (∀ k, k < t.size.toNat - 1 → ¬ ProbeStops t.slots t.size.toNat s.val (s.anm == 1) k) →
      exec .ftLookup s = .next { s with status := 3 })

/-- 42_frequency_table.md R108 (a), (b): on a well-formed table `FT_LOOKUP` with `ANM = 0` finds an id
that is there; for one that is not, it answers an empty slot or fails. -/
def Obligations.LookupFindsMembers : Prop :=
  ∀ (s : State) (t : Table), s.table = some t → t.WF → s.anm = 0 →
    ((∃ c, t.Holds s.val c) →
      ∃ u, exec .ftLookup s = .next u ∧ u.status = 0 ∧ u.slot.toNat < t.size.toNat ∧
        (slotAt t.slots u.slot.toNat).id = s.val ∧ Occupied t.slots u.slot.toNat) ∧
    ((¬ ∃ c, t.Holds s.val c) →
      ∃ u, exec .ftLookup s = .next u ∧
        (u.status = 0 ∧ u.slot.toNat < t.size.toNat ∧ ¬ Occupied t.slots u.slot.toNat ∨
          u = { s with status := 3 }))

/-- 42_frequency_table.md R113 with R112 and R114: `FT_RESIZE`, its result in every case. On success the
size is the new one, `T.num` and the `(id, count)` pairs are as before, R15 holds, and each old occupied
slot, by ascending index (92 D18), has gone to the first empty slot from its hash position. -/
def Obligations.FtResizeCommand : Prop :=
  ∀ s : State,
    (s.table = none → exec .ftResize s = .next { s with status := 1 }) ∧
    (∀ t : Table, s.table = some t → s.len = 0 ∨ s.len.toNat ≤ t.size.toNat →
      exec .ftResize s = .next { s with status := 2 }) ∧
    (∀ t : Table, s.table = some t → 1 ≤ t.size.toNat → t.size.toNat < s.len.toNat →
      s.alloc.answer s.len.toNat = false →
      exec .ftResize s = .next { s with alloc := s.alloc.next, status := 3 }) ∧
    (∀ t : Table, s.table = some t → t.WF → t.size.toNat < s.len.toNat →
      s.alloc.answer s.len.toNat = true →
      ∃ t' : Table,
        exec .ftResize s = .next { s with table := some t', alloc := s.alloc.next, status := 0 } ∧
        t'.WF ∧ t'.size = s.len ∧ t'.num = t.num ∧ (∀ id c, t'.Holds id c ↔ t.Holds id c) ∧
        RehashedInOrder t.slots t'.slots t.size.toNat s.len.toNat)

/-! ### FrequencyTable: adding words -/

/-- 42_frequency_table.md R118, R119, R120 (d): `FT_ADD` of a word in the table adds 1 to its count and
changes nothing else; no resize happens. -/
def Obligations.FtAddIncrementsKnownWord : Prop :=
  ∀ (s : State) (t : Table) (j : Nat), s.table = some t → t.WF → j < t.size.toNat →
    Occupied t.slots j → (slotAt t.slots j).id = s.val →
    (slotAt t.slots j).count.toNat < 2 ^ 64 - 1 →
    ∃ t' : Table, exec .ftAdd s = .next { s with table := some t', status := 0 } ∧
      t'.size = t.size ∧ t'.num = t.num ∧ (slotAt t'.slots j).id = s.val ∧
      (slotAt t'.slots j).count.toNat = (slotAt t.slots j).count.toNat + 1 ∧
      ∀ i, i ≠ j → slotAt t'.slots i = slotAt t.slots i

/-- 42_frequency_table.md R118, R119: `FT_ADD` of a word whose lookup answers an empty slot stores it
there with count 1 and adds 1 to `T.num`; no resize happens. -/
def Obligations.FtAddInsertsNewWord : Prop :=
  ∀ (s : State) (t : Table) (k j : Nat), s.table = some t →
    ProbeFinds t.slots t.size.toNat s.val false k →
    j = (hash s.val t.size.toNat + k) % t.size.toNat → ¬ Occupied t.slots j →
    t.num.toNat < 2 ^ 64 - 1 →
    ∃ t' : Table, exec .ftAdd s = .next { s with table := some t', status := 0 } ∧
      t'.size = t.size ∧ t'.num.toNat = t.num.toNat + 1 ∧ slotAt t'.slots j = ⟨s.val, 1⟩ ∧
      ∀ i, i ≠ j → slotAt t'.slots i = slotAt t.slots i

/-- 42_frequency_table.md R118, R119, R120 (c): when the lookup fails and the table may grow by two
slots or more, or has one slot, and the allocation is granted, `FT_ADD` resizes to
`min(2 * T.size, TMAX)` and adds the word. -/
def Obligations.FtAddGrowsAndRetries : Prop :=
  ∀ (s : State) (t : Table) (n : Nat), s.table = some t → t.WF →
    (∀ k, k < t.size.toNat - 1 → ¬ ProbeStops t.slots t.size.toNat s.val false k) →
    n = min (2 * t.size.toNat) s.tmax.toNat →
    t.size.toNat + 2 ≤ n ∨ (t.size.toNat = 1 ∧ n = 2) → s.alloc.answer n = true →
    ∃ t' : Table,
      exec .ftAdd s = .next { s with table := some t', alloc := s.alloc.next, status := 0 } ∧
      t'.WF ∧ t'.size.toNat = n ∧ t'.num.toNat = t.num.toNat + 1 ∧ t'.Holds s.val 1 ∧
      ∀ id c, id ≠ s.val → (t'.Holds id c ↔ t.Holds id c)

/-- 42_frequency_table.md R118, R119, R120 (c), 60_exceptions.md R145 (a): `FT_ADD` after a granted
growth, growth by one slot included. The old slots are rehashed in order (R112, 92 D18). If the retried
probe stops, the word is counted in the slot it stops at; if it does not, the command ends with
`InsufficientSpace` and the table stays resized. (`Overflow` cannot follow a growth here: `T.num` is at
most the old size.) -/
def Obligations.FtAddAfterGrowth : Prop :=
  ∀ (s : State) (t : Table) (n : Nat), s.table = some t → t.WF →
    (∀ k, k < t.size.toNat - 1 → ¬ ProbeStops t.slots t.size.toNat s.val false k) →
    n = min (2 * t.size.toNat) s.tmax.toNat → t.size.toNat < n → s.alloc.answer n = true →
    ∃ t1 : Table, t1.WF ∧ t1.size.toNat = n ∧ t1.num = t.num ∧
      (∀ id c, t1.Holds id c ↔ t.Holds id c) ∧
      RehashedInOrder t.slots t1.slots t.size.toNat n ∧
      (∀ k j, ProbeFinds t1.slots n s.val false k → j = (hash s.val n + k) % n →
        ∃ t' : Table,
          exec .ftAdd s = .next { s with table := some t', alloc := s.alloc.next, status := 0 } ∧
          t'.WF ∧ t'.size = t1.size ∧ t'.num.toNat = t.num.toNat + 1 ∧
          slotAt t'.slots j = ⟨s.val, 1⟩ ∧ ∀ i, i ≠ j → slotAt t'.slots i = slotAt t1.slots i) ∧
      ((∀ k, k < n - 1 → ¬ ProbeStops t1.slots n s.val false k) →
        exec .ftAdd s = .next { s with table := some t1, alloc := s.alloc.next, status := 3 })

/-- 42_frequency_table.md R119: the failures of `FT_ADD` that leave the table exactly as before. -/
def Obligations.FtAddFailuresKeepTable : Prop :=
  ∀ s : State,
    (s.table = none → exec .ftAdd s = .next { s with status := 1 }) ∧
    (∀ t : Table, s.table = some t →
      (∀ k, k < t.size.toNat - 1 → ¬ ProbeStops t.slots t.size.toNat s.val false k) →
      (t.size = s.tmax → exec .ftAdd s = .next { s with status := 3 }) ∧
      (s.tmax.toNat < t.size.toNat → exec .ftAdd s = .next { s with status := 2 }) ∧
      (1 ≤ t.size.toNat → t.size.toNat < s.tmax.toNat →
        s.alloc.answer (min (2 * t.size.toNat) s.tmax.toNat) = false →
        exec .ftAdd s = .next { s with alloc := s.alloc.next, status := 3 })) ∧
    (∀ (t : Table) (k j : Nat), s.table = some t →
      ProbeFinds t.slots t.size.toNat s.val false k →
      j = (hash s.val t.size.toNat + k) % t.size.toNat →
      (Occupied t.slots j → (slotAt t.slots j).count.toNat = 2 ^ 64 - 1 →
        exec .ftAdd s = .next { s with status := 5 }) ∧
      (¬ Occupied t.slots j → t.num.toNat = 2 ^ 64 - 1 →
        exec .ftAdd s = .next { s with status := 5 }))

/-- 42_frequency_table.md R120 (a), 60_exceptions.md R145 (a): on a well-formed table `FT_ADD` keeps R15
and either adds 1 to exactly one count, and 1 to `T.num` if the word is new, or leaves every count and
`T.num`. Whether it succeeds or fails, the size is `min(2 * T.size, TMAX)` if the first lookup fails,
that is larger and the request is granted, and the old one if not. -/
def Obligations.FtAddChangesOneCount : Prop :=
  ∀ (s u : State) (t : Table), s.table = some t → t.WF → exec .ftAdd s = .next u →
    ∃ t' : Table, u.table = some t' ∧ t'.WF ∧
      t'.size.toNat =
        (if (∀ k, k < t.size.toNat - 1 → ¬ ProbeStops t.slots t.size.toNat s.val false k) ∧
            t.size.toNat < min (2 * t.size.toNat) s.tmax.toNat ∧
            s.alloc.answer (min (2 * t.size.toNat) s.tmax.toNat) = true then
          min (2 * t.size.toNat) s.tmax.toNat
        else t.size.toNat) ∧
      (u.status = 0 →
        (∀ w, countOf t'.slots w = countOf t.slots w + (if w = s.val then 1 else 0)) ∧
        t'.num.toNat = t.num.toNat + (if countOf t.slots s.val = 0 then 1 else 0)) ∧
      (u.status ≠ 0 → (∀ w, countOf t'.slots w = countOf t.slots w) ∧ t'.num = t.num)

/-- 42_frequency_table.md R120 (b): the counts and `T.num` after adding words to an empty table depend
only on the multiset of words, not on the starting size, the size limit or the allocator, as long as
no add fails. -/
def Obligations.ContentsIndependentOfGrowth : Prop :=
  ∀ (ws ws' : List U64) (n n' limit limit' : Nat) (A A' : Allocator),
    ws.Perm ws' → 1 ≤ n → n < 2 ^ 64 → 1 ≤ n' → n' < 2 ^ 64 → limit < 2 ^ 64 → limit' < 2 ^ 64 →
    (addAll limit ws (freshTable n) A).error = none →
    (addAll limit' ws' (freshTable n') A').error = none →
    (∀ w, countOf (addAll limit ws (freshTable n) A).table.slots w =
      countOf (addAll limit' ws' (freshTable n') A').table.slots w) ∧
    (∀ w, countOf (addAll limit ws (freshTable n) A).table.slots w = ws.count w) ∧
    (addAll limit ws (freshTable n) A).table.num = (addAll limit' ws' (freshTable n') A').table.num

/-! ### FrequencyTable: building -/

/-- 00_scope.md R4: `INIT_SIZE(ws)` lies between 1 and `max_size(ws) = 2^min(ws, 59)`, which is all the
spec says of it (log entry 8). -/
def Obligations.InitSizeWithinBounds : Prop :=
  ∀ ws : Nat, 1 ≤ initSize ws ∧ initSize ws ≤ 2 ^ min ws 59

/-- 42_frequency_table.md R126, R124: the failures of `FT_BUILD` before its first allocation has
succeeded change nothing but `STATUS`. -/
def Obligations.FtBuildEarlyFailures : Prop :=
  ∀ s : State,
    (s.ptr = 0 → exec .ftBuild s = .next { s with status := 1 }) ∧
    (s.ptr ≠ 0 →
      s.len = 0 ∨ s.size.toNat < 2 ∨ 64 < s.size.toNat ∨ 2 ^ 64 ≤ s.ptr.toNat + s.len.toNat →
      exec .ftBuild s = .next { s with status := 2 }) ∧
    (s.ptr ≠ 0 → s.len ≠ 0 → 2 ≤ s.size.toNat → s.size.toNat ≤ 64 →
      s.ptr.toNat + s.len.toNat < 2 ^ 64 → s.alloc.answer (initSize s.size.toNat) = false →
      exec .ftBuild s = .next { s with alloc := s.alloc.next, status := 3 })

/-- 60_exceptions.md R145 (b), 42_frequency_table.md R126: a build that fails after its first allocation
has succeeded, whatever its starting capacity, leaves no table and writes no header register. With a
starting capacity within its bounds (00_scope.md R4) the error is the inner one: `InsufficientSpace` or
`Overflow`. A refused request of an inner resize ends the command at once with `InsufficientSpace`: it is
the last draw. That draws are counted in `alloc` is the model's choice (log entry 7). -/
def Obligations.FtBuildLateFailureLeavesNoTable : Prop :=
  (∀ s : State, exec .ftBuild s = .next (ftBuildFrom (initSize s.size.toNat) s)) ∧
  (∀ (n0 : Nat) (s : State), s.ptr ≠ 0 → s.len ≠ 0 → 2 ≤ s.size.toNat → s.size.toNat ≤ 64 →
    s.ptr.toNat + s.len.toNat < 2 ^ 64 → s.alloc.answer n0 = true →
    ((ftBuildFrom n0 s).status ≠ 0 →
      ftBuildFrom n0 s = { s with table := none, alloc := (ftBuildFrom n0 s).alloc,
                                  status := (ftBuildFrom n0 s).status }) ∧
    (1 ≤ n0 → n0 ≤ maxSize s.size.toNat → (ftBuildFrom n0 s).status ≠ 0 →
      (ftBuildFrom n0 s).status = 3 ∨ (ftBuildFrom n0 s).status = 5) ∧
    (∀ d, 1 ≤ n0 → n0 ≤ maxSize s.size.toNat → 1 ≤ d → s.alloc.Refuses d →
      s.alloc.count + d < (ftBuildFrom n0 s).alloc.count →
      (ftBuildFrom n0 s).status = 3 ∧ (ftBuildFrom n0 s).alloc = s.alloc.after (d + 1)))

/-- 42_frequency_table.md R124, R125, R126: a build whose first request is granted adds the words of its
source in order to a fresh table, stopping at the first failure. Its table, slot positions and size
included, its draws and its error are those of these adds; a failure leaves no table. (Draws: log entry
7; starting capacity: log entry 8.) -/
def Obligations.FtBuildAddsSourceWords : Prop :=
  ∀ (n0 : Nat) (s : State) (r : TableStep), s.ptr ≠ 0 → s.len ≠ 0 → 2 ≤ s.size.toNat →
    s.size.toNat ≤ 64 → s.ptr.toNat + s.len.toNat < 2 ^ 64 → s.alloc.answer n0 = true →
    1 ≤ n0 → n0 ≤ maxSize s.size.toNat →
    r = addAll (maxSize s.size.toNat) (buildWords s.mem s.ptr.toNat s.len.toNat s.size.toNat)
      (freshTable n0) s.alloc.next →
    (ftBuildFrom n0 s).alloc = r.alloc ∧
    (r.error = none → (ftBuildFrom n0 s).status = 0 ∧ (ftBuildFrom n0 s).table = some r.table) ∧
    (∀ e, r.error = some e →
      (ftBuildFrom n0 s).status = e.code ∧ (ftBuildFrom n0 s).table = none)

/-- 60_exceptions.md R141: `FT_BUILD` reports `InvalidValue` only for its arguments; an inner
`add_or_increment` never raises it. -/
def Obligations.FtBuildInvalidOnlyForArguments : Prop :=
  ∀ s t : State, exec .ftBuild s = .next t → t.status = 2 →
    s.len = 0 ∨ s.size.toNat < 2 ∨ 64 < s.size.toNat ∨ 2 ^ 64 ≤ s.ptr.toNat + s.len.toNat

/-- 42_frequency_table.md R124, R125, R126, R104: with legal arguments, a source below `2^61` bytes (92
D29) and every allocation request granted (92 D15; at most 61 are made), `FT_BUILD` succeeds: it writes
the header, leaves memory and the other registers, and its table counts each word as often as it occurs
among the whole words and the chosen completion. -/
def Obligations.FtBuildCompletes : Prop :=
  ∀ s : State, s.ptr ≠ 0 → s.len ≠ 0 → s.len.toNat < 2 ^ 61 → 2 ≤ s.size.toNat →
    s.size.toNat ≤ 64 → s.ptr.toNat + s.len.toNat < 2 ^ 64 → s.alloc.Grants 61 →
    ∃ t, exec .ftBuild s = .next t ∧
      t = { s with hws := t.hws, hpad := t.hpad, huw := t.huw, table := t.table, alloc := t.alloc,
                   status := 0 } ∧
      t.hws = s.size ∧ t.hpad.toNat = buildPad s.len.toNat s.size.toNat ∧ t.huw = t.tNum ∧
      ∃ T : Table, t.table = some T ∧ T.WF ∧
        ∀ w, countOf T.slots w = buildCount s.mem s.ptr.toNat s.len.toNat s.size.toNat w.toNat

/-- 42_frequency_table.md R127 (c), (d): whenever a build succeeds, whatever its starting capacity and
the allocator's answers, the table counts exactly the words of the source and the header holds the
number of distinct ones. -/
def Obligations.BuildCountsTheSource : Prop :=
  ∀ (n0 : Nat) (s : State), 1 ≤ n0 → n0 ≤ maxSize s.size.toNat → (ftBuildFrom n0 s).status = 0 →
    ∃ T : Table, (ftBuildFrom n0 s).table = some T ∧ T.WF ∧
      (∀ w, countOf T.slots w = buildCount s.mem s.ptr.toNat s.len.toNat s.size.toNat w.toNat) ∧
      (ftBuildFrom n0 s).hws = s.size ∧
      (ftBuildFrom n0 s).hpad.toNat = buildPad s.len.toNat s.size.toNat ∧
      (ftBuildFrom n0 s).huw.toNat = T.slots.length

/-- 42_frequency_table.md R127 (a): the header of a successful build is legal, so `HDR_ENCODE` accepts
its fields. -/
def Obligations.BuildHeaderIsLegal : Prop :=
  ∀ s t : State, exec .ftBuild s = .next t → t.status = 0 →
    2 ≤ t.hws.toNat ∧ t.hws.toNat ≤ 64 ∧ t.hpad.toNat < t.hws.toNat ∧ 1 ≤ t.huw.toNat ∧
      t.huw.toNat ≤ 2 ^ t.hws.toNat

/-- 42_frequency_table.md R127 (b): the counts of a successful build add up to
`ceil_div(8 * len, ws)`. -/
def Obligations.BuildCountsAddUp : Prop :=
  ∀ s t : State, exec .ftBuild s = .next t → t.status = 0 →
    ∃ T : Table, t.table = some T ∧
      totalCount T.slots = ceilDiv (8 * s.len.toNat) s.size.toNat

/-- 42_frequency_table.md R125: on a well-formed table `choose` takes the completion counted more often,
the low one on a tie; an absent one counts 0. -/
def Obligations.PartialWordChoice : Prop :=
  ∀ (t : Table) (low high : U64), t.WF →
    choose t low high = if countOf t.slots low < countOf t.slots high then high else low
end

