-- ==== Sys2Proof/Laws/Sparse.lean ====
section
/-!
SUPPORT. Sparse lists: reading after setting, and that setting keeps the canonical form.
-/

namespace Sys2Proof.Machine

variable {α : Type}

@[simp] theorem Sparse.find_nil (k : Nat) : Sparse.find ([] : List (Nat × α)) k = none := rfl

theorem Sparse.find_put (l : List (Nat × α)) (k : Nat) (v : α) (j : Nat) :
    Sparse.find (Sparse.put k v l) j = if k = j then some v else Sparse.find l j := by
  induction l with
  | nil => simp [Sparse.put, Sparse.find]
  | cons e rest ih =>
    obtain ⟨i, w⟩ := e
    simp only [Sparse.put]
    split
    · simp [Sparse.find]
    · split
      · subst_vars
        simp only [Sparse.find]
        split <;> rfl
      · simp only [Sparse.find, ih]
        split
        · subst_vars; simp_all
        · rfl

@[simp] theorem Sparse.find_put_self (l : List (Nat × α)) (k : Nat) (v : α) :
    Sparse.find (Sparse.put k v l) k = some v := by simp [Sparse.find_put]

theorem Sparse.find_put_ne (l : List (Nat × α)) {k j : Nat} (v : α) (h : k ≠ j) :
    Sparse.find (Sparse.put k v l) j = Sparse.find l j := by simp [Sparse.find_put, h]

/-- Rising keys, one entry at a time. -/
theorem Sparse.risingFrom_cons {hi lo j : Nat} {v : α} {rest : List (Nat × α)} :
    Sparse.risingFrom hi lo ((j, v) :: rest) = true ↔
      lo ≤ j ∧ j < hi ∧ Sparse.risingFrom hi (j + 1) rest = true := by
  simp [Sparse.risingFrom, and_assoc]

theorem Sparse.risingFrom_mono {hi lo lo' : Nat} (h : lo' ≤ lo) {l : List (Nat × α)}
    (hl : Sparse.risingFrom hi lo l = true) : Sparse.risingFrom hi lo' l = true := by
  cases l with
  | nil => rfl
  | cons e rest =>
    obtain ⟨j, w⟩ := e
    rw [Sparse.risingFrom_cons] at hl ⊢
    exact ⟨by omega, hl.2⟩

/-- Setting a key in range keeps the keys rising. -/
theorem Sparse.risingFrom_put {hi : Nat} {k : Nat} (v : α) (hk : k < hi) :
    ∀ {lo : Nat} {l : List (Nat × α)}, lo ≤ k → Sparse.risingFrom hi lo l = true →
      Sparse.risingFrom hi lo (Sparse.put k v l) = true
  | lo, [], hlo, _ => by simp [Sparse.put, Sparse.risingFrom, hlo, hk]
  | lo, (j, w) :: rest, hlo, hl => by
    rw [Sparse.risingFrom_cons] at hl
    obtain ⟨h1, h2, h3⟩ := hl
    simp only [Sparse.put]
    split
    · simp only [Sparse.risingFrom_cons]
      exact ⟨hlo, hk, by omega, h2, h3⟩
    · split
      · subst_vars
        rw [Sparse.risingFrom_cons]
        exact ⟨h1, h2, h3⟩
      · rw [Sparse.risingFrom_cons]
        exact ⟨h1, h2, Sparse.risingFrom_put v hk (by omega) h3⟩

/-- Setting a key in range keeps the canonical form. -/
theorem Sparse.wf_put {hi k : Nat} (v : α) (hk : k < hi) {l : List (Nat × α)}
    (h : Sparse.wf hi l = true) : Sparse.wf hi (Sparse.put k v l) = true :=
  Sparse.risingFrom_put v hk (Nat.zero_le _) h

/-- Every key of a rising list is in its range. -/
theorem Sparse.mem_range {hi : Nat} : ∀ {lo : Nat} {l : List (Nat × α)},
    Sparse.risingFrom hi lo l = true → ∀ e ∈ l, lo ≤ e.1 ∧ e.1 < hi
  | _, [], _, e, he => by cases he
  | lo, (j, w) :: rest, hl, e, he => by
    rw [Sparse.risingFrom_cons] at hl
    obtain ⟨h1, h2, h3⟩ := hl
    rcases List.mem_cons.1 he with rfl | he
    · exact ⟨h1, h2⟩
    · have := Sparse.mem_range h3 e he
      omega

/-- In a rising list, an entry is listed exactly when it is found at its key. -/
theorem Sparse.find_eq_some_iff {hi : Nat} {k : Nat} {v : α} : ∀ {lo : Nat} {l : List (Nat × α)},
    Sparse.risingFrom hi lo l = true → (Sparse.find l k = some v ↔ (k, v) ∈ l)
  | _, [], _ => by simp
  | lo, (j, w) :: rest, hl => by
    rw [Sparse.risingFrom_cons] at hl
    have ih := Sparse.find_eq_some_iff (k := k) (v := v) hl.2.2
    simp only [Sparse.find, List.mem_cons, Prod.mk.injEq]
    split
    · subst_vars
      constructor
      · rintro h; simp_all
      · rintro (h | h)
        · simp [h.2]
        · have := (Sparse.mem_range hl.2.2 _ h).1
          simp only at this
          omega
    · rw [ih]
      constructor
      · exact Or.inr
      · rintro (h | h)
        · omega
        · exact h

/-- Of a rising list nothing below its range is found. -/
theorem Sparse.find_below {hi lo k : Nat} {l : List (Nat × α)}
    (hl : Sparse.risingFrom hi lo l = true) (hk : k < lo) : Sparse.find l k = none := by
  cases h : Sparse.find l k with
  | none => rfl
  | some v =>
    have := (Sparse.mem_range hl _ ((Sparse.find_eq_some_iff hl).1 h)).1
    simp only at this
    omega

/-- The entries after setting a key. -/
theorem Sparse.mem_put {hi : Nat} {k : Nat} {v : α} (hk : k < hi) {l : List (Nat × α)}
    (hl : Sparse.wf hi l = true) (e : Nat × α) :
    e ∈ Sparse.put k v l ↔ e = (k, v) ∨ (e ∈ l ∧ e.1 ≠ k) := by
  obtain ⟨i, w⟩ := e
  rw [← Sparse.find_eq_some_iff (Sparse.risingFrom_put v hk (Nat.zero_le _) hl),
    ← Sparse.find_eq_some_iff hl, Sparse.find_put]
  simp only [Prod.mk.injEq]
  constructor
  · split
    · intro h; simp_all
    · intro h; exact .inr ⟨h, fun hh => by simp_all⟩
  · rintro (⟨rfl, rfl⟩ | ⟨h, hne⟩)
    · simp
    · rw [if_neg (fun hh => hne hh.symm)]; exact h

/-- Setting a new key adds one entry. -/
theorem Sparse.length_put_new {k : Nat} (v : α) : ∀ {l : List (Nat × α)},
    Sparse.find l k = none → (Sparse.put k v l).length = l.length + 1
  | [], _ => rfl
  | (j, w) :: rest, h => by
    simp only [Sparse.find] at h
    split at h
    · cases h
    · have ih := Sparse.length_put_new v h
      simp only [Sparse.put]
      split
      · rfl
      · rw [if_neg (fun hh => by simp_all)]
        simp [ih]

/-- Setting a key that is listed replaces its entry. -/
theorem Sparse.length_put_old {hi k : Nat} (v u : α) : ∀ {lo : Nat} {l : List (Nat × α)},
    Sparse.risingFrom hi lo l = true → Sparse.find l k = some u →
    (Sparse.put k v l).length = l.length
  | _, [], _, h => by cases h
  | lo, (j, w) :: rest, hl, h => by
    rw [Sparse.risingFrom_cons] at hl
    simp only [Sparse.put]
    split
    · have h2 : Sparse.risingFrom hi j ((j, w) :: rest) = true := by
        rw [Sparse.risingFrom_cons]; exact ⟨Nat.le_refl _, hl.2⟩
      rw [Sparse.find_below h2 (by omega)] at h
      cases h
    · split
      · rfl
      · simp only [Sparse.find] at h
        rw [if_neg (fun hh => by simp_all)] at h
        simp [Sparse.length_put_old v u hl.2.2 h]

end Sys2Proof.Machine
end

