-- ==== Sys2Proof/Laws/Memory.lean ====
section
/-!
SUPPORT. Byte memory and the bit stream: a read after a write, the canonical form, bytes and fields
as numbers (20_memory.md R32).
-/

namespace Sys2Proof.Machine

/-! ### Single bytes -/

theorem Memory.readByte_write (m : Memory) (a v b : Nat) :
    (m.write a v).readByte b = if a = b then BitVec.ofNat 8 v else m.readByte b := by
  simp only [Memory.readByte, Memory.write, Sparse.find_put]
  by_cases h : a = b <;> simp [h]

theorem Memory.read_write (m : Memory) (a v b : Nat) :
    (m.write a v).read b = if a = b then v % 256 else m.read b := by
  simp only [Memory.read, Memory.readByte_write]
  split <;> simp

theorem Memory.read_lt (m : Memory) (a : Nat) : m.read a < 256 := (m.readByte a).isLt

theorem Memory.wf_write {m : Memory} {a : Nat} (v : Nat) (ha : a < 2 ^ 64) (h : m.wf = true) :
    (m.write a v).wf = true := Sparse.wf_put _ ha h

/-! ### Runs of bytes -/

theorem Memory.wf_storeBytes {m : Memory} (ptr : Nat) : ∀ (n acc : Nat), ptr + n ≤ 2 ^ 64 →
    m.wf = true → (m.storeBytes ptr acc n).wf = true
  | 0, _, _, h => h
  | n + 1, acc, hn, h =>
    Memory.wf_write _ (by omega) (Memory.wf_storeBytes ptr n (acc / 256) (by omega) h)

theorem Memory.wf_hostStore : ∀ (bytes : List U8) {m : Memory} (addr : Nat),
    addr + bytes.length ≤ 2 ^ 64 → m.wf = true → (m.hostStore addr bytes).wf = true
  | [], _, _, _, h => h
  | b :: rest, m, addr, hn, h => by
    simp only [List.length_cons] at hn
    exact Memory.wf_hostStore rest (addr + 1) (by omega) (Memory.wf_write _ (by omega) h)

/-- A byte after a host `MEM` line. -/
theorem Memory.readByte_hostStore : ∀ (bytes : List U8) (m : Memory) (addr a : Nat),
    (m.hostStore addr bytes).readByte a =
      if addr ≤ a then (bytes[a - addr]?).getD (m.readByte a) else m.readByte a
  | [], m, addr, a => by simp [Memory.hostStore]
  | b :: rest, m, addr, a => by
    simp only [Memory.hostStore]
    rw [Memory.readByte_hostStore rest, Memory.readByte_write]
    rcases Nat.lt_trichotomy addr a with h | h | h
    · obtain ⟨d, rfl⟩ : ∃ d, a = addr + 1 + d := ⟨a - addr - 1, by omega⟩
      rw [if_pos (show addr + 1 ≤ addr + 1 + d by omega), if_pos (show addr ≤ addr + 1 + d by omega),
        if_neg (show ¬ addr = addr + 1 + d by omega)]
      have h1 : addr + 1 + d - (addr + 1) = d := by omega
      have h2 : addr + 1 + d - addr = d + 1 := by omega
      rw [h1, h2, List.getElem?_cons_succ]
    · subst h
      rw [if_neg (show ¬ addr + 1 ≤ addr by omega), if_pos rfl]
      simp
    · rw [if_neg (show ¬ addr + 1 ≤ a by omega), if_neg (show ¬ addr ≤ a by omega),
        if_neg (show ¬ addr = a by omega)]

/-- Outside the bytes stored, memory reads as before. -/
theorem Memory.readByte_storeBytes_outside (m : Memory) (ptr a : Nat) : ∀ (n acc : Nat),
    ¬ InFootprint ptr n a → (m.storeBytes ptr acc n).readByte a = m.readByte a
  | 0, _, _ => rfl
  | n + 1, acc, h => by
    simp only [Memory.storeBytes, Memory.readByte_write]
    rw [if_neg (by intro hh; apply h; constructor <;> omega)]
    exact Memory.readByte_storeBytes_outside m ptr a n _
      (fun hh => h ⟨hh.1, by have := hh.2; omega⟩)

theorem Memory.read_storeBytes_outside (m : Memory) {ptr a n : Nat} (acc : Nat)
    (h : ¬ InFootprint ptr n a) : (m.storeBytes ptr acc n).read a = m.read a := by
  simp only [Memory.read, Memory.readByte_storeBytes_outside m ptr a n acc h]

/-- What is loaded depends only on the bytes loaded. -/
theorem Memory.loadBytes_congr {m m' : Memory} {ptr : Nat} : ∀ {n : Nat},
    (∀ a, InFootprint ptr n a → m'.read a = m.read a) → m'.loadBytes ptr n = m.loadBytes ptr n
  | 0, _ => rfl
  | n + 1, h => by
    simp only [Memory.loadBytes]
    rw [Memory.loadBytes_congr (fun a ha => h a ⟨ha.1, by have := ha.2; omega⟩),
      h (ptr + n) ⟨by omega, by omega⟩]

/-- Bytes stored as a number are loaded as that number. -/
theorem Memory.loadBytes_storeBytes (m : Memory) (ptr : Nat) : ∀ (n acc : Nat), acc < 256 ^ n →
    (m.storeBytes ptr acc n).loadBytes ptr n = acc
  | 0, acc, h => by simp only [Memory.loadBytes]; omega
  | n + 1, acc, h => by
    have ih := Memory.loadBytes_storeBytes m ptr n (acc / 256)
      (by rw [Nat.pow_succ] at h; omega)
    simp only [Memory.loadBytes, Memory.storeBytes]
    rw [Memory.loadBytes_congr (m := m.storeBytes ptr (acc / 256) n), ih, Memory.read_write,
      if_pos rfl]
    · omega
    · intro a ha
      rw [Memory.read_write, if_neg (by have := ha.2; omega)]

/-! ### Stream bits and fields -/

theorem Memory.streamBit_le_one (m : Memory) (P : Nat) : m.streamBit P ≤ 1 := by
  simp only [Memory.streamBit, Nat.and_one_is_mod]; omega

theorem Memory.streamBit_congr {m m' : Memory} {P : Nat} (h : m'.read (P / 8) = m.read (P / 8)) :
    m'.streamBit P = m.streamBit P := by simp only [Memory.streamBit, h]

theorem Memory.fieldAt_congr {m m' : Memory} {P : Nat} : ∀ {n : Nat},
    (∀ k, k < n → m'.streamBit (P + k) = m.streamBit (P + k)) → m'.fieldAt P n = m.fieldAt P n
  | 0, _ => rfl
  | n + 1, h => by
    simp only [Memory.fieldAt]
    rw [Memory.fieldAt_congr (fun k hk => h k (by omega)), h n (by omega)]

theorem Memory.fieldAt_lt (m : Memory) (P : Nat) : ∀ n, m.fieldAt P n < 2 ^ n
  | 0 => by simp [Memory.fieldAt]
  | n + 1 => by
    have h1 := Memory.fieldAt_lt m P n
    have h2 := m.streamBit_le_one (P + n)
    simp only [Memory.fieldAt, Nat.pow_succ]
    omega

/-- Splitting a field (R32, last sentence): high part first. -/
theorem Memory.fieldAt_add (m : Memory) (P a : Nat) : ∀ b,
    m.fieldAt P (a + b) = m.fieldAt P a * 2 ^ b + m.fieldAt (P + a) b
  | 0 => by simp [Memory.fieldAt]
  | b + 1 => by
    rw [← Nat.add_assoc]
    simp only [Memory.fieldAt]
    rw [Memory.fieldAt_add m P a b, Nat.pow_succ, Nat.add_assoc P a b]
    ring

/-- Two fields of one length are equal only if all their stream bits are. -/
theorem Memory.streamBit_of_fieldAt_eq {m m' : Memory} {P P' : Nat} : ∀ {n : Nat},
    m'.fieldAt P' n = m.fieldAt P n → ∀ k, k < n → m'.streamBit (P' + k) = m.streamBit (P + k)
  | n + 1, h, k, hk => by
    simp only [Memory.fieldAt] at h
    have h1 := m.streamBit_le_one (P + n)
    have h2 := m'.streamBit_le_one (P' + n)
    rcases Nat.lt_succ_iff_lt_or_eq.1 hk with hk | rfl
    · exact Memory.streamBit_of_fieldAt_eq (by omega) k hk
    · omega

/-- A stream bit of a field, read off the field's value. -/
theorem Memory.streamBit_eq_testBit (m : Memory) (P : Nat) : ∀ (n k : Nat), k < n →
    m.streamBit (P + k) = (m.fieldAt P n >>> (n - 1 - k)) % 2
  | n + 1, k, hk => by
    have h1 := m.streamBit_le_one (P + n)
    rcases Nat.lt_succ_iff_lt_or_eq.1 hk with hk | rfl
    · rw [Memory.streamBit_eq_testBit m P n k hk]
      have e : n + 1 - 1 - k = (n - 1 - k) + 1 := by omega
      rw [e, Nat.shiftRight_eq_div_pow, Nat.shiftRight_eq_div_pow, Nat.pow_succ', ← Nat.div_div_eq_div_mul]
      congr 2
      simp only [Memory.fieldAt]
      omega
    · simp only [Memory.fieldAt, Nat.add_sub_cancel, Nat.sub_self, Nat.shiftRight_zero]
      omega

/-- One byte is the field of its eight stream bits. -/
theorem Memory.fieldAt_byte (m : Memory) (a : Nat) : m.fieldAt (8 * a) 8 = m.read a := by
  have hb := m.read_lt a
  have hbit : ∀ k, k < 8 → m.streamBit (8 * a + k) = (m.read a >>> (7 - k)) &&& 1 := by
    intro k hk
    simp only [Memory.streamBit]
    rw [show (8 * a + k) / 8 = a by omega, show (8 * a + k) % 8 = k by omega]
  simp only [Memory.fieldAt]
  rw [hbit 1 (by omega), hbit 2 (by omega), hbit 3 (by omega), hbit 4 (by omega),
    hbit 5 (by omega), hbit 6 (by omega), hbit 7 (by omega), hbit 0 (by omega)]
  generalize m.read a = b at hb
  simp only [Nat.and_one_is_mod, Nat.shiftRight_eq_div_pow]
  omega

/-- Bytes as one number are the field of all their stream bits. -/
theorem Memory.loadBytes_eq_fieldAt (m : Memory) (ptr : Nat) : ∀ n,
    m.loadBytes ptr n = m.fieldAt (8 * ptr) (8 * n)
  | 0 => rfl
  | n + 1 => by
    rw [show 8 * (n + 1) = 8 * n + 8 by ring, Memory.fieldAt_add]
    simp only [Memory.loadBytes]
    rw [Memory.loadBytes_eq_fieldAt m ptr n, show 8 * ptr + 8 * n = 8 * (ptr + n) by ring,
      Memory.fieldAt_byte]
    norm_num

/-- A field depends only on the bytes of its footprint. -/
theorem Memory.fieldAt_congr_bytes {m m' : Memory} {ptr n : Nat}
    (h : ∀ a, InFootprint ptr n a → m'.read a = m.read a) {P size : Nat} (hP : 8 * ptr ≤ P)
    (hs : P + size ≤ 8 * (ptr + n)) : m'.fieldAt P size = m.fieldAt P size :=
  Memory.fieldAt_congr fun k _ => Memory.streamBit_congr (h _ (by constructor <;> omega))

end Sys2Proof.Machine
end

