-- ==== Sys2Proof/Laws/BitCursor.lean ====
section
/-!
SUPPORT. `read_bits` and `write_bits` (40_bitcursor.md R61, R66): when they succeed, and everything
they then do.
-/

namespace Sys2Proof.Machine

/-! ### Arithmetic of fields -/

theorem lowBits_eq_mod (n v : Nat) : lowBits n v = v % 2 ^ n := Nat.and_two_pow_sub_one_eq_mod v n

/-- A number is split in one way at a place. -/
theorem mul_add_inj {a b g h n : Nat} (hg : g < n) (hh : h < n) (e : a * n + g = b * n + h) :
    a = b ∧ g = h := by
  have h1 : (a * n + g) / n = a := by
    rw [Nat.add_comm, Nat.add_mul_div_right _ _ (by omega), Nat.div_eq_of_lt hg, Nat.zero_add]
  have h2 : (b * n + h) / n = b := by
    rw [Nat.add_comm, Nat.add_mul_div_right _ _ (by omega), Nat.div_eq_of_lt hh, Nat.zero_add]
  have : a = b := by rw [← h1, ← h2, e]
  subst this
  exact ⟨rfl, by omega⟩

theorem footprint_eq (off size : Nat) : footprint off size = (off + size + 7) / 8 := rfl

/-- The footprint is the least number of bytes that hold the field. -/
theorem footprint_bounds (off size : Nat) :
    off + size ≤ 8 * footprint off size ∧ 8 * footprint off size ≤ off + size + 7 := by
  rw [footprint_eq]; omega

/-- The handier form of `mergeField`: what is above the field, the field, what is below it. -/
theorem mergeField_eq {above size shift acc v : Nat} (hacc : acc < 2 ^ (above + size + shift))
    (hv : v < 2 ^ size) :
    mergeField (above + size + shift) size shift acc v =
      (acc / 2 ^ (size + shift) * 2 ^ size + v) * 2 ^ shift + acc % 2 ^ shift := by
  have hlow : acc % 2 ^ shift < 2 ^ shift := Nat.mod_lt _ (Nat.two_pow_pos _)
  apply Nat.eq_of_testBit_eq
  intro j
  rw [mergeField, Nat.mul_comm _ (2 ^ shift), Nat.mul_comm _ (2 ^ size),
    Nat.testBit_two_pow_mul_add _ hlow, Nat.testBit_two_pow_mul_add _ hv]
  simp only [Nat.testBit_or, Nat.testBit_and, Nat.testBit_xor, Nat.testBit_shiftLeft,
    Nat.testBit_two_pow_sub_one, Nat.testBit_mod_two_pow, Nat.testBit_div_two_pow]
  by_cases h1 : j < shift
  · simp [h1, show ¬ shift ≤ j by omega, show j < above + size + shift by omega]
  · have h1' : shift ≤ j := by omega
    by_cases h2 : j - shift < size
    · simp [h1, h1', h2, show j < above + size + shift by omega]
    · have hvj : v.testBit (j - shift) = false :=
        Nat.testBit_lt_two_pow (Nat.lt_of_lt_of_le hv (Nat.pow_le_pow_right (by omega) (by omega)))
      simp only [h1, h1', h2, if_false, decide_true, decide_false, hvj, Bool.or_false,
        Bool.and_false]
      rw [show j - shift - size + (size + shift) = j by omega]
      by_cases h3 : j < above + size + shift
      · simp [h3]
      · have : acc.testBit j = false :=
          Nat.testBit_lt_two_pow (Nat.lt_of_lt_of_le hacc (Nat.pow_le_pow_right (by omega) (by omega)))
        simp [this]

/-! ### When a field operation succeeds -/

theorem Cursor.fieldError_eq_none_iff (c : Cursor) (size : Nat) :
    c.fieldError size = none ↔ c.Fits size := by
  unfold Cursor.fieldError Cursor.Fits
  repeat' split
  all_goals simp_all
  all_goals omega

/-- What kinds of error the checks of a field operation can report. -/
theorem Cursor.fieldError_kinds {c : Cursor} {size : Nat} {e : ErrKind}
    (h : c.fieldError size = some e) :
    e = .nullPointer ∨ e = .invalidValue ∨ e = .insufficientSpace := by
  unfold Cursor.fieldError at h
  repeat' split at h
  all_goals simp_all

/-- The handier form of the value read: the field of R32. -/
theorem fieldValue_eq_fieldAt (m : Memory) (ptr off size : Nat) :
    fieldValue m ptr off size = m.fieldAt (8 * ptr + off) size := by
  obtain ⟨h1, _⟩ := footprint_bounds off size
  obtain ⟨shift, hs⟩ : ∃ shift, 8 * footprint off size = off + (size + shift) :=
    ⟨8 * footprint off size - off - size, by omega⟩
  have hshift : 8 * footprint off size - off - size = shift := by omega
  simp only [fieldValue, lowBits_eq_mod, Memory.loadBytes_eq_fieldAt]
  rw [hshift, hs]
  rw [Memory.fieldAt_add, Memory.fieldAt_add, Nat.shiftRight_eq_div_pow, Nat.pow_add]
  have h2 := m.fieldAt_lt (8 * ptr + off + size) shift
  have h3 := m.fieldAt_lt (8 * ptr + off) size
  generalize m.fieldAt (8 * ptr + off + size) shift = G at *
  generalize m.fieldAt (8 * ptr + off) size = F at *
  generalize m.fieldAt (8 * ptr) off = A at *
  rw [show A * (2 ^ size * 2 ^ shift) + (F * 2 ^ shift + G) = G + 2 ^ shift * (A * 2 ^ size + F) by ring,
    Nat.add_mul_div_left _ _ (Nat.two_pow_pos _), Nat.div_eq_of_lt h2, Nat.zero_add,
    Nat.add_comm, Nat.add_mul_mod_self_right, Nat.mod_eq_of_lt h3]

/-- Everything `read_bits` does. -/
theorem readBits_of_fits (m : Memory) {c : Cursor} {size : Nat} (h : c.Fits size) :
    readBits m c size = .ok (m.fieldAt (8 * c.ptr + c.off) size, c.advance size) := by
  simp only [readBits, (c.fieldError_eq_none_iff size).2 h, fieldValue_eq_fieldAt]

theorem readBits_eq_ok_iff (m : Memory) (c : Cursor) (size v : Nat) (c' : Cursor) :
    readBits m c size = .ok (v, c') ↔
      c.Fits size ∧ v = m.fieldAt (8 * c.ptr + c.off) size ∧ c' = c.advance size := by
  constructor
  · intro h
    have hf : c.Fits size := by
      rw [← c.fieldError_eq_none_iff]
      unfold readBits at h
      split at h
      · cases h
      · assumption
    rw [readBits_of_fits m hf] at h
    cases h
    exact ⟨hf, rfl, rfl⟩
  · rintro ⟨hf, rfl, rfl⟩
    exact readBits_of_fits m hf

/-! ### The bytes `write_bits` stores -/

theorem oldBytes_lt (m : Memory) (ptr off size n : Nat) : ∀ k, oldBytes m ptr off size n k < 256 ^ k
  | 0 => by simp [oldBytes]
  | k + 1 => by
    have h1 := oldBytes_lt m ptr off size n k
    have h2 := m.read_lt (ptr + k)
    simp only [oldBytes, Nat.pow_succ]
    split <;> omega

/-- The first byte of the old content. -/
theorem oldBytes_first (m : Memory) (ptr off size n : Nat) : ∀ k,
    oldBytes m ptr off size n (k + 1) / 256 ^ k =
      if partlyCovered off size n 0 then m.read ptr else 0
  | 0 => by simp [oldBytes]
  | k + 1 => by
    have ih := oldBytes_first m ptr off size n k
    have h2 := m.read_lt (ptr + (k + 1))
    have h3 : oldBytes m ptr off size n (k + 1 + 1) / 256 = oldBytes m ptr off size n (k + 1) := by
      rw [oldBytes]
      split <;> omega
    rw [Nat.pow_succ', ← Nat.div_div_eq_div_mul, h3, ih]

/-- What stays above the field: the stream bits before it. -/
theorem oldBytes_above (m : Memory) {ptr off size : Nat} (hoff : off < 8) (hs : 1 ≤ size) :
    oldBytes m ptr off size (footprint off size) (footprint off size) /
        2 ^ (8 * footprint off size - off) = m.fieldAt (8 * ptr) off := by
  obtain ⟨h1, h2⟩ := footprint_bounds off size
  obtain ⟨k, hk⟩ : ∃ k, footprint off size = k + 1 := ⟨footprint off size - 1, by omega⟩
  have hfirst := oldBytes_first m ptr off size (k + 1) k
  have hpow : (2 : Nat) ^ (8 * (k + 1) - off) = 256 ^ k * 2 ^ (8 - off) := by
    rw [show (256 : Nat) = 2 ^ 8 by norm_num, ← Nat.pow_mul, ← Nat.pow_add]
    congr 1; omega
  rw [hk, hpow, ← Nat.div_div_eq_div_mul, hfirst]
  by_cases h0 : off = 0
  · subst h0
    simp only [Memory.fieldAt]
    apply Nat.div_eq_of_lt
    have := m.read_lt ptr
    split <;> omega
  · have hp : partlyCovered off size (k + 1) 0 = true := by simp [partlyCovered, h0]
    obtain ⟨r, hr⟩ : ∃ r, 8 = off + r := ⟨8 - off, by omega⟩
    have hbyte : m.fieldAt (8 * ptr) (off + r) = m.read ptr := by
      rw [← hr]; exact m.fieldAt_byte ptr
    rw [hp, if_pos rfl, ← hbyte, show 8 - off = r by omega, Memory.fieldAt_add]
    have := m.fieldAt_lt (8 * ptr + off) r
    rw [Nat.add_comm, Nat.add_mul_div_right _ _ (Nat.two_pow_pos _), Nat.div_eq_of_lt this,
      Nat.zero_add]

/-- What stays below the field: the stream bits after it. -/
theorem oldBytes_below (m : Memory) {ptr off size : Nat} (hs : 1 ≤ size) :
    oldBytes m ptr off size (footprint off size) (footprint off size) %
        2 ^ (8 * footprint off size - off - size) =
      m.fieldAt (8 * ptr + off + size) (8 * footprint off size - off - size) := by
  obtain ⟨h1, h2⟩ := footprint_bounds off size
  obtain ⟨k, hk⟩ : ∃ k, footprint off size = k + 1 := ⟨footprint off size - 1, by omega⟩
  obtain ⟨shift, hshift⟩ : ∃ shift, shift = 8 * footprint off size - off - size := ⟨_, rfl⟩
  rw [← hshift]
  by_cases h0 : shift = 0
  · rw [h0]
    simp [Memory.fieldAt, Nat.mod_one]
  · have hp : partlyCovered off size (k + 1) k = true := by
      simp only [partlyCovered]
      rw [← hk, ← hshift]
      simp [h0]
    have hdvd : (2 : Nat) ^ shift ∣ 256 := by
      rw [show (256 : Nat) = 2 ^ 8 by norm_num]; exact Nat.pow_dvd_pow 2 (by omega)
    rw [hk, oldBytes, hp, if_pos rfl, Nat.add_mod,
      Nat.mod_eq_zero_of_dvd (Dvd.dvd.mul_left hdvd _), Nat.zero_add, Nat.mod_mod,
      ← Memory.fieldAt_byte]
    obtain ⟨r, hr⟩ : ∃ r, 8 = r + shift := ⟨8 - shift, by omega⟩
    have hpos : 8 * (ptr + k) + r = 8 * ptr + off + size := by omega
    rw [show m.fieldAt (8 * (ptr + k)) 8 = m.fieldAt (8 * (ptr + k)) (r + shift) by rw [← hr],
      Memory.fieldAt_add, hpos, Nat.add_comm, Nat.add_mul_mod_self_right,
      Nat.mod_eq_of_lt (m.fieldAt_lt _ _)]

/-- The bytes stored, as what is kept before the field, the field, and what is kept after it. -/
theorem fieldWritten_eq (m : Memory) {ptr off size : Nat} (value : Nat) (hoff : off < 8)
    (hs : 1 ≤ size) :
    fieldWritten m ptr off value size =
      (m.fieldAt (8 * ptr) off * 2 ^ size + value % 2 ^ size) *
          2 ^ (8 * footprint off size - off - size) +
        m.fieldAt (8 * ptr + off + size) (8 * footprint off size - off - size) := by
  obtain ⟨h1, h2⟩ := footprint_bounds off size
  have hold := oldBytes_lt m ptr off size (footprint off size) (footprint off size)
  rw [show (256 : Nat) = 2 ^ 8 by norm_num, ← Nat.pow_mul] at hold
  have habove := oldBytes_above m (ptr := ptr) hoff hs
  have hbelow := oldBytes_below m (ptr := ptr) (off := off) hs
  obtain ⟨shift, hshift⟩ : ∃ shift, shift = 8 * footprint off size - off - size := ⟨_, rfl⟩
  have hw : 8 * footprint off size = off + size + shift := by omega
  have hd : 8 * footprint off size - off = size + shift := by omega
  rw [← hshift] at hbelow ⊢
  rw [hd] at habove
  simp only [fieldWritten, lowBits_eq_mod, ← hshift]
  rw [hw] at hold ⊢
  rw [mergeField_eq hold (Nat.mod_lt _ (Nat.two_pow_pos _)), habove, hbelow]

theorem fieldWritten_lt (m : Memory) {ptr off size : Nat} (value : Nat) (hoff : off < 8)
    (hs : 1 ≤ size) : fieldWritten m ptr off value size < 256 ^ footprint off size := by
  obtain ⟨h1, h2⟩ := footprint_bounds off size
  rw [fieldWritten_eq m value hoff hs, show (256 : Nat) = 2 ^ 8 by norm_num, ← Nat.pow_mul,
    show 8 * footprint off size = off + size + (8 * footprint off size - off - size) by omega,
    Nat.pow_add, Nat.pow_add]
  generalize 8 * footprint off size - off - size = shift
  rw [show off + size + shift - off - size = shift by omega]
  have hA := m.fieldAt_lt (8 * ptr) off
  have hG := m.fieldAt_lt (8 * ptr + off + size) shift
  have hv : value % 2 ^ size < 2 ^ size := Nat.mod_lt _ (Nat.two_pow_pos _)
  generalize m.fieldAt (8 * ptr + off + size) shift = G at *
  generalize m.fieldAt (8 * ptr) off = A at *
  generalize value % 2 ^ size = v at *
  have h3 : A * 2 ^ size + v < 2 ^ off * 2 ^ size := by nlinarith
  nlinarith

/-! ### Everything `write_bits` does -/

theorem writeBits_of_fits (m : Memory) {c : Cursor} {size : Nat} (value : Nat) (h : c.Fits size) :
    ∃ m', writeBits m c value size = .ok (m', c.advance size) ∧
      WroteField m m' (8 * c.ptr + c.off) size value ∧
      (∀ a, ¬ InFootprint c.ptr (footprint c.off size) a → m'.readByte a = m.readByte a) ∧
      (m.wf = true → m'.wf = true) := by
  have hnone := (c.fieldError_eq_none_iff size).2 h
  obtain ⟨ptr, off, cap⟩ := c
  obtain ⟨hptr, hoff, hs1, hs2, htop, hcap⟩ := h
  simp only at *
  obtain ⟨h1, h2⟩ := footprint_bounds off size
  refine ⟨m.storeBytes ptr (fieldWritten m ptr off value size) (footprint off size),
    by simp only [writeBits, hnone], ?_,
    fun a ha => Memory.readByte_storeBytes_outside m ptr a _ _ ha,
    fun hm => Memory.wf_storeBytes ptr _ _ (by omega) hm⟩
  set m' := m.storeBytes ptr (fieldWritten m ptr off value size) (footprint off size) with hm'
  have hload : m'.fieldAt (8 * ptr) (8 * footprint off size) = fieldWritten m ptr off value size := by
    rw [← Memory.loadBytes_eq_fieldAt, hm',
      Memory.loadBytes_storeBytes m ptr _ _ (fieldWritten_lt m value hoff hs1)]
  rw [fieldWritten_eq m value hoff hs1] at hload
  obtain ⟨shift, hshift⟩ : ∃ shift, shift = 8 * footprint off size - off - size := ⟨_, rfl⟩
  rw [← hshift, show 8 * footprint off size = off + size + shift by omega, Memory.fieldAt_add,
    Memory.fieldAt_add, ← Nat.add_assoc] at hload
  have e1 := m'.fieldAt_lt (8 * ptr + off + size) shift
  have e2 := m.fieldAt_lt (8 * ptr + off + size) shift
  have e3 := m'.fieldAt_lt (8 * ptr + off) size
  have e4 : value % 2 ^ size < 2 ^ size := Nat.mod_lt _ (Nat.two_pow_pos _)
  obtain ⟨g1, g2⟩ := mul_add_inj e1 e2 hload
  obtain ⟨g3, g4⟩ := mul_add_inj e3 e4 g1
  refine ⟨g4, fun Q hQ => ?_⟩
  by_cases hin : InFootprint ptr (footprint off size) (Q / 8)
  · obtain ⟨i1, i2⟩ := hin
    rcases hQ with hQ | hQ
    · obtain ⟨k, rfl⟩ : ∃ k, Q = 8 * ptr + k := ⟨Q - 8 * ptr, by omega⟩
      exact Memory.streamBit_of_fieldAt_eq g3 k (by omega)
    · obtain ⟨k, rfl⟩ : ∃ k, Q = 8 * ptr + off + size + k := ⟨Q - (8 * ptr + off + size), by omega⟩
      exact Memory.streamBit_of_fieldAt_eq g2 k (by omega)
  · exact Memory.streamBit_congr (Memory.read_storeBytes_outside m _ hin)

end Sys2Proof.Machine
end

