-- ==== Sys2Proof/Laws/FrequencyTable.lean ====
section
/-!
SUPPORT. The table operations (42_frequency_table.md): what a lookup answers, and what resize and
add_or_increment do to a table that satisfies 10_state.md R15.
-/

namespace Sys2Proof.Machine

/-! ### Slots -/

theorem slotAt_put (A : List (Nat × Slot)) (k : Nat) (sl : Slot) (j : Nat) :
    slotAt (Sparse.put k sl A) j = if k = j then sl else slotAt A j := by
  simp only [slotAt, Sparse.find_put]
  by_cases h : k = j <;> simp [h]

/-- In a canonical list of occupied slots, a slot is occupied exactly when it is listed. -/
theorem occupied_iff {A : List (Nat × Slot)} {size j : Nat} (hA : SlotsWF A size) :
    Occupied A j ↔ (j, slotAt A j) ∈ A := by
  obtain ⟨h1, h2, -⟩ := hA
  rw [← Sparse.find_eq_some_iff h1]
  simp only [Occupied, slotAt]
  cases h : Sparse.find A j with
  | none => simp [emptySlot]
  | some sl => simpa using h2 _ ((Sparse.find_eq_some_iff h1).1 h)

theorem slotAt_of_mem {A : List (Nat × Slot)} {size j : Nat} {sl : Slot} (hA : SlotsWF A size)
    (h : (j, sl) ∈ A) : slotAt A j = sl := by
  simp only [slotAt, (Sparse.find_eq_some_iff hA.1).2 h]

theorem find_none_of_empty {A : List (Nat × Slot)} {size j : Nat} (hA : SlotsWF A size)
    (h : ¬ Occupied A j) : Sparse.find A j = none := by
  cases hf : Sparse.find A j with
  | none => rfl
  | some sl =>
    have := hA.2.1 _ ((Sparse.find_eq_some_iff hA.1).1 hf)
    exact absurd (by simpa [Occupied, slotAt, hf] using this) h

/-! ### lookup_or_empty -/

theorem probe_eq_some_iff (A : List (Nat × Slot)) (size : Nat) (id : U64) (anm : Bool) (j : Nat) :
    ∀ (left k : Nat), probe A size id anm (hash id size) left k = some j ↔
      ∃ d, k ≤ d ∧ d < k + left ∧ ProbeStops A size id anm d ∧
        (∀ i, k ≤ i → i < d → ¬ ProbeStops A size id anm i) ∧ j = (hash id size + d) % size
  | 0, k => by
    simp only [probe]
    constructor
    · intro h; cases h
    · rintro ⟨d, h1, h2, -⟩; omega
  | left + 1, k => by
    have stop : ProbeStops A size id anm k →
        ((∃ d, k ≤ d ∧ d < k + (left + 1) ∧ ProbeStops A size id anm d ∧
          (∀ i, k ≤ i → i < d → ¬ ProbeStops A size id anm i) ∧ j = (hash id size + d) % size) ↔
        (hash id size + k) % size = j) := by
      intro hs
      constructor
      · rintro ⟨d, h1, h2, h3, h4, rfl⟩
        rcases Nat.lt_or_ge k d with h | h
        · exact absurd hs (h4 k (Nat.le_refl _) h)
        · rw [show d = k by omega]
      · rintro rfl
        exact ⟨k, Nat.le_refl _, by omega, hs, fun i _ _ => by omega, rfl⟩
    simp only [probe]
    split
    · rename_i h
      rw [stop (.inl h)]
      simp
    · split
      · rename_i h
        rw [stop (.inr h)]
        simp
      · rename_i h1 h2
        have hns : ¬ ProbeStops A size id anm k := by
          rintro (h | h)
          · exact h1 h
          · exact h2 h
        rw [probe_eq_some_iff A size id anm j left (k + 1)]
        constructor
        · rintro ⟨d, g1, g2, g3, g4, g5⟩
          refine ⟨d, by omega, by omega, g3, fun i hi hid => ?_, g5⟩
          rcases Nat.lt_or_ge k i with h | h
          · exact g4 i h hid
          · rw [show i = k by omega]; exact hns
        · rintro ⟨d, g1, g2, g3, g4, g5⟩
          rcases Nat.lt_or_ge k d with h | h
          · exact ⟨d, h, by omega, g3, fun i hi hid => g4 i (by omega) hid, g5⟩
          · rw [show d = k by omega] at g3
            exact absurd g3 hns

/-- What a successful lookup answers (R106). -/
theorem lookupOrEmpty_eq_ok_iff (A : List (Nat × Slot)) (size : Nat) (id : U64) (anm : Bool)
    (j : Nat) :
    lookupOrEmpty A size id anm = .ok j ↔
      ∃ k, ProbeFinds A size id anm k ∧ j = (hash id size + k) % size := by
  have h := probe_eq_some_iff A size id anm j (size - 1) 0
  have : lookupOrEmpty A size id anm = .ok j ↔
      probe A size id anm (hash id size) (size - 1) 0 = some j := by
    unfold lookupOrEmpty
    split <;> simp_all
  rw [this, h]
  constructor
  · rintro ⟨d, h1, h2, h3, h4, h5⟩
    exact ⟨d, ⟨by omega, h3, fun i hi => h4 i (Nat.zero_le _) hi⟩, h5⟩
  · rintro ⟨d, ⟨h1, h3, h4⟩, h5⟩
    exact ⟨d, Nat.zero_le _, by omega, h3, fun i _ hi => h4 i hi, h5⟩

/-- When a lookup fails (R106), and with which kind. -/
theorem lookupOrEmpty_eq_error_iff (A : List (Nat × Slot)) (size : Nat) (id : U64) (anm : Bool)
    (e : ErrKind) :
    lookupOrEmpty A size id anm = .error e ↔
      e = .insufficientSpace ∧ ∀ k, k < size - 1 → ¬ ProbeStops A size id anm k := by
  have hok := lookupOrEmpty_eq_ok_iff A size id anm
  constructor
  · intro h
    have he : e = .insufficientSpace := by
      unfold lookupOrEmpty at h
      split at h <;> simp_all
    refine ⟨he, fun k => ?_⟩
    induction k using Nat.strong_induction_on with
    | _ k ih =>
      intro hk hs
      have := (hok ((hash id size + k) % size)).2 ⟨k, ⟨hk, hs, fun i hi => ih i hi (by omega)⟩, rfl⟩
      rw [h] at this
      cases this
  · rintro ⟨rfl, h⟩
    cases hl : lookupOrEmpty A size id anm with
    | ok j =>
      obtain ⟨k, ⟨h1, h2, -⟩, -⟩ := (hok j).1 hl
      exact absurd h2 (h k h1)
    | error e =>
      unfold lookupOrEmpty at hl
      split at hl <;> simp_all

/-! ### Distances -/

theorem hash_lt {id : U64} {size : Nat} (h : 1 ≤ size) : hash id size < size :=
  Nat.mod_lt _ h

/-- The slot at distance `k` is at distance `k`. -/
theorem probeDistance_at {size k : Nat} (id : U64) (hk : k < size) :
    probeDistance size id ((hash id size + k) % size) = k := by
  have h1 := hash_lt (id := id) (size := size) (by omega)
  simp only [probeDistance]
  generalize hash id size = h at h1
  rcases Nat.lt_or_ge (h + k) size with h2 | h2
  · rw [Nat.mod_eq_of_lt h2, show h + k + size - h = k + size by omega, Nat.add_mod_right,
      Nat.mod_eq_of_lt hk]
  · have e : (h + k) % size = h + k - size := by
      rw [Nat.mod_eq_sub_mod h2, Nat.mod_eq_of_lt (by omega)]
    rw [e, show h + k - size + size - h = k by omega, Nat.mod_eq_of_lt hk]

/-- A slot of the table is at its distance. -/
theorem at_probeDistance {size j : Nat} (id : U64) (hj : j < size) :
    (hash id size + probeDistance size id j) % size = j := by
  have h1 := hash_lt (id := id) (size := size) (by omega)
  simp only [probeDistance]
  generalize hash id size = h at h1
  rcases Nat.lt_or_ge j h with h2 | h2
  · rw [Nat.mod_eq_of_lt (a := j + size - h) (by omega), show h + (j + size - h) = j + size by omega,
      Nat.add_mod_right, Nat.mod_eq_of_lt hj]
  · rw [show j + size - h = (j - h) + size by omega, Nat.add_mod_right,
      Nat.mod_eq_of_lt (a := j - h) (by omega), show h + (j - h) = j by omega, Nat.mod_eq_of_lt hj]

/-- Different distances are different slots. -/
theorem distance_inj {size a b h : Nat} (ha : a < size) (hb : b < size)
    (e : (h + a) % size = (h + b) % size) : a = b := by
  have := (Nat.ModEq.add_left_cancel' h e : a ≡ b [MOD size])
  rwa [Nat.ModEq, Nat.mod_eq_of_lt ha, Nat.mod_eq_of_lt hb] at this

/-- A run of occupied slots is no longer than the list of occupied slots. -/
theorem run_le_length {A : List (Nat × Slot)} {size n h : Nat} (hA : SlotsWF A size) (hn : n ≤ size)
    (hocc : ∀ k, k < n → Occupied A ((h + k) % size)) : n ≤ A.length := by
  have hsub : ((Finset.range n).image fun k => (h + k) % size) ⊆ (A.map Prod.fst).toFinset := by
    intro x hx
    simp only [Finset.mem_image, Finset.mem_range] at hx
    obtain ⟨k, hk, rfl⟩ := hx
    rw [List.mem_toFinset]
    exact List.mem_map.2 ⟨_, (occupied_iff hA).1 (hocc k hk), rfl⟩
  have hcard : ((Finset.range n).image fun k => (h + k) % size).card = n := by
    rw [Finset.card_image_of_injOn, Finset.card_range]
    intro a ha b hb hab
    simp only [Finset.coe_range, Set.mem_Iio] at ha hb
    exact distance_inj (by omega) (by omega) hab
  calc n = _ := hcard.symm
    _ ≤ _ := Finset.card_le_card hsub
    _ ≤ (A.map Prod.fst).length := List.toFinset_card_le _
    _ = A.length := by simp

/-- A lookup does not fail while a slot among those examined must be empty. -/
theorem lookup_ok_of_room {A : List (Nat × Slot)} {size : Nat} (id : U64) (anm : Bool)
    (hA : SlotsWF A size) (hroom : A.length + 2 ≤ size) :
    ∃ j, lookupOrEmpty A size id anm = .ok j := by
  cases h : lookupOrEmpty A size id anm with
  | ok j => exact ⟨j, rfl⟩
  | error e =>
    have := ((lookupOrEmpty_eq_error_iff A size id anm e).1 h).2
    have := run_le_length (n := size - 1) (h := hash id size) hA (by omega)
      (fun k hk hc => this k hk (.inl hc))
    omega

/-! ### Lookups on a well-formed table (R108) -/

/-- R108 (a), (b): a lookup finds an id that is in the table. -/
theorem lookup_of_mem {A : List (Nat × Slot)} {size j : Nat} {sl : Slot} (hA : SlotsWF A size)
    (h : (j, sl) ∈ A) : lookupOrEmpty A size sl.id false = .ok j := by
  have hj : j < size := (Sparse.mem_range hA.1 _ h).2
  obtain ⟨hd, hchain⟩ := hA.2.2.2 _ h
  simp only at hd hchain
  rw [lookupOrEmpty_eq_ok_iff]
  refine ⟨probeDistance size sl.id j, ⟨by omega, .inr ⟨rfl, ?_⟩, fun i hi => ?_⟩,
    (at_probeDistance sl.id hj).symm⟩
  · rw [at_probeDistance sl.id hj, slotAt_of_mem hA h]
  · have hocc := hchain i hi
    rintro (hs | ⟨-, hs⟩)
    · exact hocc hs
    · have := hA.2.2.1 _ ((occupied_iff hA).1 hocc) _ h hs
      simp only at this
      have h2 := probeDistance_at sl.id (size := size) (k := i) (by omega)
      rw [this] at h2
      omega

/-- R108 (a), (c): a lookup that answers an occupied slot has found the id there; one that answers an
empty slot shows that the id is absent and that the chain leads there. -/
theorem lookup_ok_cases {A : List (Nat × Slot)} {size j : Nat} {id : U64} (hA : SlotsWF A size)
    (h : lookupOrEmpty A size id false = .ok j) :
    j < size ∧
    ((Occupied A j ∧ (slotAt A j).id = id) ∨
      (¬ Occupied A j ∧ (∀ e ∈ A, e.2.id ≠ id) ∧ ChainTo A size j id)) := by
  obtain ⟨k, ⟨hk, hstop, hbefore⟩, rfl⟩ := (lookupOrEmpty_eq_ok_iff A size id false j).1 h
  refine ⟨Nat.mod_lt _ (by omega), ?_⟩
  by_cases hocc : Occupied A ((hash id size + k) % size)
  · rcases hstop with hs | ⟨-, hs⟩
    · exact absurd hs hocc
    · exact .inl ⟨hocc, hs⟩
  · refine .inr ⟨hocc, ?_, ?_⟩
    · rintro ⟨i, sl⟩ hmem rfl
      have h2 := lookup_of_mem hA hmem
      rw [h, Except.ok.injEq] at h2
      rw [h2] at hocc
      exact hocc ((occupied_iff hA).2 (by rw [slotAt_of_mem hA hmem]; exact hmem))
    · rw [ChainTo, probeDistance_at id (by omega)]
      exact ⟨by omega, fun i hi hc => hbefore i hi (.inl hc)⟩

/-- R108 (b): a failing lookup shows that the id is absent. -/
theorem absent_of_lookup_error {A : List (Nat × Slot)} {size : Nat} {id : U64} {e : ErrKind}
    (hA : SlotsWF A size) (h : lookupOrEmpty A size id false = .error e) : ∀ x ∈ A, x.2.id ≠ id := by
  rintro ⟨j, sl⟩ hmem rfl
  rw [lookup_of_mem hA hmem] at h
  cases h

/-- R112: with `anm` set, for an absent id, a lookup answers an empty slot to which the chain leads. -/
theorem lookup_anm_ok {A : List (Nat × Slot)} {size j : Nat} {id : U64}
    (h : lookupOrEmpty A size id true = .ok j) :
    j < size ∧ ¬ Occupied A j ∧ ChainTo A size j id := by
  obtain ⟨k, ⟨hk, hstop, hbefore⟩, rfl⟩ := (lookupOrEmpty_eq_ok_iff A size id true j).1 h
  refine ⟨Nat.mod_lt _ (by omega), ?_, ?_⟩
  · rcases hstop with hs | ⟨hs, -⟩
    · exact fun hocc => hocc hs
    · cases hs
  · rw [ChainTo, probeDistance_at id (by omega)]
    exact ⟨by omega, fun i hi hc => hbefore i hi (.inl hc)⟩

/-! ### Storing an entry keeps R15 -/

/-- An occupied slot stays occupied when a slot is given an occupied content. -/
theorem occupied_put {A : List (Nat × Slot)} {j i : Nat} {sl : Slot} (hc : sl.count ≠ 0)
    (h : Occupied A i) : Occupied (Sparse.put j sl A) i := by
  rw [Occupied, slotAt_put]
  split
  · exact hc
  · exact h

theorem slotsWF_put_new {A : List (Nat × Slot)} {size j : Nat} {sl : Slot} (hA : SlotsWF A size)
    (hj : j < size) (hc : sl.count ≠ 0) (hempty : ¬ Occupied A j) (habs : ∀ e ∈ A, e.2.id ≠ sl.id)
    (hchain : ChainTo A size j sl.id) :
    SlotsWF (Sparse.put j sl A) size ∧ (Sparse.put j sl A).length = A.length + 1 := by
  have hmem := Sparse.mem_put (v := sl) hj hA.1
  refine ⟨⟨Sparse.wf_put sl hj hA.1, ?_, ?_, ?_⟩, ?_⟩
  · intro e he
    rcases (hmem e).1 he with rfl | ⟨he, -⟩
    · exact hc
    · exact hA.2.1 e he
  · intro e he e' he' hid
    rcases (hmem e).1 he with rfl | ⟨he, -⟩ <;> rcases (hmem e').1 he' with rfl | ⟨he', -⟩
    · rfl
    · exact absurd hid.symm (habs e' he')
    · exact absurd hid (habs e he)
    · exact hA.2.2.1 e he e' he' hid
  · intro e he
    rcases (hmem e).1 he with rfl | ⟨he, -⟩
    · exact ⟨hchain.1, fun i hi => occupied_put hc (hchain.2 i hi)⟩
    · have := hA.2.2.2 e he
      exact ⟨this.1, fun i hi => occupied_put hc (this.2 i hi)⟩
  · apply Sparse.length_put_new
    exact find_none_of_empty hA hempty

theorem slotsWF_put_count {A : List (Nat × Slot)} {size j : Nat} {c : U64} (hA : SlotsWF A size)
    (hocc : Occupied A j) (hc : c ≠ 0) :
    SlotsWF (Sparse.put j ⟨(slotAt A j).id, c⟩ A) size ∧
      (Sparse.put j ⟨(slotAt A j).id, c⟩ A).length = A.length := by
  have hin := (occupied_iff hA).1 hocc
  have hj : j < size := (Sparse.mem_range hA.1 _ hin).2
  have hmem := Sparse.mem_put (v := Slot.mk (slotAt A j).id c) hj hA.1
  have hc' : (Slot.mk (slotAt A j).id c).count ≠ 0 := hc
  refine ⟨⟨Sparse.wf_put _ hj hA.1, ?_, ?_, ?_⟩, ?_⟩
  · intro e he
    rcases (hmem e).1 he with rfl | ⟨he, -⟩
    · exact hc
    · exact hA.2.1 e he
  · intro e he e' he' hid
    rcases (hmem e).1 he with rfl | ⟨he, -⟩ <;> rcases (hmem e').1 he' with rfl | ⟨he', -⟩
    · rfl
    · exact hA.2.2.1 (j, slotAt A j) hin e' he' hid
    · exact hA.2.2.1 e he (j, slotAt A j) hin hid
    · exact hA.2.2.1 e he e' he' hid
  · intro e he
    rcases (hmem e).1 he with rfl | ⟨he, -⟩
    · have := hA.2.2.2 _ hin
      exact ⟨this.1, fun i hi => occupied_put hc' (this.2 i hi)⟩
    · have := hA.2.2.2 e he
      exact ⟨this.1, fun i hi => occupied_put hc' (this.2 i hi)⟩
  · exact Sparse.length_put_old _ _ hA.1 ((Sparse.find_eq_some_iff hA.1).2 hin)

/-! ### Counts -/

theorem countOf_put_new {k : Nat} (sl : Slot) (w : U64) : ∀ {A : List (Nat × Slot)},
    Sparse.find A k = none →
    countOf (Sparse.put k sl A) w = countOf A w + (if sl.id = w then sl.count.toNat else 0)
  | [], _ => by simp [Sparse.put, countOf]
  | (j, u) :: rest, h => by
    simp only [Sparse.find] at h
    split at h
    · cases h
    · have ih := countOf_put_new sl w h
      simp only [Sparse.put]
      split
      · simp only [countOf]; omega
      · rw [if_neg (fun hh => by simp_all)]
        simp only [countOf, ih]; omega

theorem countOf_put_old {hi k : Nat} (sl old : Slot) (w : U64) : ∀ {lo : Nat} {A : List (Nat × Slot)},
    Sparse.risingFrom hi lo A = true → Sparse.find A k = some old →
    countOf (Sparse.put k sl A) w + (if old.id = w then old.count.toNat else 0) =
      countOf A w + (if sl.id = w then sl.count.toNat else 0)
  | _, [], _, h => by cases h
  | lo, (j, u) :: rest, hA, h => by
    rw [Sparse.risingFrom_cons] at hA
    simp only [Sparse.put]
    split
    · rename_i hlt
      have h2 : Sparse.risingFrom hi j ((j, u) :: rest) = true := by
        rw [Sparse.risingFrom_cons]; exact ⟨Nat.le_refl _, hA.2⟩
      rw [Sparse.find_below h2 hlt] at h
      cases h
    · split
      · rename_i heq
        subst heq
        simp only [Sparse.find, if_true, Option.some.injEq] at h
        subst h
        simp only [countOf]; omega
      · simp only [Sparse.find] at h
        rw [if_neg (fun hh => by simp_all)] at h
        have ih := countOf_put_old sl old w hA.2.2 h
        simp only [countOf]; omega

/-- An id that no slot holds has not been counted. -/
theorem countOf_eq_zero {w : U64} : ∀ {A : List (Nat × Slot)}, (∀ e ∈ A, e.2.id ≠ w) → countOf A w = 0
  | [], _ => rfl
  | (j, sl) :: rest, h => by
    simp only [countOf]
    rw [if_neg (h (j, sl) (by simp)), countOf_eq_zero (fun e he => h e (by simp [he]))]

/-- An id is counted as often as the slot that holds it says. -/
theorem countOf_of_mem {w : U64} {j : Nat} {sl : Slot} : ∀ {A : List (Nat × Slot)} {hi lo : Nat},
    Sparse.risingFrom hi lo A = true → (∀ e ∈ A, ∀ e' ∈ A, e.2.id = e'.2.id → e.1 = e'.1) →
    (j, sl) ∈ A → sl.id = w → countOf A w = sl.count.toNat
  | (i, u) :: rest, hi, lo, hA, hinj, hmem, hw => by
    rw [Sparse.risingFrom_cons] at hA
    simp only [countOf]
    rcases List.mem_cons.1 hmem with h | h
    · cases h
      rw [if_pos hw, countOf_eq_zero]
      · rfl
      · intro e he heq
        have h1 := hinj (j, sl) (by simp) e (by simp [he]) (by simp [hw, heq])
        have h2 := (Sparse.mem_range hA.2.2 e he).1
        simp only at h1
        omega
    · have h2 := (Sparse.mem_range hA.2.2 _ h).1
      rw [if_neg, Nat.zero_add]
      · exact countOf_of_mem hA.2.2
          (fun e he e' he' => hinj e (List.mem_cons_of_mem _ he) e' (List.mem_cons_of_mem _ he')) h hw
      · intro heq
        have h1 := hinj (i, u) (by simp) (j, sl) (by simp [h]) (by simp [hw, heq])
        simp only at h1 h2
        omega

/-! ### resize (R112, R114) -/

/-- The rehash loop never fails where the new array is larger than the old list needs, keeps R15, and
carries every entry over. -/
theorem rehash_ok {newSize : Nat} : ∀ {old N : List (Nat × Slot)}, SlotsWF N newSize →
    (∀ e ∈ old, e.2.count ≠ 0) → (∀ e ∈ old, ∀ x ∈ N, x.2.id ≠ e.2.id) →
    old.Pairwise (fun a b => a.2.id ≠ b.2.id) → N.length + old.length + 1 ≤ newSize →
    ∃ N', rehash newSize old N = .ok N' ∧ SlotsWF N' newSize ∧
      N'.length = N.length + old.length ∧ ∀ w, countOf N' w = countOf N w + countOf old w
  | [], N, hN, _, _, _, _ => ⟨N, rfl, hN, rfl, fun w => by simp [countOf]⟩
  | (i, sl) :: rest, N, hN, hc, habs, hpw, hroom => by
    simp only [List.length_cons] at hroom
    have hcsl : sl.count ≠ 0 := hc (i, sl) (by simp)
    obtain ⟨q, hq⟩ := lookup_ok_of_room sl.id true hN (by omega)
    obtain ⟨hq1, hq2, hq3⟩ := lookup_anm_ok hq
    have habs' : ∀ x ∈ N, x.2.id ≠ sl.id := habs (i, sl) (by simp)
    obtain ⟨hwf, hlen⟩ := slotsWF_put_new hN hq1 hcsl hq2 habs' hq3
    rw [List.pairwise_cons] at hpw
    obtain ⟨N', h1, h2, h3, h4⟩ := rehash_ok (old := rest) (N := Sparse.put q sl N) hwf
      (fun e he => hc e (by simp [he]))
      (by
        intro e he x hx
        rcases (Sparse.mem_put hq1 hN.1 x).1 hx with rfl | ⟨hx, -⟩
        · exact hpw.1 e he
        · exact habs e (by simp [he]) x hx)
      hpw.2 (by omega)
    refine ⟨N', ?_, h2, ?_, fun w => ?_⟩
    · simp only [rehash, hq]
      rw [if_neg hcsl, h1]
    · simp only [List.length_cons]; omega
    · rw [h4, countOf_put_new sl w (find_none_of_empty hN hq2)]
      simp only [countOf]; omega

/-- In a canonical list, distinct entries hold distinct ids. -/
theorem pairwise_ids {hi : Nat} : ∀ {lo : Nat} {A : List (Nat × Slot)},
    Sparse.risingFrom hi lo A = true → (∀ e ∈ A, ∀ e' ∈ A, e.2.id = e'.2.id → e.1 = e'.1) →
    A.Pairwise (fun a b => a.2.id ≠ b.2.id)
  | _, [], _, _ => List.Pairwise.nil
  | lo, (j, sl) :: rest, hA, h => by
    rw [Sparse.risingFrom_cons] at hA
    refine List.pairwise_cons.2 ⟨fun e he heq => ?_, pairwise_ids hA.2.2 fun e he e' he' =>
      h e (List.mem_cons_of_mem _ he) e' (List.mem_cons_of_mem _ he')⟩
    have h1 := h (j, sl) (by simp) e (by simp [he]) heq
    have h2 := (Sparse.mem_range hA.2.2 e he).1
    simp only at h1
    omega

/-- A well-formed list of slots is no longer than the table is large. -/
theorem slots_length_le {A : List (Nat × Slot)} {size : Nat} (hA : Sparse.wf size A = true) :
    A.length ≤ size := by
  have key : ∀ {lo : Nat} {B : List (Nat × Slot)}, Sparse.risingFrom size lo B = true →
      B = [] ∨ lo + B.length ≤ size := by
    intro lo B
    induction B generalizing lo with
    | nil => intro _; exact .inl rfl
    | cons e rest ih =>
      obtain ⟨j, sl⟩ := e
      intro h
      rw [Sparse.risingFrom_cons] at h
      right
      rcases ih h.2.2 with rfl | h2
      · simp only [List.length_cons, List.length_nil]; omega
      · simp only [List.length_cons]; omega
  rcases key hA with rfl | h
  · simp
  · omega

/-- Everything `resize` does to a well-formed table when its request is legal and granted: the new
size, `T.num` as before, every count as before, R15 as before. -/
theorem resize_of_granted {t : Table} {A : Allocator} {n : Nat} (ht : t.WF) (hn : t.size.toNat < n)
    (hmax : n < 2 ^ 64) (hA : A.answer n = true) :
    ∃ N, resize t A n = ⟨none, ⟨BitVec.ofNat 64 n, t.num, N⟩, A.next⟩ ∧
      (Table.mk (BitVec.ofNat 64 n) t.num N).WF ∧ ∀ w, countOf N w = countOf t.slots w := by
  obtain ⟨h1, h2, h3⟩ := ht
  have hlen := slots_length_le h3.1
  have hnil : SlotsWF [] n := ⟨rfl, by simp, by simp, by simp⟩
  obtain ⟨N, g1, g2, g3, g4⟩ := rehash_ok (old := t.slots) hnil h3.2.1 (by simp)
    (pairwise_ids h3.1 h3.2.2.1) (by simp only [List.length_nil]; omega)
  have hsz : (BitVec.ofNat 64 n).toNat = n := by
    rw [BitVec.toNat_ofNat, Nat.mod_eq_of_lt hmax]
  refine ⟨N, ?_, ⟨?_, ?_, ?_⟩, fun w => by rw [g4]; simp [countOf]⟩
  · have h0 : ¬ (t.size = 0 ∨ n = 0 ∨ n ≤ t.size.toNat) := by
      rintro (h | h | h)
      · rw [h] at h1
        exact absurd h1 (by decide)
      · omega
      · omega
    simp only [resize]
    rw [if_neg h0, if_neg (by simp [hA]), g1]
  · simp only [hsz]; omega
  · simp only [List.length_nil] at g3
    simp only [g3, h2]; omega
  · simpa only [hsz] using g2

/-- Everything `resize` can do to a well-formed table: a failure leaves it as it was. -/
theorem resize_cases {t : Table} {A : Allocator} {n : Nat} (ht : t.WF) (hmax : n < 2 ^ 64) :
    ((resize t A n).error = some .invalidValue ∧ n ≤ t.size.toNat ∧ (resize t A n).table = t) ∨
    ((resize t A n).error = some .insufficientSpace ∧ t.size.toNat < n ∧ A.answer n = false ∧
      (resize t A n).table = t) ∨
    ((resize t A n).error = none ∧ t.size.toNat < n ∧ A.answer n = true ∧
      (resize t A n).table.WF ∧ (resize t A n).table.size.toNat = n ∧
      (resize t A n).table.num = t.num ∧
      ∀ w, countOf (resize t A n).table.slots w = countOf t.slots w) := by
  rcases Nat.lt_or_ge t.size.toNat n with hn | hn
  · cases hA : A.answer n with
    | false =>
      right; left
      have h0 : ¬ (t.size = 0 ∨ n = 0 ∨ n ≤ t.size.toNat) := by
        rintro (h | h | h)
        · have := ht.1
          rw [h] at this
          exact absurd this (by decide)
        · omega
        · omega
      have hr : resize t A n = ⟨some .insufficientSpace, t, A.next⟩ := by
        rw [resize, if_neg h0, if_pos hA]
      rw [hr]
      exact ⟨rfl, hn, rfl, rfl⟩
    | true =>
      right; right
      obtain ⟨N, h1, h2, h3⟩ := resize_of_granted ht hn hmax hA
      rw [h1]
      refine ⟨rfl, hn, rfl, h2, ?_, rfl, h3⟩
      rw [BitVec.toNat_ofNat, Nat.mod_eq_of_lt hmax]
  · left
    have hr : resize t A n = ⟨some .invalidValue, t, A⟩ := by
      rw [resize, if_pos (.inr (.inr hn))]
    rw [hr]
    exact ⟨rfl, hn, rfl⟩

/-! ### The order of a rehash (R112) -/

/-- Rehashing one list and then another is rehashing both. -/
theorem rehash_append {n : Nat} : ∀ {a b N N' : List (Nat × Slot)},
    rehash n (a ++ b) N = .ok N' ↔ ∃ M, rehash n a N = .ok M ∧ rehash n b M = .ok N'
  | [], b, N, N' => by simp [rehash]
  | (i, sl) :: rest, b, N, N' => by
    simp only [List.cons_append, rehash]
    split
    · exact rehash_append
    · split
      · exact rehash_append
      · simp

/-- The entries of a canonical list below `i + 1` are those below `i`, and then the one at `i`. -/
theorem filter_below_succ {hi i : Nat} : ∀ {lo : Nat} {A : List (Nat × Slot)},
    Sparse.risingFrom hi lo A = true →
    (∀ sl, Sparse.find A i = some sl →
      A.filter (fun e => decide (e.1 < i + 1)) = A.filter (fun e => decide (e.1 < i)) ++ [(i, sl)]) ∧
    (Sparse.find A i = none →
      A.filter (fun e => decide (e.1 < i + 1)) = A.filter (fun e => decide (e.1 < i)))
  | _, [], _ => by simp
  | lo, (j, u) :: rest, hA => by
    rw [Sparse.risingFrom_cons] at hA
    have above : ∀ m, m ≤ j → rest.filter (fun e => decide (e.1 < m + 1)) = [] := fun m hm => by
      rw [List.filter_eq_nil_iff]
      intro e he
      have := (Sparse.mem_range hA.2.2 e he).1
      simp only [decide_eq_true_eq]
      omega
    have above' : ∀ m, m ≤ j → rest.filter (fun e => decide (e.1 < m)) = [] := fun m hm => by
      rw [List.filter_eq_nil_iff]
      intro e he
      have := (Sparse.mem_range hA.2.2 e he).1
      simp only [decide_eq_true_eq]
      omega
    obtain ⟨ih1, ih2⟩ := filter_below_succ (i := i) hA.2.2
    simp only [Sparse.find, List.filter_cons, decide_eq_true_eq]
    rcases Nat.lt_trichotomy j i with h | h | h
    · rw [if_pos (by omega : j < i + 1), if_pos h, if_neg (by omega : ¬ j = i)]
      exact ⟨fun sl hsl => by rw [ih1 sl hsl]; rfl, fun hn => by rw [ih2 hn]⟩
    · subst h
      rw [if_pos (by omega : j < j + 1), if_neg (by omega : ¬ j < j), above j (by omega),
        above' j (by omega), if_pos rfl]
      exact ⟨fun sl hsl => by cases hsl; rfl, fun hn => by cases hn⟩
    · rw [if_neg (by omega : ¬ j < i + 1), if_neg (by omega : ¬ j < i), above i (by omega),
        above' i (by omega), if_neg (by omega : ¬ j = i), Sparse.find_below hA.2.2 (by omega)]
      exact ⟨fun sl hsl => (by cases hsl), fun _ => rfl⟩

/-- A rehash takes the old slots by ascending index, each to the first empty slot from its hash
position. -/
theorem rehash_inOrder {old N : List (Nat × Slot)} {oldSize newSize : Nat} (hA : SlotsWF old oldSize)
    (h : rehash newSize old [] = .ok N) : RehashedInOrder old N oldSize newSize := by
  let below : Nat → List (Nat × Slot) := fun i => old.filter (fun e => decide (e.1 < i))
  have hall : below oldSize = old := by
    refine List.filter_eq_self.2 fun e he => ?_
    simpa using (Sparse.mem_range hA.1 e he).2
  have hsplit : ∀ i, ∃ M, rehash newSize (below i) [] = .ok M := by
    -- every prefix of a rehash that succeeds succeeds
    intro i
    have hpre : ∀ {lo : Nat} {A : List (Nat × Slot)}, Sparse.risingFrom oldSize lo A = true →
        ∃ rest, A = A.filter (fun e => decide (e.1 < i)) ++ rest := by
      intro lo A
      induction A generalizing lo with
      | nil => exact fun _ => ⟨[], rfl⟩
      | cons e rest ih =>
        intro hr
        obtain ⟨j, u⟩ := e
        rw [Sparse.risingFrom_cons] at hr
        by_cases hj : j < i
        · obtain ⟨r, hr'⟩ := ih hr.2.2
          refine ⟨r, ?_⟩
          rw [List.filter_cons, if_pos (by simpa using hj), List.cons_append, ← hr']
        · refine ⟨(j, u) :: rest, ?_⟩
          rw [List.filter_eq_nil_iff.2]
          · rfl
          · intro e he
            rcases List.mem_cons.1 he with rfl | he
            · simpa using hj
            · have := (Sparse.mem_range hr.2.2 e he).1
              simp only [decide_eq_true_eq]
              omega
    obtain ⟨rest, hrest⟩ := hpre hA.1
    rw [hrest] at h
    obtain ⟨M, hM, -⟩ := rehash_append.1 h
    exact ⟨M, hM⟩
  choose B hB using hsplit
  refine ⟨B, fun j => ?_, fun i _ => ⟨fun hocc => ?_, fun hemp j => ?_⟩, fun j => ?_⟩
  · have h0 : below 0 = [] := List.filter_eq_nil_iff.2 fun e _ => by simp
    have := hB 0
    rw [h0] at this
    rw [← Except.ok.inj this]
    rfl
  · have hfind := (Sparse.find_eq_some_iff hA.1).2 ((occupied_iff hA).1 hocc)
    have hstep := hB (i + 1)
    rw [show below (i + 1) = below i ++ [(i, slotAt old i)] from
      (filter_below_succ hA.1).1 _ hfind] at hstep
    obtain ⟨M, hM, hlast⟩ := rehash_append.1 hstep
    rw [hB i] at hM
    rw [← Except.ok.inj hM] at hlast
    simp only [rehash] at hlast
    rw [if_neg hocc] at hlast
    split at hlast
    · rename_i q hq
      obtain ⟨k, hk, rfl⟩ := (lookupOrEmpty_eq_ok_iff ..).1 hq
      refine ⟨k, hk, fun j => ?_⟩
      rw [← Except.ok.inj hlast, slotAt_put]
      simp only [eq_comm]
    · cases hlast
  · have hstep := hB (i + 1)
    rw [show below (i + 1) = below i from
      (filter_below_succ hA.1).2 (find_none_of_empty hA hemp), hB i] at hstep
    rw [Except.ok.inj hstep]
  · have := hB oldSize
    rw [hall, h] at this
    rw [Except.ok.inj this]

/-- A resize that succeeds has rehashed the old slots in order. -/
theorem resize_inOrder {t : Table} {A : Allocator} {n : Nat} (ht : t.WF)
    (h : (resize t A n).error = none) :
    RehashedInOrder t.slots (resize t A n).table.slots t.size.toNat n := by
  revert h
  unfold resize
  split
  · intro h; cases h
  · split
    · intro h; cases h
    · split
      · rename_i N hN
        exact fun _ => rehash_inOrder ht.2.2 hN
      · intro h; cases h

/-! ### Draws (R145 (c)) -/

theorem Allocator.after_zero (A : Allocator) : A.after 0 = A := rfl

theorem Allocator.after_succ (A : Allocator) (d : Nat) : A.after (d + 1) = A.next.after d := by
  simp only [Allocator.after, Allocator.next, List.drop_tail]
  congr 1
  omega

/-- What a step on the table does to the allocator: it makes `k` draws, and a refused one is its last
and fails it for want of space. -/
def Draws (A : Allocator) (r : TableStep) : Prop :=
  ∃ k, r.alloc = A.after k ∧
    ∀ d, d < k → A.Refuses d → d + 1 = k ∧ r.error = some .insufficientSpace

theorem Draws.none {A : Allocator} {r : TableStep} (h : r.alloc = A) : Draws A r :=
  ⟨0, h, fun d hd => absurd hd (Nat.not_lt_zero d)⟩

/-- A step that succeeds after `k` draws none of which is refused, followed by another. -/
theorem Draws.trans {A : Allocator} {r r' : TableStep} (h : Draws A r) (he : r.error = Option.none)
    (h' : Draws r.alloc r') : Draws A r' := by
  obtain ⟨k, hk, hr⟩ := h
  obtain ⟨k', hk', hr'⟩ := h'
  have hafter : ∀ d, r.alloc.after d = A.after (k + d) := fun d => by
    rw [hk]
    simp only [Allocator.after, List.drop_drop, Nat.add_assoc]
  refine ⟨k + k', by rw [hk', hafter], fun d hd href => ?_⟩
  rcases Nat.lt_or_ge d k with hlt | hge
  · have := (hr d hlt href).2
    rw [he] at this
    cases this
  · obtain ⟨e, rfl⟩ := Nat.le.dest hge
    have := hr' e (by omega) (fun n => by rw [hafter]; exact href n)
    exact ⟨by omega, this.2⟩

theorem resize_draws (t : Table) (A : Allocator) (n : Nat) : Draws A (resize t A n) := by
  have hone : ∀ r : TableStep, r.alloc = A.next →
      (A.answer n = false → r.error = some .insufficientSpace) → Draws A r := fun r h he =>
    ⟨1, h.trans (A.after_succ 0).symm, fun d hd href => by
      cases Nat.lt_one_iff.1 hd
      exact ⟨rfl, he (href n)⟩⟩
  unfold resize
  split
  · exact Draws.none rfl
  · split
    · exact hone _ rfl fun _ => rfl
    · rename_i hA
      split
      · exact hone _ rfl fun h => absurd h hA
      · exact hone _ rfl fun h => absurd h hA

theorem countStep_alloc (t : Table) (A : Allocator) (j : Nat) (w : U64) :
    (countStep t A j w).alloc = A := by
  unfold countStep
  split <;> rfl

theorem addRetry_alloc (t : Table) (A : Allocator) (w : U64) : (addRetry t A w).alloc = A := by
  unfold addRetry
  split
  · exact countStep_alloc ..
  · rfl

/-- The draws of an add, on any table. -/
theorem addOrIncrement_draws (t : Table) (A : Allocator) (w : U64) (maxSize : Nat) :
    Draws A (addOrIncrement t A w maxSize) := by
  unfold addOrIncrement
  split
  · exact Draws.none (countStep_alloc ..)
  · split
    · exact Draws.none rfl
    · have h := resize_draws t A (min (2 * t.size.toNat) maxSize)
      simp only []
      split
      · rename_i e he
        obtain ⟨k, h1, h2⟩ := h
        exact ⟨k, h1, fun d hd href => by rw [← he]; exact h2 d hd href⟩
      · rename_i he
        exact h.trans he (Draws.none (addRetry_alloc ..))

/-! ### add_or_increment (R118, R120) -/

/-- What adding `w` makes of a table `t`: R15 holds, exactly the count of `w` has grown by 1, and
`T.num` has grown by 1 if `w` was new. -/
structure Counted (t t' : Table) (w : U64) : Prop where
  wf : t'.WF
  size : t.size.toNat ≤ t'.size.toNat
  count : ∀ x, countOf t'.slots x = countOf t.slots x + (if w = x then 1 else 0)
  num : t'.num.toNat = t.num.toNat + (if countOf t.slots w = 0 then 1 else 0)

/-- What a failure to add leaves of a table `t`: R15 and every count as before, perhaps more slots. -/
structure Kept (t t' : Table) : Prop where
  wf : t'.WF
  size : t.size.toNat ≤ t'.size.toNat
  count : ∀ x, countOf t'.slots x = countOf t.slots x
  num : t'.num = t.num

theorem Kept.refl {t : Table} (ht : t.WF) : Kept t t := ⟨ht, Nat.le_refl _, fun _ => rfl, rfl⟩

theorem countOf_pos {A : List (Nat × Slot)} {size j : Nat} (hA : SlotsWF A size) (h : Occupied A j) :
    0 < countOf A (slotAt A j).id := by
  have hin := (occupied_iff hA).1 h
  rw [countOf_of_mem hA.1 hA.2.2.1 hin rfl]
  have := h
  rw [Occupied] at this
  have h0 : (slotAt A j).count.toNat ≠ 0 := fun hc => this (BitVec.eq_of_toNat_eq (by simpa using hc))
  omega

/-- Counting a word in the slot its lookup answers either succeeds or overflows and changes nothing. -/
theorem countIn_cases {t : Table} {w : U64} {j : Nat} (ht : t.WF)
    (hl : lookupOrEmpty t.slots t.size.toNat w false = .ok j) :
    (∃ t', countIn t j w = .ok t' ∧ Counted t t' w ∧ t'.size = t.size) ∨
    (countIn t j w = .error .overflow ∧
      ((slotAt t.slots j).count = maxCount ∨ t.num = maxCount)) := by
  obtain ⟨h1, h2, hA⟩ := ht
  obtain ⟨hj, hcase⟩ := lookup_ok_cases hA hl
  rcases hcase with ⟨hocc, hid⟩ | ⟨hempty, habs, hchain⟩
  · have hc : ¬ (slotAt t.slots j).count = 0 := hocc
    simp only [countIn]
    rw [if_neg hc]
    by_cases hmax : (slotAt t.slots j).count = maxCount
    · rw [if_pos hmax]
      exact .inr ⟨rfl, .inl hmax⟩
    · rw [if_neg hmax]
      left
      have hplus : ((slotAt t.slots j).count + 1).toNat = (slotAt t.slots j).count.toNat + 1 := by
        have : (slotAt t.slots j).count.toNat ≠ 2 ^ 64 - 1 := fun hh =>
          hmax (BitVec.eq_of_toNat_eq (by rw [hh]; decide))
        have hlt := (slotAt t.slots j).count.isLt
        rw [BitVec.toNat_add]
        show (_ + 1) % 2 ^ 64 = _
        omega
      have hne : (slotAt t.slots j).count + 1 ≠ 0 := fun hh => by
        rw [hh] at hplus
        simp at hplus
      obtain ⟨g1, g2⟩ := slotsWF_put_count hA hocc hne
      have hin := (occupied_iff hA).1 hocc
      have hfind := (Sparse.find_eq_some_iff hA.1).2 hin
      refine ⟨_, rfl, ⟨⟨h1, by simpa only [g2] using h2, g1⟩, Nat.le_refl _, fun x => ?_, ?_⟩, rfl⟩
      · have := countOf_put_old ⟨(slotAt t.slots j).id, (slotAt t.slots j).count + 1⟩ _ x hA.1 hfind
        simp only [hplus, hid] at this ⊢
        split at this <;> simp_all <;> omega
      · have := countOf_pos hA hocc
        rw [hid] at this
        rw [if_neg (by omega)]
        rfl
  · have hc : (slotAt t.slots j).count = 0 := Classical.not_not.1 hempty
    simp only [countIn]
    rw [if_pos hc]
    by_cases hmax : t.num = maxCount
    · rw [if_pos hmax]
      exact .inr ⟨rfl, .inr hmax⟩
    · rw [if_neg hmax]
      left
      obtain ⟨g1, g2⟩ := slotsWF_put_new (sl := ⟨w, 1⟩) hA hj (by simp) hempty habs hchain
      have hplus : (t.num + 1).toNat = t.num.toNat + 1 := by
        have : t.num.toNat ≠ 2 ^ 64 - 1 := fun hh =>
          hmax (BitVec.eq_of_toNat_eq (by rw [hh]; decide))
        have hlt := t.num.isLt
        rw [BitVec.toNat_add]
        show (_ + 1) % 2 ^ 64 = _
        omega
      refine ⟨_, rfl, ⟨⟨h1, by simp only [hplus, g2]; omega, g1⟩, Nat.le_refl _, fun x => ?_, ?_⟩, rfl⟩
      · rw [countOf_put_new _ x (find_none_of_empty hA hempty)]
        rfl
      · rw [if_pos (countOf_eq_zero habs), hplus]

/-- Everything `countStep` can do after a lookup on a well-formed table. -/
theorem countStep_cases {t : Table} {A : Allocator} {w : U64} {j : Nat} (ht : t.WF)
    (hl : lookupOrEmpty t.slots t.size.toNat w false = .ok j) :
    ((countStep t A j w).error = none ∧ Counted t (countStep t A j w).table w ∧
      (countStep t A j w).table.size = t.size ∧ (countStep t A j w).alloc = A) ∨
    (countStep t A j w = ⟨some .overflow, t, A⟩ ∧
      ((slotAt t.slots j).count = maxCount ∨ t.num = maxCount)) := by
  rcases countIn_cases ht hl with ⟨t', h1, h2, h3⟩ | ⟨h1, h2⟩
  · left
    have hr : countStep t A j w = ⟨none, t', A⟩ := by rw [countStep, h1]
    rw [hr]
    exact ⟨rfl, h2, h3, rfl⟩
  · right
    exact ⟨by rw [countStep, h1], h2⟩

theorem Counted.of_kept {t t' t'' : Table} {w : U64} (hk : Kept t t') (hc : Counted t' t'' w) :
    Counted t t'' w where
  wf := hc.wf
  size := Nat.le_trans hk.size hc.size
  count := fun x => by rw [hc.count, hk.count]
  num := by rw [hc.num, hk.count, hk.num]

/-- Everything `add_or_increment` can do to a well-formed table. -/
theorem addOrIncrement_cases {t : Table} {A : Allocator} {w : U64} {maxSize : Nat} (ht : t.WF)
    (hmax : maxSize < 2 ^ 64) :
    ((addOrIncrement t A w maxSize).error = none ∧
      Counted t (addOrIncrement t A w maxSize).table w) ∨
    (∃ e, (addOrIncrement t A w maxSize).error = some e ∧
      Kept t (addOrIncrement t A w maxSize).table) := by
  unfold addOrIncrement
  split
  · rename_i j hl
    rcases countStep_cases (A := A) ht hl with ⟨h1, h2, -⟩ | ⟨h1, -⟩
    · exact .inl ⟨h1, h2⟩
    · rw [h1]
      exact .inr ⟨_, rfl, Kept.refl ht⟩
  · split
    · exact .inr ⟨_, rfl, Kept.refl ht⟩
    · have hn : min (2 * t.size.toNat) maxSize < 2 ^ 64 := by omega
      simp only []
      rcases resize_cases (A := A) ht hn with ⟨h1, -, h3⟩ | ⟨h1, -, -, h3⟩ | ⟨h1, h2, -, h4, h5, h6, h7⟩
      · rw [h1, h3]
        exact .inr ⟨_, rfl, Kept.refl ht⟩
      · rw [h1, h3]
        exact .inr ⟨_, rfl, Kept.refl ht⟩
      · rw [h1]
        have hk : Kept t (resize t A (min (2 * t.size.toNat) maxSize)).table :=
          ⟨h4, by omega, h7, h6⟩
        simp only [addRetry]
        split
        · rename_i j hl
          rcases countStep_cases (A := (resize t A (min (2 * t.size.toNat) maxSize)).alloc) h4 hl with
            ⟨g1, g2, -⟩ | ⟨g1, -⟩
          · exact .inl ⟨g1, Counted.of_kept hk g2⟩
          · rw [g1]
            exact .inr ⟨_, rfl, hk⟩
        · exact .inr ⟨_, rfl, hk⟩

/-- A fresh table satisfies R15. -/
theorem freshTable_wf {n : Nat} (h1 : 1 ≤ n) (h2 : n < 2 ^ 64) : (freshTable n).WF := by
  have hsz : (freshTable n).size.toNat = n := by
    simp only [freshTable, BitVec.toNat_ofNat]
    exact Nat.mod_eq_of_lt h2
  refine ⟨by omega, rfl, rfl, ?_, ?_, ?_⟩ <;> simp [freshTable]

/-! ### build -/

theorem maxSize_lt (ws : Nat) : maxSize ws < 2 ^ 64 :=
  Nat.pow_lt_pow_right (by omega) (by omega)

theorem maxSize_pos (ws : Nat) : 1 ≤ maxSize ws := Nat.one_le_two_pow

/-- `INIT_SIZE` is within its stated bounds (00_scope.md R4). -/
theorem initSize_bounds (ws : Nat) : 1 ≤ initSize ws ∧ initSize ws ≤ maxSize ws := by
  have := maxSize_pos ws
  simp only [initSize]
  omega

theorem addOrIncrement_wf {t : Table} {A : Allocator} {w : U64} {maxSize : Nat} (ht : t.WF)
    (hmax : maxSize < 2 ^ 64) : (addOrIncrement t A w maxSize).table.WF := by
  rcases addOrIncrement_cases (A := A) (w := w) ht hmax with ⟨-, h⟩ | ⟨-, -, h⟩
  · exact h.wf
  · exact h.wf

/-- The word loop keeps R15, whether it succeeds or fails. -/
theorem addWords_wf (m : Memory) (ws : Nat) : ∀ (n : Nat) (c : Cursor) {t : Table} (A : Allocator),
    t.WF → (addWords m ws n c t A).1.table.WF
  | 0, _, _, _, h => h
  | n + 1, c, t, A, h => by
    simp only [addWords]
    split
    · exact h
    · rename_i w c' _
      have hadd := addOrIncrement_wf (A := A) (w := BitVec.ofNat 64 w) h (maxSize_lt ws)
      split
      · exact hadd
      · exact addWords_wf m ws n c' _ hadd

/-- The scan keeps R15, whether it succeeds or fails. -/
theorem scan_wf (m : Memory) (ptr len ws : Nat) {t : Table} (A : Allocator) (h : t.WF) :
    (scan m ptr len ws t A).table.WF := by
  have hw := addWords_wf m ws (8 * len / ws) ⟨ptr, 0, len⟩ A h
  simp only [scan]
  split
  · exact hw
  · split
    · exact hw
    · simp only [addFinal]
      split
      · exact hw
      · exact addOrIncrement_wf hw (maxSize_lt ws)

/-- The draws of the word loop, on any table. -/
theorem addWords_draws (m : Memory) (ws : Nat) : ∀ (n : Nat) (c : Cursor) (t : Table) (A : Allocator),
    Draws A (addWords m ws n c t A).1
  | 0, _, _, _ => Draws.none rfl
  | n + 1, c, t, A => by
    simp only [addWords]
    split
    · exact Draws.none rfl
    · rename_i w c' _
      have h := addOrIncrement_draws t A (BitVec.ofNat 64 w) (maxSize ws)
      split
      · exact h
      · rename_i he
        exact h.trans he (addWords_draws m ws n c' _ _)

/-- The draws of the scan, on any table. -/
theorem scan_draws (m : Memory) (ptr len ws : Nat) (t : Table) (A : Allocator) :
    Draws A (scan m ptr len ws t A) := by
  have h := addWords_draws m ws (8 * len / ws) ⟨ptr, 0, len⟩ t A
  simp only [scan]
  split
  · exact h
  · rename_i he
    split
    · exact h
    · refine h.trans he ?_
      simp only [addFinal]
      split
      · exact Draws.none rfl
      · exact addOrIncrement_draws ..

end Sys2Proof.Machine
end

