-- ==== Sys2Proof/Laws/HeaderCodec.lean ====
section
/-!
SUPPORT. `encode` and `decode` (41_header_codec.md R84, R90): when they succeed, and everything they
then do.
-/

namespace Sys2Proof.Machine

/-! ### Cursors -/

theorem Cursor.advance_advance (c : Cursor) (a b : Nat) :
    (c.advance a).advance b = c.advance (a + b) := by
  simp only [Cursor.advance, Cursor.mk.injEq]
  omega

/-- The advanced cursor names the stream position just after the field (40_bitcursor.md R60). -/
theorem Cursor.advance_position (c : Cursor) (a : Nat) :
    8 * (c.advance a).ptr + (c.advance a).off = 8 * c.ptr + c.off + a := by
  simp only [Cursor.advance]
  omega

/-- A part of a run of `total` bits that is known to lie in the space can be read or written. -/
theorem Cursor.advance_fits {c : Cursor} {total a b : Nat} (hp : c.ptr ≠ 0)
    (htop : c.ptr + footprint c.off total < 2 ^ 64) (hcap : footprint c.off total ≤ c.cap)
    (hb1 : 1 ≤ b) (hb2 : b ≤ 64) (hab : a + b ≤ total) : (c.advance a).Fits b := by
  simp only [footprint_eq] at htop hcap
  simp only [Cursor.Fits, Cursor.advance, footprint_eq]
  omega

/-! ### clog2 -/

/-- `clog2` of a legal word size fits a field, and a pad below the word size fits that many bits
(30_encoding.md R51 (b)). -/
theorem clog2_bounds : ∀ ws, ws ≤ 64 → 2 ≤ ws → 1 ≤ clog2 ws ∧ clog2 ws ≤ 6 ∧ ws ≤ 2 ^ clog2 ws := by
  decide

theorem headerBytes_eq (ws : Nat) : headerBytes ws = footprint 0 (headerBits ws) := by
  simp [headerBytes, footprint]

/-! ### encode -/

/-- Everything `encode` does when none of its checks applies. -/
theorem encodeHeader_of_fits (m : Memory) {h : Header} {ptr cap : Nat} (hf : h.Fits ptr cap) :
    ∃ m', encodeHeader m h ptr cap = .ok (m', (Cursor.mk ptr 0 cap).advance (headerBits h.wordSize)) ∧
      m'.fieldAt (8 * ptr) 6 = h.wordSize % 64 ∧
      m'.fieldAt (8 * ptr + 6) (clog2 h.wordSize) = h.padBits ∧
      m'.fieldAt (8 * ptr + 6 + clog2 h.wordSize) h.wordSize = h.uniqueWords - 1 ∧
      (∀ Q, (Q < 8 * ptr ∨ 8 * ptr + headerBits h.wordSize ≤ Q) → m'.streamBit Q = m.streamBit Q) ∧
      (∀ a, ¬ InFootprint ptr (headerBytes h.wordSize) a → m'.readByte a = m.readByte a) ∧
      (m.wf = true → m'.wf = true) := by
  obtain ⟨ws, pad, uw⟩ := h
  obtain ⟨hp, hw1, hw2, hu1, hu2, hpad, htop, hcap⟩ := hf
  simp only at *
  obtain ⟨hc1, hc2, hc3⟩ := clog2_bounds ws hw2 hw1
  have hbits : headerBits ws = 6 + clog2 ws + ws := rfl
  rw [headerBytes_eq] at htop hcap
  have f1 : (Cursor.mk ptr 0 cap).Fits 6 := by
    have := Cursor.advance_fits (c := ⟨ptr, 0, cap⟩) (total := headerBits ws) (a := 0) (b := 6) hp htop
      hcap (by omega) (by omega) (by omega)
    simpa [Cursor.advance] using this
  have f2 := Cursor.advance_fits (c := ⟨ptr, 0, cap⟩) (total := headerBits ws) (a := 6)
      (b := clog2 ws) hp htop hcap (by omega) (by omega) (by omega)
  have f3 := Cursor.advance_fits (c := ⟨ptr, 0, cap⟩) (total := headerBits ws) (a := 6 + clog2 ws)
      (b := ws) hp htop hcap (by omega) (by omega) (by omega)
  obtain ⟨m1, e1, w1, o1, k1⟩ := writeBits_of_fits m ws f1
  obtain ⟨m2, e2, w2, o2, k2⟩ := writeBits_of_fits m1 pad f2
  rw [← Cursor.advance_advance] at f3
  obtain ⟨m3, e3, w3, o3, k3⟩ := writeBits_of_fits m2 (uw - 1) f3
  have p2 := Cursor.advance_position ⟨ptr, 0, cap⟩ 6
  have p3 := Cursor.advance_position ((Cursor.mk ptr 0 cap).advance 6) (clog2 ws)
  simp only [Nat.add_zero] at p2 w1
  rw [p2] at w2 p3
  rw [p3] at w3
  refine ⟨m3, ?_, ?_, ?_, ?_, fun Q hQ => ?_, fun a ha => ?_, fun hm => k3 (k2 (k1 hm))⟩
  · simp only [encodeHeader]
    rw [if_neg hp, if_neg (by omega), if_neg (by omega), headerBytes_eq, if_neg (by omega),
      if_neg (by omega), e1]
    simp only [bind, Except.bind, e2, e3]
    simp only [Cursor.advance_advance, hbits]
  · rw [Memory.fieldAt_congr (m := m2) (fun k hk => w3.others _ (by omega)),
      Memory.fieldAt_congr (m := m1) (fun k hk => w2.others _ (by omega)), w1.field]
    norm_num
  · rw [Memory.fieldAt_congr (m := m2) (fun k hk => w3.others _ (by omega)), w2.field,
      Nat.mod_eq_of_lt (by omega)]
  · rw [w3.field, Nat.mod_eq_of_lt (by omega)]
  · rw [w3.others _ (by omega), w2.others _ (by omega), w1.others _ (by omega)]
  · simp only [InFootprint, headerBytes_eq, footprint_eq, Cursor.advance] at ha o1 o2 o3
    rw [o3 a (by omega), o2 a (by omega), o1 a (by omega)]

/-! ### decode -/

/-- Everything `decode` does when none of its checks applies: the space for the header of the word
size found, and the ranges of the fields found. -/
theorem decodeHeader_of_fits (m : Memory) {ptr cap ws : Nat} (hws : ws = m.fieldAt (8 * ptr) 6)
    (hp : ptr ≠ 0) (hw1 : 2 ≤ ws) (htop : ptr + headerBytes ws < 2 ^ 64)
    (hcap : headerBytes ws ≤ cap) (hpad : m.fieldAt (8 * ptr + 6) (clog2 ws) < ws) :
    decodeHeader m ptr cap =
      .ok (⟨ws, m.fieldAt (8 * ptr + 6) (clog2 ws),
          m.fieldAt (8 * ptr + 6 + clog2 ws) ws + 1⟩,
        (Cursor.mk ptr 0 cap).advance (headerBits ws)) := by
  have hw2 : ws < 64 := by rw [hws]; exact m.fieldAt_lt _ 6
  obtain ⟨hc1, hc2, hc3⟩ := clog2_bounds ws (by omega) hw1
  have hbits : headerBits ws = 6 + clog2 ws + ws := rfl
  rw [headerBytes_eq] at htop hcap
  have h2 : 2 ≤ footprint 0 (headerBits ws) := by rw [footprint_eq]; omega
  have f1 : (Cursor.mk ptr 0 cap).Fits 6 := by
    have := Cursor.advance_fits (c := ⟨ptr, 0, cap⟩) (total := headerBits ws) (a := 0) (b := 6) hp htop
      hcap (by omega) (by omega) (by omega)
    simpa [Cursor.advance] using this
  have f2 := Cursor.advance_fits (c := ⟨ptr, 0, cap⟩) (total := headerBits ws) (a := 6)
      (b := clog2 ws) hp htop hcap (by omega) (by omega) (by omega)
  have f3 := Cursor.advance_fits (c := ⟨ptr, 0, cap⟩) (total := headerBits ws) (a := 6 + clog2 ws)
      (b := ws) hp htop hcap (by omega) (by omega) (by omega)
  rw [← Cursor.advance_advance] at f3
  have e1 := readBits_of_fits m f1
  have e2 := readBits_of_fits m f2
  have e3 := readBits_of_fits m f3
  have p2 := Cursor.advance_position ⟨ptr, 0, cap⟩ 6
  have p3 := Cursor.advance_position ((Cursor.mk ptr 0 cap).advance 6) (clog2 ws)
  simp only [Nat.add_zero] at p2 e1
  rw [p2] at e2 p3
  rw [p3] at e3
  rw [← hws] at e1
  simp only [decodeHeader]
  rw [if_neg hp, if_neg (by omega), if_neg (by omega), e1]
  simp only [bind, Except.bind]
  rw [headerBytes_eq, if_neg (by omega), if_neg (by omega), if_neg (by omega), e2]
  simp only []
  rw [if_neg (by omega), e3]
  simp only [Cursor.advance_advance]
  rfl

end Sys2Proof.Machine
end

