-- ==== Sys2Proof/Laws/Build.lean ====
section
/-!
SUPPORT. What the scan of a build does (42_frequency_table.md R124, R125, R127), and that it succeeds
when every allocation request is granted.
-/

namespace Sys2Proof.Machine

/-- The cursor after `a` bits of a source of `len` bytes can still read `b` bits of it. -/
theorem source_fits {ptr len a b : Nat} (hp : ptr ≠ 0) (htop : ptr + len < 2 ^ 64) (hb1 : 1 ≤ b)
    (hb2 : b ≤ 64) (hab : a + b ≤ 8 * len) : ((Cursor.mk ptr 0 len).advance a).Fits b := by
  have hf : footprint 0 (8 * len) = len := by rw [footprint_eq]; omega
  exact Cursor.advance_fits (total := 8 * len) hp (by simpa only [hf] using htop)
    (by simp only [hf]; omega) hb1 hb2 hab

/-- Reading `b` bits of the source after `a` bits. -/
theorem readBits_source (m : Memory) {ptr len a b : Nat} (hp : ptr ≠ 0) (htop : ptr + len < 2 ^ 64)
    (hb1 : 1 ≤ b) (hb2 : b ≤ 64) (hab : a + b ≤ 8 * len) :
    readBits m ((Cursor.mk ptr 0 len).advance a) b =
      .ok (m.fieldAt (8 * ptr + a) b, (Cursor.mk ptr 0 len).advance (a + b)) := by
  rw [readBits_of_fits m (source_fits hp htop hb1 hb2 hab), Cursor.advance_position,
    Cursor.advance_advance]
  rfl

/-- An add within the capacity limit stays within it, and fails only for want of space or by
overflow. -/
theorem addOrIncrement_bounded {t : Table} {A : Allocator} {w : U64} {maxSize : Nat} (ht : t.WF)
    (hmax : maxSize < 2 ^ 64) (hs : t.size.toNat ≤ maxSize) :
    (addOrIncrement t A w maxSize).table.size.toNat ≤ maxSize ∧
    ((addOrIncrement t A w maxSize).error = none ∨
      (addOrIncrement t A w maxSize).error = some .insufficientSpace ∨
      (addOrIncrement t A w maxSize).error = some .overflow) := by
  unfold addOrIncrement
  split
  · rename_i j hl
    rcases countStep_cases (A := A) ht hl with ⟨h1, -, h3, -⟩ | ⟨h1, -⟩
    · rw [h1, h3]
      exact ⟨hs, .inl rfl⟩
    · rw [h1]
      exact ⟨hs, .inr (.inr rfl)⟩
  · split
    · exact ⟨hs, .inr (.inl rfl)⟩
    · have h0 := ht.1
      have hn : min (2 * t.size.toNat) maxSize < 2 ^ 64 := by omega
      simp only []
      rcases resize_cases (A := A) ht hn with ⟨-, h2, -⟩ | ⟨h1, -, -, h3⟩ | ⟨h1, -, -, h4, h5, -, -⟩
      · omega
      · rw [h1, h3]
        exact ⟨hs, .inr (.inl rfl)⟩
      · rw [h1]
        simp only [addRetry]
        split
        · rename_i j hl
          rcases countStep_cases (A := (resize t A (min (2 * t.size.toNat) maxSize)).alloc) h4 hl with
            ⟨g1, -, g3, -⟩ | ⟨g1, -⟩
          · rw [g1, g3, h5]
            exact ⟨by omega, .inl rfl⟩
          · rw [g1]
            exact ⟨by simp only [h5]; omega, .inr (.inr rfl)⟩
        · rename_i e hl
          rw [((lookupOrEmpty_eq_error_iff ..).1 hl).1]
          exact ⟨by simp only [h5]; omega, .inr (.inl rfl)⟩

theorem toNat_ofNat_field (m : Memory) (P : Nat) {n : Nat} (hn : n ≤ 64) :
    (BitVec.ofNat 64 (m.fieldAt P n)).toNat = m.fieldAt P n := by
  rw [BitVec.toNat_ofNat]
  exact Nat.mod_eq_of_lt (Nat.lt_of_lt_of_le (m.fieldAt_lt P n) (Nat.pow_le_pow_right (by omega) hn))

/-- Everything the word loop can do to a well-formed table within the capacity limit, from word `i` of
the source on. -/
theorem addWords_cases (m : Memory) {ptr len ws : Nat} (hp : ptr ≠ 0) (htop : ptr + len < 2 ^ 64)
    (h2 : 2 ≤ ws) (h64 : ws ≤ 64) : ∀ (n i : Nat) {t : Table} (A : Allocator), t.WF →
    t.size.toNat ≤ maxSize ws → (i + n) * ws ≤ 8 * len →
    (addWords m ws n ((Cursor.mk ptr 0 len).advance (i * ws)) t A).1.table.size.toNat ≤ maxSize ws ∧
    (((addWords m ws n ((Cursor.mk ptr 0 len).advance (i * ws)) t A).1.error = none ∧
        (addWords m ws n ((Cursor.mk ptr 0 len).advance (i * ws)) t A).2 =
          (Cursor.mk ptr 0 len).advance ((i + n) * ws) ∧
        ∀ x, countOf (addWords m ws n ((Cursor.mk ptr 0 len).advance (i * ws)) t A).1.table.slots x +
            occurrences m ptr ws x.toNat i =
          countOf t.slots x + occurrences m ptr ws x.toNat (i + n)) ∨
      (addWords m ws n ((Cursor.mk ptr 0 len).advance (i * ws)) t A).1.error =
        some .insufficientSpace ∨
      (addWords m ws n ((Cursor.mk ptr 0 len).advance (i * ws)) t A).1.error = some .overflow)
  | 0, i, t, A, _, hs, _ => ⟨hs, .inl ⟨rfl, rfl, fun _ => rfl⟩⟩
  | n + 1, i, t, A, ht, hs, hn => by
    have hle : i * ws + ws ≤ 8 * len := by
      have : (i + (n + 1)) * ws = i * ws + ws + n * ws := by ring
      omega
    have hadv : i * ws + ws = (i + 1) * ws := by ring
    have hb := addOrIncrement_bounded (A := A)
      (w := BitVec.ofNat 64 (m.fieldAt (8 * ptr + i * ws) ws)) ht (maxSize_lt ws) hs
    have hc := addOrIncrement_cases (A := A)
      (w := BitVec.ofNat 64 (m.fieldAt (8 * ptr + i * ws) ws)) ht (maxSize_lt ws)
    have hword := toNat_ofNat_field m (8 * ptr + i * ws) h64
    simp only [addWords, readBits_source m hp htop (by omega) h64 hle]
    generalize hW : BitVec.ofNat 64 (m.fieldAt (8 * ptr + i * ws) ws) = W at hb hc hword ⊢
    rcases hc with ⟨e1, hcount⟩ | ⟨e, e1, -⟩
    · rw [e1, hadv]
      have ih := addWords_cases m hp htop h2 h64 n (i + 1)
        (addOrIncrement t A W (maxSize ws)).alloc hcount.wf hb.1
        (by have : i + 1 + n = i + (n + 1) := by omega
            rw [this]; exact hn)
      rw [show i + 1 + n = i + (n + 1) by omega] at ih
      refine ⟨ih.1, ih.2.imp_left fun ⟨g1, g2, g3⟩ => ⟨g1, g2, fun x => ?_⟩⟩
      have h1 := g3 x
      have h3 := hcount.count x
      have h4 : occurrences m ptr ws x.toNat (i + 1) =
          occurrences m ptr ws x.toNat i + (if W = x then 1 else 0) := by
        have heq : sourceWord m ptr ws i = x.toNat ↔ W = x := by
          rw [sourceWord, ← hword]
          exact BitVec.toNat_inj
        simp only [occurrences, heq]
      show countOf (addWords _ _ _ _ _ _).1.table.slots x + _ = _
      omega
    · rw [e1]
      refine ⟨hb.1, .inr ?_⟩
      rcases hb.2 with h | h | h
      · rw [e1] at h; cases h
      · exact .inl h
      · exact .inr h

/-- On a well-formed table `present` finds a word exactly if its count is not 0. -/
theorem present_cases {t : Table} (w : U64) (ht : t.WF) :
    (present t w = none ∧ countOf t.slots w = 0) ∨
    (∃ j, present t w = some j ∧ (slotAt t.slots j).count.toNat = countOf t.slots w ∧
      0 < countOf t.slots w) := by
  have hA := ht.2.2
  unfold present
  split
  · rename_i j hl
    obtain ⟨-, ⟨hocc, hid⟩ | ⟨hemp, habs, -⟩⟩ := lookup_ok_cases hA hl
    · rw [if_neg hocc]
      right
      have hpos := countOf_pos hA hocc
      have := countOf_of_mem hA.1 hA.2.2.1 ((occupied_iff hA).1 hocc) hid
      rw [hid] at hpos
      exact ⟨j, rfl, this.symm, hpos⟩
    · rw [if_pos (Classical.not_not.1 hemp)]
      exact .inl ⟨rfl, countOf_eq_zero habs⟩
  · rename_i e hl
    exact .inl ⟨rfl, countOf_eq_zero (absent_of_lookup_error hA hl)⟩

/-- The two completions are words of width `ws`, and the model computes them as R125 does. -/
theorem completion_bounds (m : Memory) {ptr len ws : Nat} (h2 : 2 ≤ ws) :
    lowCompletion m ptr len ws < 2 ^ ws ∧ highCompletion m ptr len ws < 2 ^ ws ∧
    (m.fieldAt (8 * ptr + (8 * len / ws) * ws) (8 * len % ws)) <<< (ws - 8 * len % ws) =
      lowCompletion m ptr len ws ∧
    lowCompletion m ptr len ws ||| (2 ^ (ws - 8 * len % ws) - 1) = highCompletion m ptr len ws := by
  have hf := m.fieldAt_lt (8 * ptr + (8 * len / ws) * ws) (8 * len % ws)
  have hm : 8 * len % ws < ws := Nat.mod_lt _ (by omega)
  unfold highCompletion lowCompletion
  generalize m.fieldAt (8 * ptr + (8 * len / ws) * ws) (8 * len % ws) = f at *
  generalize hp : ws - 8 * len % ws = p at *
  have hw : 2 ^ ws = 2 ^ (8 * len % ws) * 2 ^ p := by rw [← Nat.pow_add]; congr 1; omega
  have hpos : 1 ≤ 2 ^ p := Nat.one_le_two_pow
  have hmul : (f + 1) * 2 ^ p ≤ 2 ^ (8 * len % ws) * 2 ^ p := Nat.mul_le_mul_right _ hf
  rw [Nat.add_mul, Nat.one_mul] at hmul
  refine ⟨by omega, by omega, Nat.shiftLeft_eq .., ?_⟩
  rw [← Nat.shiftLeft_eq]
  rw [Nat.shiftLeft_add_eq_or_of_lt (by omega)]

/-- The completed word of a build whose table has counted the whole words is the chosen completion. -/
theorem completedWord_eq (m : Memory) {ptr len ws : Nat} {t : Table} (h2 : 2 ≤ ws)
    (h64 : ws ≤ 64) (ht : t.WF)
    (hc : ∀ x, countOf t.slots x = occurrences m ptr ws x.toNat (8 * len / ws)) :
    (completedWord t ws (8 * len % ws)
      (m.fieldAt (8 * ptr + (8 * len / ws) * ws) (8 * len % ws))).toNat = chosenCompletion m ptr len ws := by
  obtain ⟨a1, a2, a3, a4⟩ := completion_bounds m (ptr := ptr) (len := len) h2
  have hle : 2 ^ ws ≤ 2 ^ 64 := Nat.pow_le_pow_right (by omega) h64
  have hch : ∀ low high, choose t low high =
      if countOf t.slots low < countOf t.slots high then high else low := fun low high => by
    unfold choose
    rcases present_cases low ht with ⟨h1, h2⟩ | ⟨jl, h1, h2, h3⟩ <;>
    rcases present_cases high ht with ⟨g1, g2⟩ | ⟨jh, g1, g2, g3⟩ <;> rw [h1, g1]
    · simp [h2, g2]
    · simp [h2, g3]
    · simp only []
      rw [if_neg (by omega)]
    · simp only [h2, g2]
  simp only [completedWord, a3, a4]
  rw [hch, hc, hc]
  have e1 : (BitVec.ofNat 64 (lowCompletion m ptr len ws)).toNat = lowCompletion m ptr len ws := by
    rw [BitVec.toNat_ofNat]; exact Nat.mod_eq_of_lt (by omega)
  have e2 : (BitVec.ofNat 64 (highCompletion m ptr len ws)).toNat = highCompletion m ptr len ws := by
    rw [BitVec.toNat_ofNat]; exact Nat.mod_eq_of_lt (by omega)
  rw [e1, e2, chosenCompletion]
  split
  · exact e2
  · exact e1

/-- Everything the scan can do on a fresh table within the capacity limit: it counts the source, or
fails for want of space or by overflow. -/
theorem scan_cases (m : Memory) {ptr len ws n0 : Nat} (A : Allocator) (hp : ptr ≠ 0)
    (htop : ptr + len < 2 ^ 64) (h2 : 2 ≤ ws) (h64 : ws ≤ 64) (hn1 : 1 ≤ n0) (hn2 : n0 ≤ maxSize ws) :
    ((scan m ptr len ws (freshTable n0) A).error = none ∧
      ∀ x, countOf (scan m ptr len ws (freshTable n0) A).table.slots x =
        buildCount m ptr len ws x.toNat) ∨
    (scan m ptr len ws (freshTable n0) A).error = some .insufficientSpace ∨
    (scan m ptr len ws (freshTable n0) A).error = some .overflow := by
  have hlt := maxSize_lt ws
  have hwf := freshTable_wf hn1 (by omega)
  have hsz : (freshTable n0).size.toNat ≤ maxSize ws := by
    simp only [freshTable, BitVec.toNat_ofNat]
    rw [Nat.mod_eq_of_lt (by omega)]; exact hn2
  have hdiv : (0 + 8 * len / ws) * ws ≤ 8 * len := by
    rw [Nat.zero_add]; exact Nat.div_mul_le_self _ _
  have hA := addWords_cases m hp htop h2 h64 (8 * len / ws) 0 A hwf hsz hdiv
  have hW := addWords_wf m ws (8 * len / ws) ⟨ptr, 0, len⟩ A hwf
  have h0 : (Cursor.mk ptr 0 len).advance (0 * ws) = ⟨ptr, 0, len⟩ := by simp [Cursor.advance]
  rw [h0] at hA
  unfold scan
  generalize addWords m ws (8 * len / ws) ⟨ptr, 0, len⟩ (freshTable n0) A = R at hA hW
  obtain ⟨r, c⟩ := R
  simp only [Nat.zero_add] at hA hW ⊢
  obtain ⟨hs, ⟨he, hcur, hcnt⟩ | he | he⟩ := hA
  · rw [he]
    simp only []
    have hcnt' : ∀ x, countOf r.table.slots x = occurrences m ptr ws x.toNat (8 * len / ws) := fun x => by
      have := hcnt x
      have h0 : occurrences m ptr ws x.toNat 0 = 0 := rfl
      simp only [freshTable, countOf, h0] at this
      omega
    split
    · rename_i hz
      left
      refine ⟨he, fun x => ?_⟩
      rw [hcnt', buildCount, if_neg (by simp [hz])]
      rfl
    · rename_i hz
      have hm : 8 * len % ws < ws := Nat.mod_lt _ (by omega)
      have hdm := Nat.div_add_mod (8 * len) ws
      have hsum : (8 * len / ws) * ws + 8 * len % ws = 8 * len := by rw [Nat.mul_comm]; exact hdm
      have hrd := readBits_source m hp htop (b := 8 * len % ws) (a := (8 * len / ws) * ws)
        (by omega) (by omega) (by omega)
      simp only [addFinal]
      rw [hcur, hrd]
      simp only []
      have hcomp := completedWord_eq m h2 h64 hW hcnt'
      generalize completedWord r.table ws (8 * len % ws)
        (m.fieldAt (8 * ptr + (8 * len / ws) * ws) (8 * len % ws)) = W at hcomp ⊢
      rcases addOrIncrement_cases (A := r.alloc) (w := W) hW hlt with ⟨e1, hc⟩ | ⟨e, e1, -⟩
      · left
        refine ⟨e1, fun x => ?_⟩
        rw [hc.count, hcnt', buildCount]
        congr 1
        rw [← hcomp]
        simp [hz, BitVec.toNat_inj]
      · rcases (addOrIncrement_bounded (A := r.alloc) (w := W) hW hlt hs).2 with h | h | h
        · rw [h] at e1; cases e1
        · exact .inr (.inl h)
        · exact .inr (.inr h)
  · rw [he]; exact .inr (.inl he)
  · rw [he]; exact .inr (.inr he)

/-! ### A build as a sequence of adds -/

/-- Adding one list and then another is adding both, unless the first fails. -/
theorem addAll_append (maxSize : Nat) : ∀ (ws ws' : List U64) (t : Table) (A : Allocator),
    addAll maxSize (ws ++ ws') t A =
      match (addAll maxSize ws t A).error with
      | some _ => addAll maxSize ws t A
      | none => addAll maxSize ws' (addAll maxSize ws t A).table (addAll maxSize ws t A).alloc
  | [], ws', t, A => rfl
  | w :: rest, ws', t, A => by
    simp only [List.cons_append, addAll]
    cases he : (addOrIncrement t A w maxSize).error with
    | some e => simp only [he]
    | none => simpa only [] using addAll_append maxSize rest ws' _ _

/-- The word loop adds the whole words in turn, from word `i` of the source on. -/
theorem addWords_eq_addAll (m : Memory) {ptr len ws : Nat} (hp : ptr ≠ 0) (htop : ptr + len < 2 ^ 64)
    (h2 : 2 ≤ ws) (h64 : ws ≤ 64) : ∀ (n i : Nat) (t : Table) (A : Allocator),
    (i + n) * ws ≤ 8 * len →
    (addWords m ws n ((Cursor.mk ptr 0 len).advance (i * ws)) t A).1 =
      addAll (maxSize ws) ((List.range' i n).map fun i => BitVec.ofNat 64 (sourceWord m ptr ws i)) t A
  | 0, _, _, _, _ => rfl
  | n + 1, i, t, A, hn => by
    have hle : i * ws + ws ≤ 8 * len := by
      have : (i + (n + 1)) * ws = i * ws + ws + n * ws := by ring
      omega
    have hw : m.fieldAt (8 * ptr + i * ws) ws = sourceWord m ptr ws i := rfl
    simp only [addWords, readBits_source m hp htop (by omega) h64 hle, List.range'_succ, List.map_cons,
      addAll, hw]
    cases he : (addOrIncrement t A (BitVec.ofNat 64 (sourceWord m ptr ws i)) (maxSize ws)).error with
    | some e => rfl
    | none =>
      rw [show i * ws + ws = (i + 1) * ws by ring]
      exact addWords_eq_addAll m hp htop h2 h64 n (i + 1) _ _
        (by rw [show i + 1 + n = i + (n + 1) by omega]; exact hn)

/-- The scan of a fresh table within the capacity limit adds the words of the source in turn. -/
theorem scan_eq_addAll (m : Memory) {ptr len ws n0 : Nat} (A : Allocator) (hp : ptr ≠ 0)
    (htop : ptr + len < 2 ^ 64) (h2 : 2 ≤ ws) (h64 : ws ≤ 64) (hn1 : 1 ≤ n0) (hn2 : n0 ≤ maxSize ws) :
    scan m ptr len ws (freshTable n0) A =
      addAll (maxSize ws) (buildWords m ptr len ws) (freshTable n0) A := by
  have hlt := maxSize_lt ws
  have hwf := freshTable_wf hn1 (by omega)
  have hsz : (freshTable n0).size.toNat ≤ maxSize ws := by
    simp only [freshTable, BitVec.toNat_ofNat]
    rw [Nat.mod_eq_of_lt (by omega)]
    exact hn2
  have hdiv : (0 + 8 * len / ws) * ws ≤ 8 * len := by
    rw [Nat.zero_add]
    exact Nat.div_mul_le_self _ _
  have hA := addWords_cases m hp htop h2 h64 (8 * len / ws) 0 A hwf hsz hdiv
  have hE := addWords_eq_addAll m hp htop h2 h64 (8 * len / ws) 0 (freshTable n0) A hdiv
  have hW := addWords_wf m ws (8 * len / ws) ⟨ptr, 0, len⟩ A hwf
  have h0 : (Cursor.mk ptr 0 len).advance (0 * ws) = ⟨ptr, 0, len⟩ := by simp [Cursor.advance]
  rw [h0] at hA hE
  rw [buildWords, addAll_append, List.range_eq_range', ← hE]
  unfold scan
  generalize addWords m ws (8 * len / ws) ⟨ptr, 0, len⟩ (freshTable n0) A = R at hA hW
  obtain ⟨⟨err, T, B⟩, c⟩ := R
  cases err with
  | some e => rfl
  | none =>
    simp only [Nat.zero_add] at hA hW ⊢
    split
    · rfl
    · rename_i hz
      have hm : 8 * len % ws < ws := Nat.mod_lt _ (by omega)
      have hsum : (8 * len / ws) * ws + 8 * len % ws = 8 * len := by
        rw [Nat.mul_comm]
        exact Nat.div_add_mod (8 * len) ws
      obtain ⟨-, ⟨-, hcur, hcnt⟩ | h | h⟩ := hA
      · have hcomp := completedWord_eq m (ptr := ptr) (len := len) h2 h64 hW fun x => by
          have := hcnt x
          have h0 : occurrences m ptr ws x.toNat 0 = 0 := rfl
          simp only [freshTable, countOf, h0] at this
          omega
        simp only [addFinal, addAll]
        rw [hcur, readBits_source m hp htop (b := 8 * len % ws) (a := (8 * len / ws) * ws) (by omega)
          (by omega) (by omega), ← hcomp]
        simp only [BitVec.ofNat_toNat, BitVec.setWidth_eq]
        generalize addOrIncrement T B _ (maxSize ws) = r
        obtain ⟨err, T', B'⟩ := r
        cases err <;> rfl
      · cases h
      · cases h

/-! ### Builds whose requests are granted -/

/-- In a table with a slot for every id below its size, every id below it can be looked up. -/
theorem lookup_ok_at_limit {A : List (Nat × Slot)} {size : Nat} {id : U64} (hA : SlotsWF A size)
    (h2 : 2 ≤ size) (hids : ∀ e ∈ A, e.2.id.toNat < size) (hid : id.toNat < size) :
    ∃ j, lookupOrEmpty A size id false = .ok j := by
  cases hl : lookupOrEmpty A size id false with
  | ok j => exact ⟨j, rfl⟩
  | error e =>
    exfalso
    have hrun := ((lookupOrEmpty_eq_error_iff ..).1 hl).2
    have habs := absent_of_lookup_error hA hl
    have hhash : ∀ x : U64, x.toNat < size → hash x size = x.toNat := fun x hx => Nat.mod_eq_of_lt hx
    have hlen : size - 1 ≤ A.length := run_le_length (h := hash id size) hA (by omega) fun k hk hc =>
      hrun k hk (.inl hc)
    have hnd : (A.map fun e => e.2.id.toNat).Nodup := by
      rw [List.Nodup, List.pairwise_map]
      exact (pairwise_ids hA.1 hA.2.2.1).imp fun h hc => h (BitVec.eq_of_toNat_eq hc)
    have hnot : ∀ x ∈ A, x.2.id.toNat ≠ id.toNat := fun x hx hc => habs x hx (BitVec.eq_of_toNat_eq hc)
    have hsub : (A.map fun e => e.2.id.toNat).toFinset ⊆ (Finset.range size).erase id.toNat := by
      intro n hn
      simp only [List.mem_toFinset, List.mem_map] at hn
      obtain ⟨x, hx, rfl⟩ := hn
      exact Finset.mem_erase.2 ⟨hnot x hx, Finset.mem_range.2 (hids x hx)⟩
    have hcard : ((Finset.range size).erase id.toNat).card = size - 1 := by
      rw [Finset.card_erase_of_mem (Finset.mem_range.2 hid), Finset.card_range]
    have hcardA : (A.map fun e => e.2.id.toNat).toFinset.card = A.length := by
      rw [List.toFinset_card_of_nodup hnd, List.length_map]
    have heq := Finset.eq_of_subset_of_card_le hsub (by rw [hcardA, hcard]; exact hlen)
    have hA1 : A.length = size - 1 := by rw [← hcardA, heq, hcard]
    -- the id whose hash position lies just before that of `id` is there, so that position is occupied
    have hpred : (id.toNat + (size - 1)) % size ∈ (A.map fun e => e.2.id.toNat).toFinset := by
      rw [heq]
      refine Finset.mem_erase.2 ⟨fun hc => ?_, Finset.mem_range.2 (Nat.mod_lt _ (by omega))⟩
      rcases Nat.eq_zero_or_pos id.toNat with h0 | h0
      · rw [h0, Nat.zero_add, Nat.mod_eq_of_lt (by omega)] at hc
        omega
      · rw [show id.toNat + (size - 1) = (id.toNat - 1) + size by omega, Nat.add_mod_right,
          Nat.mod_eq_of_lt (by omega)] at hc
        omega
    simp only [List.mem_toFinset, List.mem_map] at hpred
    obtain ⟨x, hx, hxid⟩ := hpred
    have hchain := hA.2.2.2 x hx
    have hxhash := hhash x.2.id (hids x hx)
    have hxj : x.1 < size := (Sparse.mem_range hA.1 x hx).2
    have hocc : Occupied A ((id.toNat + (size - 1)) % size) := by
      rcases Nat.eq_zero_or_pos (probeDistance size x.2.id x.1) with h0 | h0
      · have h1 := at_probeDistance x.2.id hxj
        rw [h0, hxhash, Nat.add_zero, Nat.mod_eq_of_lt (hids x hx), hxid] at h1
        rw [h1]
        exact (occupied_iff hA).2 (by rw [slotAt_of_mem hA (sl := x.2) hx]; exact hx)
      · have h1 := hchain.2 0 h0
        rw [hxhash, Nat.add_zero, Nat.mod_eq_of_lt (hids x hx), hxid] at h1
        exact h1
    have hall : size ≤ A.length := run_le_length (h := hash id size) hA (Nat.le_refl _) fun k hk => by
      rcases Nat.lt_or_ge k (size - 1) with h | h
      · exact fun hc => hrun k h (.inl hc)
      · rw [show k = size - 1 by omega, hhash id hid]
        exact hocc
    omega

/-- The slots are enough for the words of width `ws` that a build can still see: either every word has
a slot of its own, or the table never fills. -/
structure BuildRoom (ws : Nat) (t : Table) : Prop where
  wf : t.WF
  size : t.size.toNat ≤ maxSize ws
  ids : ∀ e ∈ t.slots, e.2.id.toNat < 2 ^ ws
  room : 60 ≤ ws → t.slots.length + 2 ≤ 2 ^ 59

theorem maxSize_two {ws : Nat} (h : 2 ≤ ws) : 2 ≤ maxSize ws := by
  have : 2 ^ 1 ≤ 2 ^ min ws 59 := Nat.pow_le_pow_right (by omega) (by omega)
  exact this

/-- A table at the capacity limit has a place for every word. -/
theorem BuildRoom.lookup {ws : Nat} {t : Table} {w : U64} (h : BuildRoom ws t) (h2 : 2 ≤ ws)
    (hw : w.toNat < 2 ^ ws) (hmax : t.size.toNat = maxSize ws) :
    ∃ j, lookupOrEmpty t.slots t.size.toNat w false = .ok j := by
  rcases Nat.lt_or_ge ws 60 with h60 | h60
  · have e : maxSize ws = 2 ^ ws := by simp only [maxSize]; congr 1; omega
    exact lookup_ok_at_limit h.wf.2.2 (by rw [hmax]; exact maxSize_two h2)
      (fun x hx => by rw [hmax, e]; exact h.ids x hx) (by rw [hmax, e]; exact hw)
  · have e : maxSize ws = 2 ^ 59 := by simp only [maxSize]; congr 1; omega
    exact lookup_ok_of_room w false h.wf.2.2 (by have := h.room h60; omega)


theorem mem_count_pos {A : List (Nat × Slot)} {size : Nat} (hA : SlotsWF A size) {e : Nat × Slot}
    (he : e ∈ A) : 0 < countOf A e.2.id := by
  have h1 := slotAt_of_mem hA (sl := e.2) he
  have h2 := countOf_pos hA ((occupied_iff hA).2 (by rw [h1]; exact he))
  rwa [h1] at h2

/-- With room and every request granted an add succeeds, with at most one draw, which at least doubles
the size or reaches the limit. -/
theorem addOrIncrement_granted {ws d : Nat} {t : Table} {A : Allocator} {w : U64}
    (h : BuildRoom ws t) (h2 : 2 ≤ ws) (hw : w.toNat < 2 ^ ws)
    (hcnt : ∀ x, countOf t.slots x < 2 ^ 64 - 1) (hnum : t.slots.length < 2 ^ 64 - 1)
    (hd : maxSize ws ≤ t.size.toNat * 2 ^ d) (hA : A.Grants d) :
    (addOrIncrement t A w (maxSize ws)).error = none ∧
      ∃ d', (addOrIncrement t A w (maxSize ws)).alloc.Grants d' ∧
        maxSize ws ≤ (addOrIncrement t A w (maxSize ws)).table.size.toNat * 2 ^ d' := by
  have hlt := maxSize_lt ws
  have hM := maxSize_two h2
  have key : ∀ {t' : Table} {B : Allocator} {j : Nat}, t'.WF → t'.num = t.num →
      (∀ x, countOf t'.slots x = countOf t.slots x) →
      lookupOrEmpty t'.slots t'.size.toNat w false = .ok j →
      (countStep t' B j w).error = none ∧ (countStep t' B j w).alloc = B ∧
        (countStep t' B j w).table.size = t'.size := by
    intro t' B j hwf hn hc hl
    rcases countStep_cases (A := B) hwf hl with ⟨g1, -, g3, g4⟩ | ⟨-, g⟩
    · exact ⟨g1, g4, g3⟩
    · exfalso
      have hmaxc : maxCount.toNat = 2 ^ 64 - 1 := by decide
      rcases g with g | g
      · have hocc : Occupied t'.slots j := by
          intro h0
          rw [h0] at g
          exact absurd g (by decide)
        have h1 := hcnt (slotAt t'.slots j).id
        rw [← hc, countOf_of_mem hwf.2.2.1 hwf.2.2.2.2.1 ((occupied_iff hwf.2.2).1 hocc) rfl, g,
          hmaxc] at h1
        omega
      · have h1 := h.wf.2.1
        rw [← hn, g, hmaxc] at h1
        omega
  unfold addOrIncrement
  split
  · rename_i j hl
    obtain ⟨g1, g2, g3⟩ := key (B := A) h.wf rfl (fun _ => rfl) hl
    rw [g1, g2, g3]
    exact ⟨rfl, d, hA, hd⟩
  · rename_i e hl
    have hne : t.size.toNat ≠ maxSize ws := fun hc => by
      obtain ⟨j, hj⟩ := h.lookup h2 hw hc
      rw [hj] at hl
      cases hl
    have hs := h.size
    have h1 := h.wf.1
    rw [if_neg hne]
    cases d with
    | zero => omega
    | succ d =>
      obtain ⟨hans, hnext⟩ := hA
      obtain ⟨N, r1, r2, r3⟩ := resize_of_granted (n := min (2 * t.size.toNat) (maxSize ws)) h.wf
        (by omega) (by omega) (hans _)
      have hsz : (BitVec.ofNat 64 (min (2 * t.size.toNat) (maxSize ws))).toNat =
          min (2 * t.size.toNat) (maxSize ws) := by
        rw [BitVec.toNat_ofNat]
        exact Nat.mod_eq_of_lt (by omega)
      have hlenN : N.length = t.slots.length := by
        have := r2.2.1
        have h3 := h.wf.2.1
        simp only at this
        omega
      have hroom : BuildRoom ws ⟨BitVec.ofNat 64 (min (2 * t.size.toNat) (maxSize ws)), t.num, N⟩ :=
        ⟨r2, by simp only [hsz]; omega, fun x hx => by
          have hp := mem_count_pos r2.2.2 hx
          simp only [r3] at hp
          by_contra hc
          have h0 : countOf t.slots x.2.id = 0 := countOf_eq_zero fun y hy heq => hc (heq ▸ h.ids y hy)
          omega, fun h60 => by simp only [hlenN]; exact h.room h60⟩
      have hfound : ∃ j, lookupOrEmpty N (BitVec.ofNat 64 (min (2 * t.size.toNat) (maxSize ws))).toNat
          w false = .ok j := by
        rcases Nat.lt_or_ge (maxSize ws) (2 * t.size.toNat + 1) with hle | hge
        · exact hroom.lookup h2 hw (by simp only [hsz]; omega)
        · have hlen := slots_length_le h.wf.2.2.1
          refine lookup_ok_of_room w false r2.2.2 ?_
          simp only [hsz, hlenN]
          rcases Nat.eq_or_lt_of_le h1 with h1 | h1
          · have hnil : t.slots = [] := by
              rcases hsl : t.slots with _ | ⟨x, rest⟩
              · rfl
              · exfalso
                have := (h.wf.2.2.2.2.2 x (by rw [hsl]; simp)).1
                omega
            rw [hnil]
            simp only [List.length_nil]
            omega
          · omega
      obtain ⟨j, hj⟩ := hfound
      obtain ⟨g1, g2, g3⟩ := key (B := A.next) r2 rfl r3 hj
      simp only [r1, addRetry, hj]
      rw [g1, g2, g3]
      refine ⟨rfl, d, hnext, ?_⟩
      simp only [hsz]
      rcases Nat.le_total (2 * t.size.toNat) (maxSize ws) with hle | hge
      · rw [Nat.min_eq_left hle]
        calc maxSize ws ≤ t.size.toNat * 2 ^ (d + 1) := hd
          _ = 2 * t.size.toNat * 2 ^ d := by ring
      · rw [Nat.min_eq_right hge]
        exact Nat.le_mul_of_pos_right _ (Nat.two_pow_pos d)

theorem occurrences_le (m : Memory) (ptr ws w : Nat) : ∀ n, occurrences m ptr ws w n ≤ n
  | 0 => Nat.le_refl _
  | n + 1 => by
    have := occurrences_le m ptr ws w n
    simp only [occurrences]
    split <;> omega

theorem occurrences_big (m : Memory) {ptr ws w : Nat} (hw : 2 ^ ws ≤ w) :
    ∀ n, occurrences m ptr ws w n = 0
  | 0 => rfl
  | n + 1 => by
    have := occurrences_big m (ptr := ptr) hw n
    have h1 := m.fieldAt_lt (8 * ptr + n * ws) ws
    have h2 : sourceWord m ptr ws n ≠ w := by rw [sourceWord]; omega
    simp only [occurrences, this, if_neg h2]

/-- A table that has counted the first `i` words of the source. -/
structure Scanned (m : Memory) (ptr ws i d : Nat) (t : Table) (A : Allocator) : Prop where
  wf : t.WF
  size : t.size.toNat ≤ maxSize ws
  count : ∀ x, countOf t.slots x = occurrences m ptr ws x.toNat i
  length : t.slots.length ≤ i
  grants : A.Grants d
  growth : maxSize ws ≤ t.size.toNat * 2 ^ d

theorem Scanned.room {m : Memory} {ptr ws i d : Nat} {t : Table} {A : Allocator}
    (h : Scanned m ptr ws i d t A) (hi : 60 ≤ ws → i + 2 ≤ 2 ^ 59) : BuildRoom ws t where
  wf := h.wf
  size := h.size
  ids := fun e he => by
    have h1 := mem_count_pos h.wf.2.2 he
    rw [h.count] at h1
    by_contra hc
    rw [occurrences_big m (by omega)] at h1
    omega
  room := fun h60 => by have := h.length; have := hi h60; omega

/-- With every request granted the word loop succeeds, and keeps what `Scanned` says. -/
theorem addWords_granted (m : Memory) {ptr len ws : Nat} (hp : ptr ≠ 0) (htop : ptr + len < 2 ^ 64)
    (h2 : 2 ≤ ws) (h64 : ws ≤ 64) : ∀ (n i d : Nat) {t : Table} (A : Allocator),
    Scanned m ptr ws i d t A → (i + n) * ws ≤ 8 * len → (60 ≤ ws → i + n + 2 ≤ 2 ^ 59) →
    i + n < 2 ^ 64 - 1 →
    (addWords m ws n ((Cursor.mk ptr 0 len).advance (i * ws)) t A).1.error = none ∧
    (addWords m ws n ((Cursor.mk ptr 0 len).advance (i * ws)) t A).2 =
          (Cursor.mk ptr 0 len).advance ((i + n) * ws) ∧ ∃ d',
    Scanned m ptr ws (i + n) d' (addWords m ws n ((Cursor.mk ptr 0 len).advance (i * ws)) t A).1.table
      (addWords m ws n ((Cursor.mk ptr 0 len).advance (i * ws)) t A).1.alloc
  | 0, i, d, t, A, h, _, _, _ => ⟨rfl, rfl, d, h⟩
  | n + 1, i, d, t, A, h, hn, h60, hK => by
    have hle : i * ws + ws ≤ 8 * len := by
      have : (i + (n + 1)) * ws = i * ws + ws + n * ws := by ring
      omega
    have hadv : i * ws + ws = (i + 1) * ws := by ring
    have hfl := m.fieldAt_lt (8 * ptr + i * ws) ws
    have hword := toNat_ofNat_field m (8 * ptr + i * ws) h64
    simp only [addWords, readBits_source m hp htop (by omega) h64 hle]
    generalize hW : BitVec.ofNat 64 (m.fieldAt (8 * ptr + i * ws) ws) = W at hword ⊢
    have hg := addOrIncrement_granted (w := W) (h.room (fun h => by have := h60 h; omega)) h2
      (by rw [hword]; exact hfl)
      (fun x => by rw [h.count]; have := occurrences_le m ptr ws x.toNat i; omega)
      (by have := h.length; omega) h.growth h.grants
    have hb := addOrIncrement_bounded (A := A) (w := W) h.wf (maxSize_lt ws) h.size
    obtain ⟨e1, d', g1, g2⟩ := hg
    rcases addOrIncrement_cases (A := A) (w := W) h.wf (maxSize_lt ws) with ⟨-, hc⟩ | ⟨e, he, -⟩
    swap
    · rw [e1] at he; cases he
    have hsc : Scanned m ptr ws (i + 1) d' (addOrIncrement t A W (maxSize ws)).table
        (addOrIncrement t A W (maxSize ws)).alloc :=
      ⟨hc.wf, hb.1, fun x => by
        have heq : sourceWord m ptr ws i = x.toNat ↔ W = x := by
          rw [sourceWord, ← hword]; exact BitVec.toNat_inj
        rw [hc.count, h.count]
        simp only [occurrences, heq], by
        have h1 := hc.num
        have h2 := hc.wf.2.1
        have h3 := h.wf.2.1
        have h4 := h.length
        split at h1 <;> omega, g1, g2⟩
    rw [e1, hadv]
    have ih := addWords_granted m hp htop h2 h64 n (i + 1) d'
        (addOrIncrement t A W (maxSize ws)).alloc hsc
        (by have : i + 1 + n = i + (n + 1) := by omega
            rw [this]; exact hn) (fun h => by have := h60 h; omega) (by omega)
    rw [show i + 1 + n = i + (n + 1) by omega] at ih
    exact ih

/-- With every request granted the scan of a source below `2^61` bytes succeeds. -/
theorem scan_granted (m : Memory) {ptr len ws n0 : Nat} (A : Allocator) (hp : ptr ≠ 0)
    (htop : ptr + len < 2 ^ 64) (hlen : len < 2 ^ 61)
    (h2 : 2 ≤ ws) (h64 : ws ≤ 64) (hn1 : 1 ≤ n0) (hn2 : n0 ≤ maxSize ws) (hg : A.Grants 59) :
    (scan m ptr len ws (freshTable n0) A).error = none := by
  have hlt := maxSize_lt ws
  have hsz : (freshTable n0).size.toNat = n0 := by
    simp only [freshTable, BitVec.toNat_ofNat]
    rw [Nat.mod_eq_of_lt (by omega)]
  have hM : maxSize ws ≤ 2 ^ 59 := Nat.pow_le_pow_right (by omega) (Nat.min_le_right _ _)
  have hdiv : (0 + 8 * len / ws) * ws ≤ 8 * len := by
    rw [Nat.zero_add]; exact Nat.div_mul_le_self _ _
  have hK : 60 ≤ ws → 8 * len / ws + 3 ≤ 2 ^ 59 := fun h60 => by
    have : 8 * len / ws ≤ 8 * len / 60 := Nat.div_le_div_left h60 (by omega)
    omega
  have hK2 : 8 * len / ws ≤ 4 * len := by
    have : 8 * len / ws ≤ 8 * len / 2 := Nat.div_le_div_left h2 (by omega)
    omega
  have h0 : (Cursor.mk ptr 0 len).advance (0 * ws) = ⟨ptr, 0, len⟩ := by simp [Cursor.advance]
  have hgr : maxSize ws ≤ n0 * 2 ^ 59 := Nat.le_trans hM (Nat.le_mul_of_pos_left _ hn1)
  have hA := addWords_granted m hp htop h2 h64 (8 * len / ws) 0 59 (t := freshTable n0) A
    ⟨freshTable_wf hn1 (by omega), by rw [hsz]; exact hn2, fun x => rfl, Nat.le_refl _, hg,
      by rw [hsz]; exact hgr⟩ hdiv (fun h => by have := hK h; omega) (by omega)
  rw [h0] at hA
  unfold scan
  generalize addWords m ws (8 * len / ws) ⟨ptr, 0, len⟩ (freshTable n0) A = R at hA
  obtain ⟨r, c⟩ := R
  simp only [Nat.zero_add] at hA ⊢
  obtain ⟨he, hcur, d, hS⟩ := hA
  rw [he]
  simp only []
  split
  · exact he
  · rename_i hz
    have hm : 8 * len % ws < ws := Nat.mod_lt _ (by omega)
    have hsum : (8 * len / ws) * ws + 8 * len % ws = 8 * len := by
      rw [Nat.mul_comm]; exact Nat.div_add_mod (8 * len) ws
    simp only [addFinal]
    rw [hcur, readBits_source m hp htop (b := 8 * len % ws) (a := (8 * len / ws) * ws) (by omega)
      (by omega) (by omega)]
    simp only []
    have hcomp := completedWord_eq m h2 h64 hS.wf hS.count
    have hl := completion_bounds m (ptr := ptr) (len := len) h2
    refine (addOrIncrement_granted (hS.room fun h => by have := hK h; omega) h2 ?_ (fun x => ?_) ?_
      hS.growth hS.grants).1
    · rw [hcomp, chosenCompletion]; split
      · exact hl.2.1
      · exact hl.1
    · rw [hS.count]; have := occurrences_le m ptr ws x.toNat (8 * len / ws); omega
    · have := hS.length; omega

theorem Allocator.Grants.mono : ∀ {k n : Nat} {A : Allocator},
    n ≤ k → A.Grants k → A.Grants n
  | _, 0, _, _, _ => trivial
  | _ + 1, _ + 1, _, h, hg => ⟨hg.1, Allocator.Grants.mono (Nat.le_of_succ_le_succ h) hg.2⟩

end Sys2Proof.Machine
end

