-- ==== Sys2Proof/Laws/PerInstr.lean ====
section
/-!
SUPPORT. Statements made per command: its byte is well formed and decodes to it (30_encoding.md R45,
R46).
-/

namespace Sys2Proof

/-- The byte of a command is well formed, decodes to the command, and is the byte of no other. -/
def Laws.ByteOfCommand.Statement (i : Instr) : Prop :=
  i.WellFormed = true ∧ wellFormedByte (encodeByte i) = true ∧ decodeByte (encodeByte i) = .ok i ∧
    ∀ b, decodeByte b = .ok i → b = encodeByte i

theorem Laws.ByteOfCommand.readBits : Laws.ByteOfCommand.Statement .readBits :=
  ⟨rfl, rfl, rfl, by decide⟩
theorem Laws.ByteOfCommand.writeBits : Laws.ByteOfCommand.Statement .writeBits :=
  ⟨rfl, rfl, rfl, by decide⟩
theorem Laws.ByteOfCommand.hdrEncode : Laws.ByteOfCommand.Statement .hdrEncode :=
  ⟨rfl, rfl, rfl, by decide⟩
theorem Laws.ByteOfCommand.hdrDecode : Laws.ByteOfCommand.Statement .hdrDecode :=
  ⟨rfl, rfl, rfl, by decide⟩
theorem Laws.ByteOfCommand.ftInit : Laws.ByteOfCommand.Statement .ftInit :=
  ⟨rfl, rfl, rfl, by decide⟩
theorem Laws.ByteOfCommand.ftRelease : Laws.ByteOfCommand.Statement .ftRelease :=
  ⟨rfl, rfl, rfl, by decide⟩
theorem Laws.ByteOfCommand.ftLookup : Laws.ByteOfCommand.Statement .ftLookup :=
  ⟨rfl, rfl, rfl, by decide⟩
theorem Laws.ByteOfCommand.ftResize : Laws.ByteOfCommand.Statement .ftResize :=
  ⟨rfl, rfl, rfl, by decide⟩
theorem Laws.ByteOfCommand.ftAdd : Laws.ByteOfCommand.Statement .ftAdd :=
  ⟨rfl, rfl, rfl, by decide⟩
theorem Laws.ByteOfCommand.ftBuild : Laws.ByteOfCommand.Statement .ftBuild :=
  ⟨rfl, rfl, rfl, by decide⟩

end Sys2Proof
end

