-- ==== Sys2Proof/Laws/State.lean ====
section
/-!
SUPPORT. What each named update of the state does to each field, so that no proof unfolds a record
update. `State.raise` is 60_exceptions.md R144: only `STATUS` changes.
-/

namespace Sys2Proof.Machine.State

variable (s : State)

/-! ### `raise` -/

@[simp] theorem raise_cmd (e : ErrKind) : (s.raise e).cmd = s.cmd := rfl
@[simp] theorem raise_status (e : ErrKind) : (s.raise e).status = e.code := rfl
@[simp] theorem raise_ptr (e : ErrKind) : (s.raise e).ptr = s.ptr := rfl
@[simp] theorem raise_off (e : ErrKind) : (s.raise e).off = s.off := rfl
@[simp] theorem raise_cap (e : ErrKind) : (s.raise e).cap = s.cap := rfl
@[simp] theorem raise_val (e : ErrKind) : (s.raise e).val = s.val := rfl
@[simp] theorem raise_size (e : ErrKind) : (s.raise e).size = s.size := rfl
@[simp] theorem raise_len (e : ErrKind) : (s.raise e).len = s.len := rfl
@[simp] theorem raise_hws (e : ErrKind) : (s.raise e).hws = s.hws := rfl
@[simp] theorem raise_hpad (e : ErrKind) : (s.raise e).hpad = s.hpad := rfl
@[simp] theorem raise_huw (e : ErrKind) : (s.raise e).huw = s.huw := rfl
@[simp] theorem raise_tmax (e : ErrKind) : (s.raise e).tmax = s.tmax := rfl
@[simp] theorem raise_anm (e : ErrKind) : (s.raise e).anm = s.anm := rfl
@[simp] theorem raise_slot (e : ErrKind) : (s.raise e).slot = s.slot := rfl
@[simp] theorem raise_table (e : ErrKind) : (s.raise e).table = s.table := rfl
@[simp] theorem raise_mem (e : ErrKind) : (s.raise e).mem = s.mem := rfl
@[simp] theorem raise_alloc (e : ErrKind) : (s.raise e).alloc = s.alloc := rfl
@[simp] theorem raise_script (e : ErrKind) : (s.raise e).script = s.script := rfl

/-! ### `succeed` -/

@[simp] theorem succeed_cmd : s.succeed.cmd = s.cmd := rfl
@[simp] theorem succeed_status : s.succeed.status = statusOk := rfl
@[simp] theorem succeed_ptr : s.succeed.ptr = s.ptr := rfl
@[simp] theorem succeed_off : s.succeed.off = s.off := rfl
@[simp] theorem succeed_cap : s.succeed.cap = s.cap := rfl
@[simp] theorem succeed_val : s.succeed.val = s.val := rfl
@[simp] theorem succeed_size : s.succeed.size = s.size := rfl
@[simp] theorem succeed_len : s.succeed.len = s.len := rfl
@[simp] theorem succeed_hws : s.succeed.hws = s.hws := rfl
@[simp] theorem succeed_hpad : s.succeed.hpad = s.hpad := rfl
@[simp] theorem succeed_huw : s.succeed.huw = s.huw := rfl
@[simp] theorem succeed_tmax : s.succeed.tmax = s.tmax := rfl
@[simp] theorem succeed_anm : s.succeed.anm = s.anm := rfl
@[simp] theorem succeed_slot : s.succeed.slot = s.slot := rfl
@[simp] theorem succeed_table : s.succeed.table = s.table := rfl
@[simp] theorem succeed_mem : s.succeed.mem = s.mem := rfl
@[simp] theorem succeed_alloc : s.succeed.alloc = s.alloc := rfl
@[simp] theorem succeed_script : s.succeed.script = s.script := rfl

/-! ### `setCursor` -/

@[simp] theorem setCursor_cmd (c : Cursor) : (s.setCursor c).cmd = s.cmd := rfl
@[simp] theorem setCursor_status (c : Cursor) : (s.setCursor c).status = s.status := rfl
@[simp] theorem setCursor_ptr (c : Cursor) : (s.setCursor c).ptr = BitVec.ofNat 64 c.ptr := rfl
@[simp] theorem setCursor_off (c : Cursor) : (s.setCursor c).off = BitVec.ofNat 8 c.off := rfl
@[simp] theorem setCursor_cap (c : Cursor) : (s.setCursor c).cap = BitVec.ofNat 64 c.cap := rfl
@[simp] theorem setCursor_val (c : Cursor) : (s.setCursor c).val = s.val := rfl
@[simp] theorem setCursor_size (c : Cursor) : (s.setCursor c).size = s.size := rfl
@[simp] theorem setCursor_len (c : Cursor) : (s.setCursor c).len = s.len := rfl
@[simp] theorem setCursor_hws (c : Cursor) : (s.setCursor c).hws = s.hws := rfl
@[simp] theorem setCursor_hpad (c : Cursor) : (s.setCursor c).hpad = s.hpad := rfl
@[simp] theorem setCursor_huw (c : Cursor) : (s.setCursor c).huw = s.huw := rfl
@[simp] theorem setCursor_tmax (c : Cursor) : (s.setCursor c).tmax = s.tmax := rfl
@[simp] theorem setCursor_anm (c : Cursor) : (s.setCursor c).anm = s.anm := rfl
@[simp] theorem setCursor_slot (c : Cursor) : (s.setCursor c).slot = s.slot := rfl
@[simp] theorem setCursor_table (c : Cursor) : (s.setCursor c).table = s.table := rfl
@[simp] theorem setCursor_mem (c : Cursor) : (s.setCursor c).mem = s.mem := rfl
@[simp] theorem setCursor_alloc (c : Cursor) : (s.setCursor c).alloc = s.alloc := rfl
@[simp] theorem setCursor_script (c : Cursor) : (s.setCursor c).script = s.script := rfl

/-! ### `setHeader` -/

@[simp] theorem setHeader_cmd (h : Header) : (s.setHeader h).cmd = s.cmd := rfl
@[simp] theorem setHeader_status (h : Header) : (s.setHeader h).status = s.status := rfl
@[simp] theorem setHeader_ptr (h : Header) : (s.setHeader h).ptr = s.ptr := rfl
@[simp] theorem setHeader_off (h : Header) : (s.setHeader h).off = s.off := rfl
@[simp] theorem setHeader_cap (h : Header) : (s.setHeader h).cap = s.cap := rfl
@[simp] theorem setHeader_val (h : Header) : (s.setHeader h).val = s.val := rfl
@[simp] theorem setHeader_size (h : Header) : (s.setHeader h).size = s.size := rfl
@[simp] theorem setHeader_len (h : Header) : (s.setHeader h).len = s.len := rfl
@[simp] theorem setHeader_hws (h : Header) : (s.setHeader h).hws = BitVec.ofNat 8 h.wordSize := rfl
@[simp] theorem setHeader_hpad (h : Header) : (s.setHeader h).hpad = BitVec.ofNat 8 h.padBits := rfl
@[simp] theorem setHeader_huw (h : Header) : (s.setHeader h).huw = BitVec.ofNat 64 h.uniqueWords := rfl
@[simp] theorem setHeader_tmax (h : Header) : (s.setHeader h).tmax = s.tmax := rfl
@[simp] theorem setHeader_anm (h : Header) : (s.setHeader h).anm = s.anm := rfl
@[simp] theorem setHeader_slot (h : Header) : (s.setHeader h).slot = s.slot := rfl
@[simp] theorem setHeader_table (h : Header) : (s.setHeader h).table = s.table := rfl
@[simp] theorem setHeader_mem (h : Header) : (s.setHeader h).mem = s.mem := rfl
@[simp] theorem setHeader_alloc (h : Header) : (s.setHeader h).alloc = s.alloc := rfl
@[simp] theorem setHeader_script (h : Header) : (s.setHeader h).script = s.script := rfl

/-! ### `setVal` -/

@[simp] theorem setVal_cmd (v : Nat) : (s.setVal v).cmd = s.cmd := rfl
@[simp] theorem setVal_status (v : Nat) : (s.setVal v).status = s.status := rfl
@[simp] theorem setVal_ptr (v : Nat) : (s.setVal v).ptr = s.ptr := rfl
@[simp] theorem setVal_off (v : Nat) : (s.setVal v).off = s.off := rfl
@[simp] theorem setVal_cap (v : Nat) : (s.setVal v).cap = s.cap := rfl
@[simp] theorem setVal_val (v : Nat) : (s.setVal v).val = BitVec.ofNat 64 v := rfl
@[simp] theorem setVal_size (v : Nat) : (s.setVal v).size = s.size := rfl
@[simp] theorem setVal_len (v : Nat) : (s.setVal v).len = s.len := rfl
@[simp] theorem setVal_hws (v : Nat) : (s.setVal v).hws = s.hws := rfl
@[simp] theorem setVal_hpad (v : Nat) : (s.setVal v).hpad = s.hpad := rfl
@[simp] theorem setVal_huw (v : Nat) : (s.setVal v).huw = s.huw := rfl
@[simp] theorem setVal_tmax (v : Nat) : (s.setVal v).tmax = s.tmax := rfl
@[simp] theorem setVal_anm (v : Nat) : (s.setVal v).anm = s.anm := rfl
@[simp] theorem setVal_slot (v : Nat) : (s.setVal v).slot = s.slot := rfl
@[simp] theorem setVal_table (v : Nat) : (s.setVal v).table = s.table := rfl
@[simp] theorem setVal_mem (v : Nat) : (s.setVal v).mem = s.mem := rfl
@[simp] theorem setVal_alloc (v : Nat) : (s.setVal v).alloc = s.alloc := rfl
@[simp] theorem setVal_script (v : Nat) : (s.setVal v).script = s.script := rfl

/-! ### `setSlot` -/

@[simp] theorem setSlot_cmd (j : Nat) : (s.setSlot j).cmd = s.cmd := rfl
@[simp] theorem setSlot_status (j : Nat) : (s.setSlot j).status = s.status := rfl
@[simp] theorem setSlot_ptr (j : Nat) : (s.setSlot j).ptr = s.ptr := rfl
@[simp] theorem setSlot_off (j : Nat) : (s.setSlot j).off = s.off := rfl
@[simp] theorem setSlot_cap (j : Nat) : (s.setSlot j).cap = s.cap := rfl
@[simp] theorem setSlot_val (j : Nat) : (s.setSlot j).val = s.val := rfl
@[simp] theorem setSlot_size (j : Nat) : (s.setSlot j).size = s.size := rfl
@[simp] theorem setSlot_len (j : Nat) : (s.setSlot j).len = s.len := rfl
@[simp] theorem setSlot_hws (j : Nat) : (s.setSlot j).hws = s.hws := rfl
@[simp] theorem setSlot_hpad (j : Nat) : (s.setSlot j).hpad = s.hpad := rfl
@[simp] theorem setSlot_huw (j : Nat) : (s.setSlot j).huw = s.huw := rfl
@[simp] theorem setSlot_tmax (j : Nat) : (s.setSlot j).tmax = s.tmax := rfl
@[simp] theorem setSlot_anm (j : Nat) : (s.setSlot j).anm = s.anm := rfl
@[simp] theorem setSlot_slot (j : Nat) : (s.setSlot j).slot = BitVec.ofNat 64 j := rfl
@[simp] theorem setSlot_table (j : Nat) : (s.setSlot j).table = s.table := rfl
@[simp] theorem setSlot_mem (j : Nat) : (s.setSlot j).mem = s.mem := rfl
@[simp] theorem setSlot_alloc (j : Nat) : (s.setSlot j).alloc = s.alloc := rfl
@[simp] theorem setSlot_script (j : Nat) : (s.setSlot j).script = s.script := rfl

/-! ### `setMem` -/

@[simp] theorem setMem_cmd (m : Memory) : (s.setMem m).cmd = s.cmd := rfl
@[simp] theorem setMem_status (m : Memory) : (s.setMem m).status = s.status := rfl
@[simp] theorem setMem_ptr (m : Memory) : (s.setMem m).ptr = s.ptr := rfl
@[simp] theorem setMem_off (m : Memory) : (s.setMem m).off = s.off := rfl
@[simp] theorem setMem_cap (m : Memory) : (s.setMem m).cap = s.cap := rfl
@[simp] theorem setMem_val (m : Memory) : (s.setMem m).val = s.val := rfl
@[simp] theorem setMem_size (m : Memory) : (s.setMem m).size = s.size := rfl
@[simp] theorem setMem_len (m : Memory) : (s.setMem m).len = s.len := rfl
@[simp] theorem setMem_hws (m : Memory) : (s.setMem m).hws = s.hws := rfl
@[simp] theorem setMem_hpad (m : Memory) : (s.setMem m).hpad = s.hpad := rfl
@[simp] theorem setMem_huw (m : Memory) : (s.setMem m).huw = s.huw := rfl
@[simp] theorem setMem_tmax (m : Memory) : (s.setMem m).tmax = s.tmax := rfl
@[simp] theorem setMem_anm (m : Memory) : (s.setMem m).anm = s.anm := rfl
@[simp] theorem setMem_slot (m : Memory) : (s.setMem m).slot = s.slot := rfl
@[simp] theorem setMem_table (m : Memory) : (s.setMem m).table = s.table := rfl
@[simp] theorem setMem_mem (m : Memory) : (s.setMem m).mem = m := rfl
@[simp] theorem setMem_alloc (m : Memory) : (s.setMem m).alloc = s.alloc := rfl
@[simp] theorem setMem_script (m : Memory) : (s.setMem m).script = s.script := rfl

/-! ### `setTable` -/

@[simp] theorem setTable_cmd (t : Option Table) : (s.setTable t).cmd = s.cmd := rfl
@[simp] theorem setTable_status (t : Option Table) : (s.setTable t).status = s.status := rfl
@[simp] theorem setTable_ptr (t : Option Table) : (s.setTable t).ptr = s.ptr := rfl
@[simp] theorem setTable_off (t : Option Table) : (s.setTable t).off = s.off := rfl
@[simp] theorem setTable_cap (t : Option Table) : (s.setTable t).cap = s.cap := rfl
@[simp] theorem setTable_val (t : Option Table) : (s.setTable t).val = s.val := rfl
@[simp] theorem setTable_size (t : Option Table) : (s.setTable t).size = s.size := rfl
@[simp] theorem setTable_len (t : Option Table) : (s.setTable t).len = s.len := rfl
@[simp] theorem setTable_hws (t : Option Table) : (s.setTable t).hws = s.hws := rfl
@[simp] theorem setTable_hpad (t : Option Table) : (s.setTable t).hpad = s.hpad := rfl
@[simp] theorem setTable_huw (t : Option Table) : (s.setTable t).huw = s.huw := rfl
@[simp] theorem setTable_tmax (t : Option Table) : (s.setTable t).tmax = s.tmax := rfl
@[simp] theorem setTable_anm (t : Option Table) : (s.setTable t).anm = s.anm := rfl
@[simp] theorem setTable_slot (t : Option Table) : (s.setTable t).slot = s.slot := rfl
@[simp] theorem setTable_table (t : Option Table) : (s.setTable t).table = t := rfl
@[simp] theorem setTable_mem (t : Option Table) : (s.setTable t).mem = s.mem := rfl
@[simp] theorem setTable_alloc (t : Option Table) : (s.setTable t).alloc = s.alloc := rfl
@[simp] theorem setTable_script (t : Option Table) : (s.setTable t).script = s.script := rfl

/-! ### `setAlloc` -/

@[simp] theorem setAlloc_cmd (A : Allocator) : (s.setAlloc A).cmd = s.cmd := rfl
@[simp] theorem setAlloc_status (A : Allocator) : (s.setAlloc A).status = s.status := rfl
@[simp] theorem setAlloc_ptr (A : Allocator) : (s.setAlloc A).ptr = s.ptr := rfl
@[simp] theorem setAlloc_off (A : Allocator) : (s.setAlloc A).off = s.off := rfl
@[simp] theorem setAlloc_cap (A : Allocator) : (s.setAlloc A).cap = s.cap := rfl
@[simp] theorem setAlloc_val (A : Allocator) : (s.setAlloc A).val = s.val := rfl
@[simp] theorem setAlloc_size (A : Allocator) : (s.setAlloc A).size = s.size := rfl
@[simp] theorem setAlloc_len (A : Allocator) : (s.setAlloc A).len = s.len := rfl
@[simp] theorem setAlloc_hws (A : Allocator) : (s.setAlloc A).hws = s.hws := rfl
@[simp] theorem setAlloc_hpad (A : Allocator) : (s.setAlloc A).hpad = s.hpad := rfl
@[simp] theorem setAlloc_huw (A : Allocator) : (s.setAlloc A).huw = s.huw := rfl
@[simp] theorem setAlloc_tmax (A : Allocator) : (s.setAlloc A).tmax = s.tmax := rfl
@[simp] theorem setAlloc_anm (A : Allocator) : (s.setAlloc A).anm = s.anm := rfl
@[simp] theorem setAlloc_slot (A : Allocator) : (s.setAlloc A).slot = s.slot := rfl
@[simp] theorem setAlloc_table (A : Allocator) : (s.setAlloc A).table = s.table := rfl
@[simp] theorem setAlloc_mem (A : Allocator) : (s.setAlloc A).mem = s.mem := rfl
@[simp] theorem setAlloc_alloc (A : Allocator) : (s.setAlloc A).alloc = A := rfl
@[simp] theorem setAlloc_script (A : Allocator) : (s.setAlloc A).script = s.script := rfl

/-! ### `reservedByte` -/

@[simp] theorem reservedByte_cmd : s.reservedByte.cmd = s.cmd := rfl
@[simp] theorem reservedByte_status : s.reservedByte.status = ErrKind.invalidValue.code := rfl
@[simp] theorem reservedByte_ptr : s.reservedByte.ptr = s.ptr := rfl
@[simp] theorem reservedByte_off : s.reservedByte.off = s.off := rfl
@[simp] theorem reservedByte_cap : s.reservedByte.cap = s.cap := rfl
@[simp] theorem reservedByte_val : s.reservedByte.val = s.val := rfl
@[simp] theorem reservedByte_size : s.reservedByte.size = s.size := rfl
@[simp] theorem reservedByte_len : s.reservedByte.len = s.len := rfl
@[simp] theorem reservedByte_hws : s.reservedByte.hws = s.hws := rfl
@[simp] theorem reservedByte_hpad : s.reservedByte.hpad = s.hpad := rfl
@[simp] theorem reservedByte_huw : s.reservedByte.huw = s.huw := rfl
@[simp] theorem reservedByte_tmax : s.reservedByte.tmax = s.tmax := rfl
@[simp] theorem reservedByte_anm : s.reservedByte.anm = s.anm := rfl
@[simp] theorem reservedByte_slot : s.reservedByte.slot = s.slot := rfl
@[simp] theorem reservedByte_table : s.reservedByte.table = s.table := rfl
@[simp] theorem reservedByte_mem : s.reservedByte.mem = s.mem := rfl
@[simp] theorem reservedByte_alloc : s.reservedByte.alloc = s.alloc := rfl
@[simp] theorem reservedByte_script : s.reservedByte.script = s.script := rfl

/-! ### `hostWrite` -/

variable (r : Reg) (v : Nat)

@[simp] theorem hostWrite_table : (s.hostWrite r v).table = s.table := by cases r <;> rfl
@[simp] theorem hostWrite_mem : (s.hostWrite r v).mem = s.mem := by cases r <;> rfl
@[simp] theorem hostWrite_alloc : (s.hostWrite r v).alloc = s.alloc := by cases r <;> rfl
@[simp] theorem hostWrite_script : (s.hostWrite r v).script = s.script := by cases r <;> rfl
@[simp] theorem hostWrite_status : (s.hostWrite r v).status = s.status := by cases r <;> rfl

end Sys2Proof.Machine.State
end

