-- ==== Sys2Proof/Laws/Step.lean ====
section
/-!
SUPPORT. Everything one step can do, by the host's next action (10_state.md R10).
-/

namespace Sys2Proof.Machine

/-- A step that answers a next state is one of five things: CORE is idle and nothing changes; the host
writes a register other than `CMD`; the host stores bytes that fit; reset; or a command byte runs. -/
theorem step_cases {s t : State} (h : step s = .next t) :
    (s.script = [] ∧ t = s) ∨
    (∃ r v rest, r ≠ .cmd ∧ s.script = .write r v :: rest ∧
      t = ({ s with script := rest }).hostWrite r v) ∨
    (∃ addr bytes rest, s.script = .store addr bytes :: rest ∧ storeFits addr bytes = true ∧
      t = { s with script := rest, mem := s.mem.hostStore addr.toNat bytes }) ∨
    (∃ rest, s.script = .reset :: rest ∧ t = ({ s with script := rest }).afterReset) ∨
    (∃ v rest, s.script = .write .cmd v :: rest ∧
      runByte (BitVec.ofNat 8 v) { s with script := rest, cmd := BitVec.ofNat 8 v } = .next t) := by
  unfold step State.takeAction at h
  split at h
  · rename_i he
    split at he <;> simp_all
    split at he <;> simp_all
  · rename_i s' he
    cases h
    split at he
    · cases he
    · cases he
    · rename_i r v rest hr hs
      cases he
      exact .inr (.inl ⟨r, v, rest, hr, hs, rfl⟩)
    · rename_i addr bytes rest hs
      split at he
      · rename_i hf
        cases he
        exact .inr (.inr (.inl ⟨addr, bytes, rest, hs, hf, rfl⟩))
      · cases he
    · rename_i rest hs
      cases he
      exact .inr (.inr (.inr (.inl ⟨rest, hs, rfl⟩)))
  · rename_i b s' he
    split at he
    · cases he
    · rename_i v rest hs
      cases he
      exact .inr (.inr (.inr (.inr ⟨v, rest, hs, h⟩)))
    · cases he
    · split at he <;> cases he
    · cases he
  · cases h

end Sys2Proof.Machine
end

