-- ==== Sys2Proof/Tests/Slice0.lean ====
section
/-!
SUPPORT. Small tests against the vectors of 95_test_vectors.md, and a witness for the hypotheses of
each statement of Certificates/Slice0/Obligations.lean.
-/

namespace Sys2Proof.Tests

open Sys2Proof.Machine

/-! ### Helpers -/

/-- Bytes at ascending addresses. -/
def bytesAt (a : Nat) (l : List Nat) : Memory := l.zipIdx.map fun (b, i) => (a + i, BitVec.ofNat 8 b)

/-- A table from its size and its occupied slots `(index, id, count)`. -/
def tableOf (size : Nat) (l : List (Nat × Nat × Nat)) : Table :=
  ⟨BitVec.ofNat 64 size, BitVec.ofNat 64 l.length,
    l.map fun (i, id, c) => (i, ⟨BitVec.ofNat 64 id, BitVec.ofNat 64 c⟩)⟩

/-- A state with memory at 0x1000, a cursor, a value and a size. -/
def cursorState (bytes : List Nat) (ptr off cap val size : Nat) : State :=
  { State.reset with
    mem := bytesAt 0x1000 bytes, ptr := BitVec.ofNat 64 ptr, off := BitVec.ofNat 8 off,
    cap := BitVec.ofNat 64 cap, val := BitVec.ofNat 64 val, size := BitVec.ofNat 8 size }

/-- A state with memory at 0x1000, a header and a capacity. -/
def headerState (bytes : List Nat) (ws pad uw cap : Nat) : State :=
  { State.reset with
    mem := bytesAt 0x1000 bytes, ptr := 0x1000, cap := BitVec.ofNat 64 cap,
    hws := BitVec.ofNat 8 ws, hpad := BitVec.ofNat 8 pad, huw := BitVec.ofNat 64 uw }

/-- A state with a table, a word, a size limit, a length and the allocator's answers. -/
def tableState (t : Option Table) (val tmax len : Nat) (answers : List Bool) : State :=
  { State.reset with
    table := t, val := BitVec.ofNat 64 val, tmax := BitVec.ofNat 64 tmax, len := BitVec.ofNat 64 len,
    alloc := ⟨answers, 0⟩ }

/-- A state with a source at 0x2000 and the allocator's answers. -/
def buildState (bytes : List Nat) (ws : Nat) (answers : List Bool) : State :=
  { State.reset with
    mem := bytesAt 0x2000 bytes, ptr := 0x2000, len := BitVec.ofNat 64 bytes.length,
    size := BitVec.ofNat 8 ws, alloc := ⟨answers, 0⟩ }

/-- Whether an outcome is a next state. -/
def isNext : Host.Outcome State Fault Refusal → Bool
  | .next _ => true
  | _ => false

/-- The next state of an outcome, if it is one. -/
def nextOf (s : State) : Host.Outcome State Fault Refusal → State
  | .next t => t
  | _ => s

theorem eq_next {s : State} {o : Host.Outcome State Fault Refusal} (h : isNext o = true) :
    o = .next (nextOf s o) := by
  cases o <;> simp_all [isNext, nextOf]

/-- The state a command leaves. -/
def after (i : Instr) (s : State) : State := nextOf s (exec i s)

/-! ### Encoding (30_encoding.md R45, R46, R48): words written out from the table -/

theorem test_decode_read_bits : decodeTableWord 8 0b00000001 = some .readBits := by decide
theorem test_decode_write_bits : decodeTableWord 8 0b00000010 = some .writeBits := by decide
theorem test_decode_hdr_encode : decodeTableWord 8 0b00000011 = some .hdrEncode := by decide
theorem test_decode_hdr_decode : decodeTableWord 8 0b00000100 = some .hdrDecode := by decide
theorem test_decode_ft_init : decodeTableWord 8 0b00000101 = some .ftInit := by decide
theorem test_decode_ft_release : decodeTableWord 8 0b00000110 = some .ftRelease := by decide
theorem test_decode_ft_lookup : decodeTableWord 8 0b00000111 = some .ftLookup := by decide
theorem test_decode_ft_resize : decodeTableWord 8 0b00001000 = some .ftResize := by decide
theorem test_decode_ft_add : decodeTableWord 8 0b00001001 = some .ftAdd := by decide
theorem test_decode_ft_build : decodeTableWord 8 0b00001010 = some .ftBuild := by decide

/-- D10.1, D10.2, D10.4: reserved bytes are rejected by name. -/
theorem test_decode_reserved :
    decode [0x00#8] = .error .reservedZero ∧ decode [0x0B#8] = .error .reservedNumber ∧
      decode [0x11#8] = .error .reservedField ∧ decode [] = .error .noByte := by decide

/-- Each check of a command byte refuses a byte that only it refuses. -/
theorem test_wellformed_smoke :
    wellFormedByte 0x01 = true ∧
    (rsvIsZero 0x11 = false ∧ opIsNotZero 0x11 = true ∧ opIsListed 0x11 = true ∧
      wellFormedByte 0x11 = false) ∧
    (rsvIsZero 0x00 = true ∧ opIsNotZero 0x00 = false ∧ opIsListed 0x00 = true ∧
      wellFormedByte 0x00 = false) ∧
    (rsvIsZero 0x0B = true ∧ opIsNotZero 0x0B = true ∧ opIsListed 0x0B = false ∧
      wellFormedByte 0x0B = false) := by decide

/-! ### Vectors of 95_test_vectors.md -/

/-- D1.6: the largest footprint, 9 bytes. -/
theorem test_read_bits_nine_bytes :
    (fun t : State => (t.status, t.val, t.ptr, t.off, t.cap))
      (after .readBits (cursorState [0x96, 0xA5, 0x3C, 0xF0, 0x0F, 0x81, 0x7E, 0xFF, 0x00, 0x12]
        0x1000 7 9 0 64)) = (0, 0x529e7807c0bf7f80, 0x1008, 7, 1) := by decide

/-- D1.17: `NullPointer` is reported before `InvalidValue`. -/
theorem test_read_bits_null_first :
    (after .readBits (cursorState [0x96] 0 8 10 0 0)).status = 1 := by decide

/-- D2.1: the bits after the field are kept (90_conflicts.md C1). -/
theorem test_write_bits_keeps_trailing :
    (fun t : State => (t.status, t.mem, t.ptr, t.off, t.cap))
      (after .writeBits (cursorState [0xA5] 0x1000 0 1 0x08 5)) =
      (0, bytesAt 0x1000 [0x45], 0x1000, 5, 1) := by decide

/-- D2.11: nine bytes, 7 bits kept in front and 1 behind. -/
theorem test_write_bits_nine_bytes :
    (after .writeBits (cursorState (List.replicate 10 0xFF) 0x1000 7 9 0 64)).mem =
      bytesAt 0x1000 [0xFE, 0, 0, 0, 0, 0, 0, 0, 0x01, 0xFF] := by decide

/-- D4.1: the source's header example. -/
theorem test_hdr_encode_example :
    (fun t : State => (t.status, t.mem, t.ptr, t.off, t.cap))
      (after .hdrEncode (headerState [0xFF, 0xFF] 2 1 3 2)) =
      (0, bytesAt 0x1000 [0x0B, 0x7F], 0x1001, 1, 1) := by decide

/-- D4.7: word size 64 is stored as 0. -/
theorem test_hdr_encode_64 :
    (after .hdrEncode (headerState (List.replicate 12 0xFF) 64 63 0xffffffffffffffff 10)).mem =
      bytesAt 0x1000 [0x03, 0xFF, 0xFF, 0xFF, 0xFF, 0xFF, 0xFF, 0xFF, 0xFF, 0xEF, 0xFF, 0xFF] := by
  decide

/-- D5.17: word size 63. -/
theorem test_hdr_decode_63 :
    (fun t : State => (t.status, t.hws, t.hpad, t.huw, t.ptr, t.off, t.cap))
      (after .hdrDecode (headerState [0xFD, 0xF7, 0xFF, 0xFF, 0xFF, 0xFF, 0xFF, 0xFF, 0xFF, 0xE0]
        9 9 9 10)) = (0, 63, 31, 0x4000000000000000, 0x1009, 3, 1) := by decide

/-- D5.14: the smallest illegal pad field of word size 5. -/
theorem test_hdr_decode_bad_pad :
    (after .hdrDecode (headerState [0x16, 0xFF] 9 9 9 2)).status = 4 := by decide

/-- The example of 42_frequency_table.md R102. -/
theorem test_ft_init_example :
    (after .ftInit (tableState none 0 0 4 [true])).table = some (tableOf 4 []) := by decide

/-- D10.8: `FT_RELEASE` right after reset, as the host's first command. -/
theorem test_ft_release_after_reset :
    (nextOf State.reset (step (State.reset.withFetchWord 8 0x06))).status = 1 := by decide

/-- D6.7: slot 0 is empty but is never examined. -/
theorem test_ft_lookup_misses_last_slot :
    (after .ftLookup (tableState (some (tableOf 4 [(1, 1, 1), (2, 5, 1), (3, 9, 1)])) 13 0 0
      [])).status = 3 := by decide

/-- D6.22: the probe wraps. -/
theorem test_ft_lookup_wraps :
    (after .ftLookup (tableState (some (tableOf 5 [(0, 12, 1), (3, 3, 1), (4, 8, 1)])) 13 0 0
      [])).slot = 1 := by decide

/-- D7.7: old slots are rehashed by ascending index. -/
theorem test_ft_resize_order :
    (after .ftResize (tableState (some (tableOf 4 [(0, 9, 3), (1, 1, 7), (2, 5, 2)])) 0 0 8
      [true])).table = some (tableOf 8 [(1, 9, 3), (2, 1, 7), (5, 5, 2)]) := by decide

/-- D7.13: a refused allocation leaves the table intact. -/
theorem test_ft_resize_refused :
    (fun t : State => (t.status, t.table))
      (after .ftResize (tableState (some (tableOf 4 [(1, 1, 7)])) 0 0 8 [false])) =
      (3, some (tableOf 4 [(1, 1, 7)])) := by decide

/-- D8.8: the retry fails after the resize, which persists. -/
theorem test_ft_add_retry_fails :
    (fun t : State => (t.status, t.table))
      (after .ftAdd (tableState (some (tableOf 2 [(0, 0, 1), (1, 1, 1)])) 3 3 0 [true])) =
      (3, some (tableOf 3 [(0, 0, 1), (1, 1, 1)])) := by decide

/-- D8.12: a resize although slot 0 was empty. -/
theorem test_ft_add_grows :
    (fun t : State => (t.status, t.table))
      (after .ftAdd (tableState (some (tableOf 4 [(1, 1, 1), (2, 5, 1), (3, 9, 1)])) 13 8 0
        [true])) = (0, some (tableOf 8 [(1, 1, 1), (2, 9, 1), (5, 5, 1), (6, 13, 1)])) := by decide

/-- D9.1: both completions present, the high one has more. -/
theorem test_ft_build_high_completion :
    (fun t : State => (t.status, t.hws, t.hpad, t.huw, t.table))
      (ftBuildFrom 2 (buildState [0xFE, 0x05] 3 [true, true, true])) =
      (0, 3, 2, 4, some (tableOf 4 [(0, 4, 1), (1, 0, 1), (2, 2, 1), (3, 7, 3)])) := by decide

/-- D9.37: a resize refused in the middle leaves no table and the header registers. -/
theorem test_ft_build_fails_late :
    (fun t : State => (t.status, t.hws, t.table))
      (ftBuildFrom 2 { buildState [0xFE, 0x05] 3 [true, false] with
        table := some (tableOf 4 []), hws := 9 }) = (3, 9, none) := by decide

/-! ### Witnesses for the hypotheses of the statements -/

theorem witness_DecodeUndoesEncode : decode [0x0A#8] = .ok (.ftBuild, []) := by decide

theorem witness_ReservedBytesExecuteNothing :
    (0x00#8).toNat = 0 ∧ 10 < (0x0B#8).toNat ∧ 10 < (0xFF#8).toNat := by decide

theorem witness_StepRunsDecodedCommand :
    ∃ (s : State) (v : Nat) (rest : List Action) (i : Instr),
      s.script = .write .cmd v :: rest ∧ decode [BitVec.ofNat 8 v] = .ok (i, []) :=
  ⟨{ State.reset with script := [.write .cmd 0x101] }, 0x101, [], .readBits, rfl, by decide⟩

theorem witness_StepOnReservedByte :
    ∃ (s : State) (v : Nat) (rest : List Action) (r : Reject),
      s.script = .write .cmd v :: rest ∧ decode [BitVec.ofNat 8 v] = .error r :=
  ⟨{ State.reset with script := [.write .cmd 0x1A] }, 0x1A, [], .reservedField, rfl, by decide⟩

theorem witness_IdleStepChangesNothing : State.reset.script = [] := rfl

theorem witness_HostWriteSetsOneRegister :
    ∃ (s : State) (r : Reg) (v : Nat) (rest : List Action), r ≠ .cmd ∧ s.script = .write r v :: rest :=
  ⟨{ State.reset with script := [.write .status 0x77] }, .status, 0x77, [], by decide, rfl⟩

theorem witness_HostStorePlacesBytes :
    (∃ (s : State) (addr : U64) (bytes : List U8) (rest : List Action),
      s.script = .store addr bytes :: rest ∧ addr.toNat + bytes.length ≤ 2 ^ 64) ∧
    (∃ (s : State) (addr : U64) (bytes : List U8) (rest : List Action),
      s.script = .store addr bytes :: rest ∧ 2 ^ 64 < addr.toNat + bytes.length) :=
  ⟨⟨{ State.reset with script := [.store 0xffffffffffffffff [1]] }, 0xffffffffffffffff, [1], [], rfl,
      by decide⟩,
    ⟨{ State.reset with script := [.store 0xffffffffffffffff [1, 2]] }, 0xffffffffffffffff, [1, 2], [],
      rfl, by decide⟩⟩

theorem witness_ResetClearsRegisters :
    ∃ (s : State) (rest : List Action), s.script = .reset :: rest :=
  ⟨{ cursorState [0xA5] 0x1000 0 1 8 5 with script := [.reset] }, [], rfl⟩

/-- A state whose next step writes a field to memory. -/
def writingState : State := (cursorState [0xA5] 0x1000 0 1 8 5).withFetchWord 8 0x02

theorem witness_StepKeepsMemoryCanonical :
    ∃ s t : State, s.mem.wf = true ∧ step s = .next t ∧ t.mem ≠ s.mem :=
  ⟨writingState, nextOf writingState (step writingState), by decide, eq_next (by decide), by decide⟩

/-- A state whose next step adds a word to a well-formed table. -/
def addingState : State :=
  (tableState (some (tableOf 4 [(1, 1, 1), (2, 5, 1), (3, 9, 1)])) 13 8 0 [true]).withFetchWord 8 0x09

theorem witness_StepKeepsTableInvariants :
    ∃ s t : State, s.TableInv ∧ s.table ≠ none ∧ step s = .next t ∧ t.table ≠ s.table :=
  ⟨addingState, nextOf addingState (step addingState),
    fun t ht => by cases ht; decide, by decide, eq_next (by decide), by decide⟩

theorem witness_StepKeepsStatusLegal : ∃ s t : State, s.StatusInv ∧ step s = .next t :=
  ⟨writingState, nextOf writingState (step writingState), by decide, eq_next (by decide)⟩

theorem witness_StepStopsOnlyAtBadStore : ∃ (s : State) (f : Fault), step s = .fault f :=
  ⟨{ State.reset with script := [.store 0xffffffffffffffff [1, 2]] }, .storePastTop, rfl⟩

/-- Hypotheses of the form 'a command answers a next state with this status'. -/
theorem ends_in (i : Instr) (s : State) (c : U8) (h : isNext (exec i s) = true)
    (hc : (after i s).status = c) : ∃ t, exec i s = .next t ∧ t.status = c :=
  ⟨after i s, eq_next h, hc⟩

theorem witness_FailureChangesOnlyStatus :
    (∃ t, exec .writeBits (cursorState [0xA5] 0x1000 0 0 8 5) = .next t ∧ t.status = 3) ∧
    (∃ t, exec .ftAdd (tableState none 6 2 0 []) = .next t ∧ t.status = 1) :=
  ⟨ends_in _ _ _ (by decide) (by decide), ends_in _ _ _ (by decide) (by decide)⟩

theorem witness_CommandsRaiseOnlyListedKinds :
    ∃ t, exec .hdrDecode (headerState [0x00, 0x00] 9 9 9 2) = .next t ∧ t.status = 4 :=
  ends_in _ _ _ (by decide) (by decide)

theorem witness_ReadingCommandsKeepMemory :
    ∃ t, exec .readBits (cursorState [0xA5] 0x1000 0 1 8 5) = .next t ∧ t.status = 0 :=
  ends_in _ _ _ (by decide) (by decide)

theorem witness_WritingCommandsFrame :
    (∃ t, exec .writeBits (cursorState [0xA5] 0x1000 0 1 8 5) = .next t ∧ t.status = 0) ∧
    (∃ t, exec .hdrEncode (headerState [0xFF, 0xFF] 2 1 3 2) = .next t ∧ t.status = 0) :=
  ⟨ends_in _ _ _ (by decide) (by decide), ends_in _ _ _ (by decide) (by decide)⟩

/-- One byte of `00 01 10 11`, the source of D9.14, with every request granted. -/
def smallBuild : State := buildState [0x1B] 2 [true, true, true]

/-- D9.14 for every starting capacity `INIT_SIZE(2)` may have. -/
theorem smallBuild_ok : ∀ n0, n0 ≤ 4 → 1 ≤ n0 → (ftBuildFrom n0 smallBuild).status = 0 := by decide

theorem smallBuild_completes : ∃ t, exec .ftBuild smallBuild = .next t ∧ t.status = 0 :=
  ⟨_, rfl, smallBuild_ok _ (initSize_bounds 2).2 (initSize_bounds 2).1⟩

theorem witness_ReadingCommandsFrame :
    (∃ t, exec .readBits (cursorState [0xA5] 0x1000 0 1 8 5) = .next t ∧ t.status = 0) ∧
    (∃ t, exec .hdrDecode (headerState [0x0B, 0x00] 9 9 9 2) = .next t ∧ t.status = 0) ∧
    (∃ t, exec .ftInit (tableState none 0 0 4 [true]) = .next t ∧ t.status = 0) ∧
    (∃ t, exec .ftRelease (tableState (some (tableOf 4 [])) 0 0 0 []) = .next t ∧ t.status = 0) ∧
    (∃ t, exec .ftResize (tableState (some (tableOf 4 [])) 0 0 8 [true]) = .next t ∧ t.status = 0) ∧
    (∃ t, exec .ftAdd (tableState (some (tableOf 4 [])) 7 4 0 []) = .next t ∧ t.status = 0) ∧
    (∃ t, exec .ftLookup (tableState (some (tableOf 4 [])) 7 4 0 []) = .next t ∧ t.status = 0) ∧
    (∃ t, exec .ftBuild smallBuild = .next t ∧ t.status = 0) :=
  ⟨ends_in _ _ _ (by decide) (by decide), ends_in _ _ _ (by decide) (by decide),
    ends_in _ _ _ (by decide) (by decide), ends_in _ _ _ (by decide) (by decide),
    ends_in _ _ _ (by decide) (by decide), ends_in _ _ _ (by decide) (by decide),
    ends_in _ _ _ (by decide) (by decide), smallBuild_completes⟩

/-- The clauses of `ReadBitsCommand` and of `WriteBitsCommand`, at the edges of their ranges. -/
theorem witness_FieldCommands :
    (cursorState [] 0x1000 7 9 0 64).cursor.Fits 64 ∧
    (cursorState [] 0xfffffffffffffffe 0 1 0 8).cursor.Fits 8 ∧
    (cursorState [] 0x1000 8 10 0 3).off.toNat = 8 ∧
    (cursorState [] 0x1000 0 10 0 65).size.toNat = 65 ∧
    2 ^ 64 ≤ (cursorState [] 0xffffffffffffffff 0 10 0 1).ptr.toNat + footprint 0 1 ∧
    (cursorState [] 0x1000 7 8 0 64).cap.toNat < footprint 7 64 := by decide

theorem witness_ReadSplitsInTwo :
    ∃ v c', readBits (bytesAt 0x1000 [0x96]) ⟨0x1000, 1, 1⟩ (3 + 4) = .ok (v, c') :=
  ⟨_, _, rfl⟩

theorem witness_ReadDependsOnlyOnFootprint :
    ∃ (m m' : Memory) (c : Cursor) (size v : Nat) (c' : Cursor), m' ≠ m ∧
      (∀ a, InFootprint c.ptr (footprint c.off size) a → m'.readByte a = m.readByte a) ∧
      readBits m c size = .ok (v, c') := by
  refine ⟨bytesAt 0x1000 [0x96, 0], bytesAt 0x1000 [0x96, 1], ⟨0x1000, 0, 1⟩, 8, _, _, by decide, ?_, rfl⟩
  intro a ha
  have h1 : 0x1000 ≤ a := ha.1
  have h2 : a < 0x1000 + 1 := ha.2
  have : a = 0x1000 := by omega
  subst this
  rfl

theorem witness_WriteThenReadRoundTrip :
    ∃ t, exec .writeBits (cursorState [0xFF, 0xFF] 0x1000 5 10 0x15 6) = .next t ∧ t.status = 0 :=
  ends_in _ _ _ (by decide) (by decide)

theorem witness_WriteSplitsInTwo :
    (∃ r, writeBits (bytesAt 0x1000 [0xFF]) ⟨0x1000, 0, 1⟩ ((5 % 2 ^ 3) * 2 ^ 2 + 1 % 2 ^ 2) (3 + 2) =
      .ok r) ∧
    (∃ m1 c1 r, writeBits (bytesAt 0x1000 [0xFF]) ⟨0x1000, 0, 1⟩ 5 3 = .ok (m1, c1) ∧
      writeBits m1 c1 1 2 = .ok r) :=
  ⟨⟨_, rfl⟩, ⟨_, _, _, rfl, rfl⟩⟩

theorem witness_RepeatedWriteChangesNothing :
    ∃ r, writeBits (bytesAt 0x1000 [0xFF]) ⟨0x1000, 2, 1⟩ 0 3 = .ok r := ⟨_, rfl⟩

theorem witness_WriteReadsOnlyPartlyCoveredBytes :
    ∃ (m m' : Memory) (c : Cursor) (v size : Nat), m' ≠ m ∧
      m'.readByte c.ptr = m.readByte c.ptr ∧
      m'.readByte (c.ptr + footprint c.off size - 1) = m.readByte (c.ptr + footprint c.off size - 1) ∧
      (∃ r, writeBits m c v size = .ok r) ∧ (∃ r, writeBits m' c v size = .ok r) :=
  ⟨bytesAt 0x1000 [1, 2, 3], bytesAt 0x1000 [1, 9, 3], ⟨0x1000, 4, 3⟩, 0, 16, by decide, by decide,
    by decide, ⟨_, rfl⟩, ⟨_, rfl⟩⟩

theorem witness_Clog2IsCeilingLogarithm :
    ∃ x hb : Nat, 2 ≤ x ∧ x.testBit hb = true ∧ ∀ i, hb < i → x.testBit i = false :=
  ⟨5, 2, by decide, by decide, fun i hi => Nat.testBit_lt_two_pow
    (Nat.lt_of_lt_of_le (by decide : 5 < 2 ^ 3) (Nat.pow_le_pow_right (by decide) hi))⟩

/-- The clauses of `HdrEncodeCommand`, at the edges of their ranges. -/
theorem witness_HdrEncodeCommand :
    (headerState [] 2 1 3 2).header.Fits 0x1000 2 ∧
    (headerState [] 63 62 0x8000000000000000 10).header.Fits 0x1000 10 ∧
    (headerState [] 2 2 3 10).hws.toNat ≤ (headerState [] 2 2 3 10).hpad.toNat ∧
    2 ^ 2 < (headerState [] 2 1 5 10).huw.toNat ∧
    (headerState [] 64 63 1 9).cap.toNat < headerBytes 64 := by decide

/-- The clauses of `HdrDecodeCommand`: `ws` and `pad_bits` found, and the space. -/
theorem witness_HdrDecodeCommand :
    (headerState [0x0B, 0x00] 9 9 9 2).mem.fieldAt (8 * 0x1000) 6 = 2 ∧
    (headerState [0x0B, 0x00] 9 9 9 2).mem.fieldAt (8 * 0x1000 + 6) (clog2 2) < 2 ∧
    headerBytes 2 ≤ 2 ∧
    (headerState [0x04, 0x00] 9 9 9 2).mem.fieldAt (8 * 0x1000) 6 = 1 ∧
    (headerState [0xFF, 0xFF] 9 9 9 2).mem.fieldAt (8 * 0x1000) 6 = 63 ∧ 2 < headerBytes 63 ∧
    (headerState [0x0F, 0xFF] 9 9 9 2).mem.fieldAt (8 * 0x1000) 6 = 3 ∧
    3 ≤ (headerState [0x0F, 0xFF] 9 9 9 2).mem.fieldAt (8 * 0x1000 + 6) (clog2 3) := by decide

/-- The clause of `HdrDecodeCommand` where the 2-byte pre-check fits and the header does not. -/
theorem witness_HdrDecodeCommand_top :
    Memory.fieldAt [(0xfffffffffffffffd, 0x20#8)] (8 * 0xfffffffffffffffd) 6 = 8 ∧
    0xfffffffffffffffd + 2 < 2 ^ 64 ∧ 2 ^ 64 ≤ 0xfffffffffffffffd + headerBytes 8 := by decide

theorem witness_HeaderRoundTrip :
    ∃ t, exec .hdrEncode (headerState [0xFF, 0xFF, 0xFF, 0xFF] 16 15 0x10000 4) = .next t ∧
      t.status = 0 :=
  ends_in _ _ _ (by decide) (by decide)

theorem witness_DecodeThenEncodeKeepsMemory :
    ∃ t, exec .hdrDecode (headerState [0x0B, 0x7F] 9 9 9 2) = .next t ∧ t.status = 0 :=
  ends_in _ _ _ (by decide) (by decide)

theorem witness_DecodedHeaderIsLegal :
    ∃ t, exec .hdrDecode (headerState [0x0B, 0x7F] 9 9 9 2) = .next t ∧ t.status = 0 :=
  witness_DecodeThenEncodeKeepsMemory

theorem witness_WordSize64EncodesButDoesNotDecode :
    (headerState [] 64 63 1 10).hws.toNat = 64 ∧ (headerState [] 64 63 1 10).header.Fits 0x1000 10 := by
  decide

/-- The clauses of `FtInitCommand`: both answers of the allocator, and `LEN = 0`. -/
theorem witness_FtInitCommand :
    (tableState none 0 0 4 [true]).alloc.answer 4 = true ∧
    (tableState none 0 0 4 [false]).alloc.answer 4 = false ∧ State.reset.len = 0 := by decide

theorem witness_FtReleaseCommand :
    State.reset.tValid = false ∧ (tableState (some (tableOf 4 [])) 0 0 0 []).tValid = true := by decide

/-- The clauses of `FtLookupCommand` and of `LookupFindsMembers`, on the tables of D6.8 and D6.7. -/
theorem witness_FtLookupCommand :
    ProbeFinds (tableOf 4 [(1, 1, 1), (2, 5, 1), (3, 9, 1)]).slots 4 9 false 2 ∧
    (∀ k, k < 4 - 1 →
      ¬ ProbeStops (tableOf 4 [(1, 1, 1), (2, 5, 1), (3, 9, 1)]).slots 4 13 false k) ∧
    (tableOf 4 [(1, 1, 1), (2, 5, 1), (3, 9, 1)]).WF := by decide

theorem witness_LookupFindsMembers :
    (∃ c, (tableOf 4 [(1, 1, 1), (2, 5, 1), (3, 9, 1)]).Holds 9 c) ∧
    ¬ ∃ c, (tableOf 4 [(1, 1, 1), (2, 5, 1), (3, 9, 1)]).Holds 13 c := by
  refine ⟨⟨1, by decide, 3, by decide, by decide, by decide⟩, ?_⟩
  rintro ⟨c, h0, j, hj, hid, -⟩
  have key : ∀ j, j < 4 →
      (slotAt (tableOf 4 [(1, 1, 1), (2, 5, 1), (3, 9, 1)]).slots j).id ≠ 13 := by decide
  exact key j hj hid

/-- The clauses of `FtResizeCommand`: the table of D7.1, a larger and an equal size, both answers. -/
theorem witness_FtResizeCommand :
    (tableOf 4 [(1, 1, 7), (2, 5, 2), (3, 9, 3)]).WF ∧
    (tableOf 4 [(1, 1, 7), (2, 5, 2), (3, 9, 3)]).size.toNat < 5 ∧
    (tableState none 0 0 5 [true]).alloc.answer 5 = true ∧
    (tableState none 0 0 5 [false]).alloc.answer 5 = false := by decide

theorem witness_FtAddIncrementsKnownWord :
    (tableOf 2 [(0, 4, 1)]).WF ∧ Occupied (tableOf 2 [(0, 4, 1)]).slots 0 ∧
    (slotAt (tableOf 2 [(0, 4, 1)]).slots 0).id = 4 ∧
    (slotAt (tableOf 2 [(0, 4, 1)]).slots 0).count.toNat < 2 ^ 64 - 1 := by decide

theorem witness_FtAddInsertsNewWord :
    ProbeFinds (tableOf 2 [(0, 4, 1)]).slots 2 5 false 0 ∧
    1 = (hash 5 2 + 0) % 2 ∧ ¬ Occupied (tableOf 2 [(0, 4, 1)]).slots 1 := by decide

/-- D8.1 and D8.10: growth by two slots, and growth of a table of one slot. -/
theorem witness_FtAddGrowsAndRetries :
    ((tableOf 2 [(0, 4, 1)]).WF ∧
      (∀ k, k < 2 - 1 → ¬ ProbeStops (tableOf 2 [(0, 4, 1)]).slots 2 6 false k) ∧
      2 + 2 ≤ min (2 * 2) 16) ∧
    ((tableOf 1 []).WF ∧ (∀ k, k < 1 - 1 → ¬ ProbeStops (tableOf 1 []).slots 1 5 false k) ∧
      min (2 * 1) 8 = 2) := by decide

/-- D8.8 and D8.9: growth by one slot, after which the retried probe for 3 does not stop and the one
for 2 stops at once. The resized array is that of D8.8. -/
theorem witness_FtAddAfterGrowth :
    (tableOf 2 [(0, 0, 1), (1, 1, 1)]).WF ∧
    (∀ k, k < 2 - 1 → ¬ ProbeStops (tableOf 2 [(0, 0, 1), (1, 1, 1)]).slots 2 3 false k) ∧
    (∀ k, k < 2 - 1 → ¬ ProbeStops (tableOf 2 [(0, 0, 1), (1, 1, 1)]).slots 2 2 false k) ∧
    2 < min (2 * 2) 3 ∧ (tableState none 3 3 0 [true]).alloc.answer 3 = true ∧
    (∀ k, k < 3 - 1 → ¬ ProbeStops (tableOf 3 [(0, 0, 1), (1, 1, 1)]).slots 3 3 false k) ∧
    ProbeFinds (tableOf 3 [(0, 0, 1), (1, 1, 1)]).slots 3 2 false 0 := by decide

/-- D8.4, D8.5, D8.22, D8.15, D8.19: at the limit, below it, refused, and the two overflows. -/
theorem witness_FtAddFailuresKeepTable :
    (∀ k, k < 2 - 1 → ¬ ProbeStops (tableOf 2 [(0, 4, 1)]).slots 2 6 false k) ∧
    (tableOf 2 [(0, 4, 1)]).size = 2 ∧ 1 < (tableOf 2 [(0, 4, 1)]).size.toNat ∧
    (tableState none 0 0 0 [false]).alloc.answer 4 = false ∧
    ProbeFinds (tableOf 4 [(1, 1, 0xffffffffffffffff)]).slots 4 1 false 0 ∧
    (slotAt (tableOf 4 [(1, 1, 0xffffffffffffffff)]).slots 1).count.toNat = 2 ^ 64 - 1 ∧
    ProbeFinds (tableOf 4 [(1, 1, 1)]).slots 4 2 false 0 ∧
    ¬ Occupied (tableOf 4 [(1, 1, 1)]).slots ((hash 2 4 + 0) % 4) ∧
    (Table.mk 4 (BitVec.allOnes 64) (tableOf 4 [(1, 1, 1)]).slots).num.toNat = 2 ^ 64 - 1 := by decide

/-- D8.8 (a failure that keeps the resize) and D8.12 (a success) on well-formed tables. -/
theorem witness_FtAddChangesOneCount :
    (∃ u, exec .ftAdd (tableState (some (tableOf 2 [(0, 0, 1), (1, 1, 1)])) 3 3 0 [true]) = .next u ∧
      u.status = 3) ∧
    (tableOf 2 [(0, 0, 1), (1, 1, 1)]).WF ∧
    (∃ u, exec .ftAdd (tableState (some (tableOf 2 [(0, 0, 1), (1, 1, 1)])) 2 3 0 [true]) = .next u ∧
      u.status = 0) :=
  ⟨ends_in _ _ _ (by decide) (by decide), by decide, ends_in _ _ _ (by decide) (by decide)⟩

theorem witness_ContentsIndependentOfGrowth :
    List.Perm [7, 4, 7] [(4 : U64), 7, 7] ∧
    (addAll 8 [7, 4, 7] (freshTable 1) ⟨[true, true, true], 0⟩).error = none ∧
    (addAll 8 [4, 7, 7] (freshTable 8) ⟨[], 0⟩).error = none := by decide

/-- The clauses of `FtBuildEarlyFailures`: legal arguments and a refused first request; each bad
argument at its edge. -/
theorem witness_FtBuildEarlyFailures :
    (buildState [0x1B] 2 [false]).ptr ≠ 0 ∧ (buildState [0x1B] 2 [false]).len ≠ 0 ∧
    (∀ n, (buildState [0x1B] 2 [false]).alloc.answer n = false) ∧
    (buildState [] 2 []).len = 0 ∧ (buildState [0x1B] 1 []).size.toNat < 2 ∧
    64 < (buildState [0x1B] 65 []).size.toNat ∧ 2 ^ 64 ≤ 0xfffffffffffffffe + 2 :=
  ⟨by decide, by decide, fun _ => rfl, by decide, by decide, by decide, by decide⟩

/-- D9.37: legal arguments, a granted first request, and a failure after it. -/
theorem witness_FtBuildLateFailureLeavesNoTable :
    (buildState [0xFE, 0x05] 3 [true, false]).ptr ≠ 0 ∧
    (buildState [0xFE, 0x05] 3 [true, false]).len ≠ 0 ∧
    (buildState [0xFE, 0x05] 3 [true, false]).alloc.answer 2 = true ∧
    (ftBuildFrom 2 (buildState [0xFE, 0x05] 3 [true, false])).status ≠ 0 := by decide

/-- D9.37, for the clauses on the error: a starting capacity within its bounds, and draw 1, of an inner
resize, refused. -/
theorem witness_FtBuildLateFailure_kind :
    2 ≤ maxSize (buildState [0xFE, 0x05] 3 [true, false]).size.toNat ∧
    (buildState [0xFE, 0x05] 3 [true, false]).alloc.Refuses 1 ∧
    (buildState [0xFE, 0x05] 3 [true, false]).alloc.count + 1 <
      (ftBuildFrom 2 (buildState [0xFE, 0x05] 3 [true, false])).alloc.count :=
  ⟨by decide, fun _ => rfl, by decide⟩

/-- D9.37 again: legal arguments, a starting capacity within its bounds, and adds that fail; with both
requests granted the adds succeed. -/
theorem witness_FtBuildAddsSourceWords :
    1 ≤ 2 ∧ 2 ≤ maxSize 3 ∧
    (addAll (maxSize 3) (buildWords (bytesAt 0x1000 [0xFE, 0x05]) 0x1000 2 3) (freshTable 2)
      ⟨[false], 1⟩).error = some .insufficientSpace ∧
    (addAll (maxSize 3) (buildWords (bytesAt 0x1000 [0xFE, 0x05]) 0x1000 2 3) (freshTable 2)
      ⟨[true, true], 1⟩).error = none := by decide

theorem witness_FtBuildInvalidOnlyForArguments :
    ∃ t, exec .ftBuild (buildState [0x1B] 1 []) = .next t ∧ t.status = 2 :=
  ⟨_, rfl, by decide⟩

theorem grants_replicate : ∀ (k c : Nat), Allocator.Grants k ⟨List.replicate k true, c⟩
  | 0, _ => trivial
  | k + 1, c => ⟨fun _ => rfl, grants_replicate k (c + 1)⟩

theorem witness_FtBuildCompletes :
    ∃ s : State, s.ptr ≠ 0 ∧ s.len ≠ 0 ∧ s.len.toNat < 2 ^ 61 ∧ 2 ≤ s.size.toNat ∧ s.size.toNat ≤ 64 ∧
      s.ptr.toNat + s.len.toNat < 2 ^ 64 ∧ s.alloc.Grants 61 :=
  ⟨buildState [0x1B] 2 (List.replicate 61 true), by decide, by decide, by decide, by decide, by decide,
    by decide, grants_replicate 61 0⟩

theorem witness_BuildCountsTheSource :
    ∃ n0, 1 ≤ n0 ∧ n0 ≤ maxSize 3 ∧
      (ftBuildFrom n0 (buildState [0xFE, 0x05] 3 [true, true])).status = 0 :=
  ⟨2, by decide, by decide, by decide⟩

theorem witness_BuildHeaderIsLegal : ∃ t, exec .ftBuild smallBuild = .next t ∧ t.status = 0 :=
  smallBuild_completes

theorem witness_BuildCountsAddUp : ∃ t, exec .ftBuild smallBuild = .next t ∧ t.status = 0 :=
  smallBuild_completes

theorem witness_PartialWordChoice : (tableOf 4 [(0, 4, 1), (1, 0, 1), (2, 2, 1), (3, 7, 2)]).WF := by
  decide

end Sys2Proof.Tests
end

section
/-!
# The scope's open parameters (00_scope.md)
-/

namespace Sys2Proof.Machine

/-- Settles O49: the bounds of `initSize` (00_scope.md R4), with `max_size(ws)` read as the power of
two that R104 gives. -/
theorem initSizeWithinBounds : Obligations.InitSizeWithinBounds := by
  intro ws
  obtain ⟨hpos, hle⟩ := initSize_bounds ws
  exact ⟨hpos, hle.trans_eq (maxSize.eq_def ws)⟩

end Sys2Proof.Machine
end

section
/-!
# Steps and the state (10_state.md)
-/

namespace Sys2Proof.Machine

/-! ### One step, by the host's next action -/

section

variable {s : State} {rest : List Action}

theorem step_of_idle (h : s.script = []) : step s = .next s := by
  simp [step, State.takeAction, h]

theorem step_of_write {r : Reg} {v : Nat} (hr : r ≠ .cmd) (h : s.script = .write r v :: rest) :
    step s = .next (({ s with script := rest }).hostWrite r v) := by
  cases r
  case cmd => exact absurd rfl hr
  all_goals simp [step, State.takeAction, h]

theorem step_of_command {v : Nat} (h : s.script = .write .cmd v :: rest) :
    step s = runByte (BitVec.ofNat 8 v) { s with cmd := BitVec.ofNat 8 v, script := rest } := by
  simp [step, State.takeAction, h, State.hostWrite]

theorem step_of_reset (h : s.script = .reset :: rest) :
    step s = .next ({ s with script := rest }).afterReset := by
  simp [step, State.takeAction, h]

end

theorem runByte_of_decode {b : U8} {i : Instr} {bs : List U8} (h : decode [b] = .ok (i, bs))
    (s : State) : runByte b s = exec i s := by
  rw [runByte, h]

theorem runByte_of_reject {b : U8} {r : Reject} (h : decode [b] = .error r) (s : State) :
    runByte b s = .next s.reservedByte := by
  rw [runByte, h]

/-- A byte that ends in a next state is a reserved one, or its command ended there. -/
theorem runByte_cases {b : U8} {s t : State} (h : runByte b s = .next t) :
    t = s.reservedByte ∨ ∃ i, exec i s = .next t := by
  cases hd : decode [b] with
  | error r =>
    rw [runByte_of_reject hd] at h
    cases h
    exact .inl rfl
  | ok p =>
    rw [runByte_of_decode hd] at h
    exact .inr ⟨p.1, h⟩

/-- What `Laws.ByteOfCommand` says per command, for every command. -/
theorem byteOfCommand (i : Instr) : Laws.ByteOfCommand.Statement i := by
  cases i
  exacts [Laws.ByteOfCommand.readBits, Laws.ByteOfCommand.writeBits, Laws.ByteOfCommand.hdrEncode,
    Laws.ByteOfCommand.hdrDecode, Laws.ByteOfCommand.ftInit, Laws.ByteOfCommand.ftRelease,
    Laws.ByteOfCommand.ftLookup, Laws.ByteOfCommand.ftResize, Laws.ByteOfCommand.ftAdd,
    Laws.ByteOfCommand.ftBuild]

theorem decode_encodeByte (i : Instr) : decode [encodeByte i] = .ok (i, []) := by
  obtain ⟨-, -, hdecode, -⟩ := byteOfCommand i
  rw [decode, hdecode]

theorem tableByte_toNat (b : U8) : tableByte 8 b.toNat = b := by
  rw [tableByte, Nat.mod_eq_of_lt b.isLt, BitVec.ofNat_toNat, BitVec.setWidth_eq]

/-- Settles O4: the step of a `CMD` write is `runByte`, and the byte decodes. -/
theorem stepRunsDecodedCommand : Obligations.StepRunsDecodedCommand := by
  refine ⟨fun s v rest i hs hd => ?_, fun s i => ?_⟩
  · rw [step_of_command hs, runByte_of_decode hd]
  · have hs : (s.withFetchWord 8 (encodeByte i).toNat).script =
        .write .cmd (encodeByte i).toNat :: s.script := by
      rw [State.withFetchWord, tableByte_toNat]
    rw [step_of_command hs, BitVec.ofNat_toNat, BitVec.setWidth_eq,
      runByte_of_decode (decode_encodeByte i)]
    rfl

/-- Settles O5: a rejected byte runs `reservedByte`, which raises `InvalidValue` (code 2). -/
theorem stepOnReservedByte : Obligations.StepOnReservedByte := by
  intro s v rest r hs hd
  rw [step_of_command hs, runByte_of_reject hd]
  rfl

/-- Settles O6: the step of an empty script is the identity. -/
theorem idleStepChangesNothing : Obligations.IdleStepChangesNothing := fun _ h => step_of_idle h

/-! ### Registers as the host reads and writes them -/

theorem hostRead_hostWrite_self (s : State) {r : Reg} (v : Nat) (hr : r ≠ .status) :
    (s.hostWrite r v).hostRead r = v % 2 ^ r.width := by
  cases r
  case status => exact absurd rfl hr
  all_goals exact BitVec.toNat_ofNat v _

theorem hostRead_hostWrite_ne (s : State) {r q : Reg} (v : Nat) (hq : q ≠ r) :
    (s.hostWrite r v).hostRead q = s.hostRead q := by
  cases r <;> cases q <;> simp [State.hostWrite, State.hostRead] at hq ⊢

theorem hostRead_hostWrite (s : State) (r : Reg) (v : Nat) (q : Reg) :
    (s.hostWrite r v).hostRead q =
      if q = r ∧ r ≠ .status then v % 2 ^ r.width else s.hostRead q := by
  by_cases hq : q = r
  · subst hq
    by_cases hs : q = .status
    · subst hs
      rfl
    · rw [if_pos ⟨rfl, hs⟩, hostRead_hostWrite_self s v hs]
  · rw [if_neg (fun h => hq h.1), hostRead_hostWrite_ne s v hq]

theorem hostRead_script (s : State) (rest : List Action) (q : Reg) :
    ({ s with script := rest } : State).hostRead q = s.hostRead q := by
  cases q <;> rfl

theorem hostRead_afterReset (s : State) (q : Reg) : s.afterReset.hostRead q = 0 := by
  cases q <;> rfl

theorem hostRead_reset (q : Reg) : State.reset.hostRead q = 0 := by
  cases q <;> rfl

/-- Settles O7: the step is `hostWrite`, and `hostRead_hostWrite` says what every register reads. -/
theorem hostWriteSetsOneRegister : Obligations.HostWriteSetsOneRegister := by
  intro s r v rest hr hs
  refine ⟨_, step_of_write hr hs, by simp, by simp, by simp, by simp, fun q => ?_⟩
  rw [hostRead_hostWrite, hostRead_script]

/-- Settles O9: at power-up and after a later reset every register reads 0, and the later reset keeps
the memory it found. -/
theorem resetClearsRegisters : Obligations.ResetClearsRegisters :=
  ⟨hostRead_reset, rfl, rfl, rfl, rfl, fun _ _ hs =>
    ⟨_, step_of_reset hs, hostRead_afterReset _, rfl, rfl⟩⟩

/-! ### What every step keeps -/

/-- A predicate that each thing a step can do keeps is kept by every step. -/
theorem step_keeps {P : State → Prop}
    (hscript : ∀ (s : State) rest, P s → P { s with script := rest })
    (hwrite : ∀ s r v, P s → P (s.hostWrite r v))
    (hstore : ∀ s addr bytes, storeFits addr bytes = true → P s →
      P (s.setMem (s.mem.hostStore addr.toNat bytes)))
    (hreset : ∀ s, P s → P s.afterReset)
    (hreserved : ∀ s, P s → P s.reservedByte)
    (hexec : ∀ i s t, P s → exec i s = .next t → P t)
    {s t : State} (hs : P s) (h : step s = .next t) : P t := by
  rcases step_cases h with ⟨-, rfl⟩ | ⟨r, v, rest, -, -, rfl⟩ | ⟨addr, bytes, rest, -, hfit, rfl⟩ |
    ⟨rest, -, rfl⟩ | ⟨v, rest, -, hrun⟩
  · exact hs
  · exact hwrite _ r v (hscript s rest hs)
  · exact hstore _ addr bytes hfit (hscript s rest hs)
  · exact hreset _ (hscript s rest hs)
  · have hcmd := hwrite _ .cmd v (hscript s rest hs)
    rcases runByte_cases hrun with rfl | ⟨i, hi⟩
    · exact hreserved _ hcmd
    · exact hexec i _ t hcmd hi

/-! ### STATUS (10_state.md R13) -/

theorem ErrKind.code_le (e : ErrKind) : e.code.toNat ≤ 5 := by
  cases e <;> decide

theorem ErrKind.code_ne_zero (e : ErrKind) : e.code ≠ 0 := by
  cases e <;> decide

/-! ### The table (10_state.md R15) -/

/-- What a command can leave as the table, by the command that leaves it. -/
inductive TableOutcome (s : State) : Option Table → Prop where
  | kept : TableOutcome s s.table
  | released : TableOutcome s none
  | fresh : s.len ≠ 0 → TableOutcome s (some (freshTable s.len.toNat))
  | resized (t : Table) : s.table = some t →
      TableOutcome s (some (resize t s.alloc s.len.toNat).table)
  | added (t : Table) : s.table = some t →
      TableOutcome s (some (addOrIncrement t s.alloc s.val s.tmax.toNat).table)
  | scanned (n : Nat) : 1 ≤ n → n < 2 ^ 64 → TableOutcome s
      (some (scan s.mem s.ptr.toNat s.len.toNat s.size.toNat (freshTable n) s.alloc.next).table)

theorem initSize_lt (ws : Nat) : initSize ws < 2 ^ 64 :=
  (initSize_bounds ws).2.trans_lt (maxSize_lt ws)

theorem build_tableOutcome (s : State) :
    TableOutcome s (build (initSize s.size.toNat) s.mem s.ptr.toNat s.len.toNat s.size.toNat s.table
      s.alloc).table := by
  unfold build
  split_ifs
  · exact .kept
  · exact .kept
  · exact .kept
  · exact .kept
  · dsimp only
    split
    · exact .released
    · exact .scanned _ (initSize_bounds _).1 (initSize_lt _)

/-! ### How a command ends -/

/-- What every command started in `s` leaves: a legal `STATUS`, and a table of `TableOutcome`. -/
structure CommandEnd (s t : State) : Prop where
  status : t.StatusInv
  table : TableOutcome s t.table

theorem CommandEnd.raise {s t : State} (e : ErrKind) (h : TableOutcome s t.table) :
    CommandEnd s (t.raise e) := ⟨e.code_le, h⟩

theorem CommandEnd.succeed {s t : State} (h : TableOutcome s t.table) : CommandEnd s t.succeed :=
  ⟨Nat.zero_le 5, h⟩

theorem CommandEnd.finishTable {s : State} {r : TableStep} (h : TableOutcome s (some r.table)) :
    CommandEnd s (s.finishTable r) := by
  simp only [State.finishTable]
  split
  · exact .raise _ h
  · exact .succeed h

theorem CommandEnd.ftBuild (s : State) : CommandEnd s (ftBuildFrom (initSize s.size.toNat) s) := by
  simp only [ftBuildFrom]
  split
  · exact .raise _ (build_tableOutcome s)
  · exact .succeed (build_tableOutcome s)

/-- Every command fails through `raise` or ends through `succeed`, with a table of `TableOutcome`. -/
theorem exec_commandEnd {i : Instr} {s t : State} (h : exec i s = .next t) : CommandEnd s t := by
  cases i with
  | readBits | writeBits | hdrEncode | hdrDecode =>
    simp only [exec, execReadBits, execWriteBits, execHdrEncode, execHdrDecode] at h
    split at h <;> cases h
    exacts [.raise _ .kept, .succeed .kept]
  | ftInit =>
    simp only [exec, execFtInit] at h
    split_ifs at h with hlen <;> cases h
    exacts [.raise _ .kept, .raise _ .kept, .succeed (.fresh hlen)]
  | ftRelease =>
    simp only [exec, execFtRelease] at h
    split at h <;> cases h
    exacts [.raise _ .kept, .succeed .released]
  | ftLookup =>
    simp only [exec, execFtLookup] at h
    split at h
    · cases h
      exact .raise _ .kept
    · split at h <;> cases h
      exacts [.succeed .kept, .raise _ .kept]
  | ftResize =>
    simp only [exec, execFtResize] at h
    split at h <;> cases h
    · exact .raise _ .kept
    · next t0 ht0 => exact .finishTable (.resized t0 ht0)
  | ftAdd =>
    simp only [exec, execFtAdd] at h
    split at h <;> cases h
    · exact .raise _ .kept
    · next t0 ht0 => exact .finishTable (.added t0 ht0)
  | ftBuild =>
    cases h
    exact .ftBuild s

/-! ### R15 -/

/-- A resize keeps R15, whether it succeeds or fails. -/
theorem resize_wf {t : Table} {A : Allocator} {n : Nat} (ht : t.WF) (hn : n < 2 ^ 64) :
    (resize t A n).table.WF := by
  rcases resize_cases (A := A) ht hn with ⟨-, -, h⟩ | ⟨-, -, -, h⟩ | ⟨-, -, -, h, -⟩
  · rwa [h]
  · rwa [h]
  · exact h

theorem TableOutcome.wf {s : State} {T : Option Table} (hs : s.TableInv) (h : TableOutcome s T) :
    ∀ t, T = some t → t.WF := by
  intro t ht
  cases h with
  | kept => exact hs t ht
  | released => cases ht
  | fresh hlen =>
    cases ht
    exact freshTable_wf (Nat.pos_of_ne_zero fun h => hlen (BitVec.eq_of_toNat_eq h)) s.len.isLt
  | resized t0 h0 =>
    cases ht
    exact resize_wf (hs t0 h0) s.len.isLt
  | added t0 h0 =>
    cases ht
    exact addOrIncrement_wf (hs t0 h0) s.tmax.isLt
  | scanned n h1 h2 =>
    cases ht
    exact scan_wf _ _ _ _ _ (freshTable_wf h1 h2)

theorem State.TableInv.of_table_eq {s t : State} (h : t.table = s.table) (hs : s.TableInv) :
    t.TableInv := fun u hu => hs u (h ▸ hu)

/-- Settles O11: only reset and commands touch the table; a reset releases it, and what a command
leaves is well formed by `TableOutcome.wf`. -/
theorem stepKeepsTableInvariants : Obligations.StepKeepsTableInvariants := by
  intro s t
  refine step_keeps ?script ?write ?store ?reset ?reserved ?command
  case script => exact fun _ _ h => h
  case write => exact fun _ _ _ h => .of_table_eq (State.hostWrite_table ..) h
  case store => exact fun _ _ _ _ h => h
  case reset => exact fun _ _ _ h => nomatch h
  case reserved => exact fun _ h => h
  case command => exact fun _ _ _ hs h => (exec_commandEnd h).table.wf hs

/-- Settles O12: the host cannot set `STATUS`, reset clears it, and every command, and a reserved
byte, leaves one of the six codes. -/
theorem stepKeepsStatusLegal : Obligations.StepKeepsStatusLegal := by
  intro s t
  refine step_keeps ?script ?write ?store ?reset ?reserved ?command
  case script => exact fun _ _ h => h
  case write => exact fun s r v h => by rwa [State.StatusInv, State.hostWrite_status]
  case store => exact fun _ _ _ _ h => h
  case reset => exact fun _ _ => Nat.zero_le 5
  case reserved => exact fun _ _ => ErrKind.code_le .invalidValue
  case command => exact fun _ _ _ _ h => (exec_commandEnd h).status

/-- Settles O13: nothing is listed in memory, `STATUS` is 0 and there is no table. -/
theorem resetIsWellFormed : Obligations.ResetIsWellFormed :=
  ⟨rfl, Nat.zero_le 5, fun _ h => nomatch h⟩

/-! ### Headers that decode (10_state.md R17) -/

theorem except_bind_eq_ok {α β : Type} {x : Except ErrKind α} {f : α → Except ErrKind β} {r : β}
    (h : (x >>= f) = .ok r) : ∃ a, x = .ok a ∧ f a = .ok r := by
  cases x with
  | error e => cases h
  | ok a => exact ⟨a, rfl, h⟩

/-- The word size is a field of 6 bits, the pad is checked against it, and the word count is a field
of that many bits plus 1. -/
theorem decodeHeader_legal {m : Memory} {ptr cap : Nat} {h : Header} {c : Cursor}
    (hd : decodeHeader m ptr cap = .ok (h, c)) :
    2 ≤ h.wordSize ∧ h.wordSize ≤ 63 ∧ h.padBits < h.wordSize ∧ 1 ≤ h.uniqueWords ∧
      h.uniqueWords ≤ 2 ^ h.wordSize := by
  unfold decodeHeader at hd
  split_ifs at hd
  obtain ⟨⟨ws, c1⟩, hread1, hd⟩ := except_bind_eq_ok hd
  dsimp only at hd
  split_ifs at hd with hws
  obtain ⟨⟨pad, c2⟩, -, hd⟩ := except_bind_eq_ok hd
  dsimp only at hd
  split_ifs at hd with hpad
  obtain ⟨⟨u, c3⟩, hread3, hd⟩ := except_bind_eq_ok hd
  cases hd
  have hws_lt : ws < 2 ^ 6 := by
    obtain ⟨-, rfl, -⟩ := (readBits_eq_ok_iff ..).1 hread1
    exact m.fieldAt_lt _ 6
  have hu_lt : u < 2 ^ ws := by
    obtain ⟨-, rfl, -⟩ := (readBits_eq_ok_iff ..).1 hread3
    exact m.fieldAt_lt _ ws
  dsimp only
  exact ⟨by omega, by omega, by omega, by omega, hu_lt⟩

/-- A header whose fields fit the registers reads back as it was written. -/
theorem State.header_setHeader (s : State) {h : Header} (hws : h.wordSize < 2 ^ 8)
    (hpad : h.padBits < 2 ^ 8) (huw : h.uniqueWords < 2 ^ 64) : (s.setHeader h).header = h := by
  simp only [State.header, State.setHeader, BitVec.toNat_ofNat, Nat.mod_eq_of_lt, hws, hpad, huw]

/-- Settles O37: a header decoded is legal, so it fits the registers it is written to. -/
theorem decodedHeaderIsLegal : Obligations.DecodedHeaderIsLegal := by
  intro s t h h0
  simp only [exec, execHdrDecode] at h
  split at h <;> cases h
  · exact absurd h0 (ErrKind.code_ne_zero _)
  · next hd c hdec =>
    have hlegal := decodeHeader_legal hdec
    have ⟨_, h63, hpad, _, hu⟩ := hlegal
    have hpow : 2 ^ hd.wordSize ≤ 2 ^ 63 := Nat.pow_le_pow_right (by decide) h63
    have hread := s.header_setHeader (h := hd) (by omega) (by omega) (by omega)
    rw [← hread] at hlegal
    exact hlegal

end Sys2Proof.Machine
end

section
/-!
# Byte memory (20_memory.md)
-/

namespace Sys2Proof.Machine

/-! ### Fields of the stream (20_memory.md R32) -/

theorem Memory.fieldAt_eq_sum (m : Memory) (P : Nat) : ∀ n,
    m.fieldAt P n = ∑ k ∈ Finset.range n, m.streamBit (P + k) * 2 ^ (n - 1 - k)
  | 0 => rfl
  | n + 1 => by
    have hdouble : ∀ k ∈ Finset.range n, m.streamBit (P + k) * 2 ^ (n - 1 - k) * 2 =
        m.streamBit (P + k) * 2 ^ (n + 1 - 1 - k) := by
      intro k hk
      have hk := Finset.mem_range.1 hk
      rw [mul_assoc, ← pow_succ, show n - 1 - k + 1 = n + 1 - 1 - k by omega]
    rw [Memory.fieldAt, Memory.fieldAt_eq_sum m P n, Finset.sum_mul, Finset.sum_congr rfl hdouble,
      Finset.sum_range_succ, show n + 1 - 1 - n = 0 by omega, pow_zero, mul_one]

/-- Settles O21: the sum by induction on the length, one more bit doubling the bits before it; the
split is `Memory.fieldAt_add`. -/
theorem fieldIsSumOfStreamBits : Obligations.FieldIsSumOfStreamBits :=
  ⟨Memory.fieldAt_eq_sum, Memory.fieldAt_add⟩

/-! ### What a write stores (20_memory.md R34, 40_bitcursor.md R66) -/

theorem writeBits_eq_ok_iff (m : Memory) (c : Cursor) (value size : Nat) (m' : Memory) (c' : Cursor) :
    writeBits m c value size = .ok (m', c') ↔
      c.Fits size ∧
        m' = m.storeBytes c.ptr (fieldWritten m c.ptr c.off value size) (footprint c.off size) ∧
        c' = c.advance size := by
  rw [← c.fieldError_eq_none_iff, writeBits]
  cases c.fieldError size with
  | some e => simp
  | none => simp [eq_comm]

/-- Inside the bytes stored, nothing of the memory before is left. -/
theorem Memory.readByte_storeBytes_inside_congr (m m' : Memory) (ptr a : Nat) : ∀ (n acc : Nat),
    InFootprint ptr n a → (m'.storeBytes ptr acc n).readByte a = (m.storeBytes ptr acc n).readByte a
  | 0, _, ⟨hlo, hhi⟩ => by omega
  | n + 1, acc, ⟨hlo, hhi⟩ => by
    simp only [Memory.storeBytes, Memory.readByte_write]
    split
    · rfl
    · exact Memory.readByte_storeBytes_inside_congr m m' ptr a n _ ⟨hlo, by omega⟩

theorem oldBytes_congr {m m' : Memory} {ptr off size n : Nat}
    (h : ∀ i, partlyCovered off size n i = true → m'.read (ptr + i) = m.read (ptr + i)) :
    ∀ k, oldBytes m' ptr off size n k = oldBytes m ptr off size n k
  | 0 => rfl
  | k + 1 => by
    simp only [oldBytes, oldBytes_congr h k]
    split
    · next hpart => rw [h k hpart]
    · rfl

theorem fieldWritten_congr {m m' : Memory} {ptr off size : Nat} (value : Nat)
    (h : ∀ i, partlyCovered off size (footprint off size) i = true →
      m'.read (ptr + i) = m.read (ptr + i)) :
    fieldWritten m' ptr off value size = fieldWritten m ptr off value size := by
  simp only [fieldWritten, oldBytes_congr h]

/-- Only the first byte, where the field starts inside it, and the last, where the field ends inside
it, are partly covered. -/
theorem partlyCovered_cases {off size i : Nat}
    (h : partlyCovered off size (footprint off size) i = true) :
    (i = 0 ∧ off ≠ 0) ∨ (i + 1 = footprint off size ∧ (off + size) % 8 ≠ 0) := by
  simp only [partlyCovered, Bool.or_eq_true, Bool.and_eq_true, beq_iff_eq, bne_iff_ne] at h
  refine h.imp_right fun ⟨hlast, hafter⟩ => ⟨hlast, ?_⟩
  rw [footprint_eq] at hafter
  omega

/-- Settles O29: the two memories agree on every partly covered byte, so the same number is stored,
and the bytes stored depend on nothing else. -/
theorem writeReadsOnlyPartlyCoveredBytes : Obligations.WriteReadsOnlyPartlyCoveredBytes := by
  intro m m' m1 m1' c c1 c1' v size hfirst hlast hw hw' a ha
  obtain ⟨-, rfl, -⟩ := (writeBits_eq_ok_iff ..).1 hw
  obtain ⟨-, rfl, -⟩ := (writeBits_eq_ok_iff ..).1 hw'
  have hread : ∀ i, partlyCovered c.off size (footprint c.off size) i = true →
      m'.read (c.ptr + i) = m.read (c.ptr + i) := by
    intro i hi
    rcases partlyCovered_cases hi with ⟨rfl, hoff⟩ | ⟨hn, hend⟩
    · exact congrArg BitVec.toNat (hfirst (.inl hoff))
    · rw [show c.ptr + i = c.ptr + footprint c.off size - 1 by omega]
      exact congrArg BitVec.toNat (hlast hend)
  rw [fieldWritten_congr v hread]
  exact Memory.readByte_storeBytes_inside_congr m m' c.ptr a _ _ ha

/-! ### Commands that do not write memory (20_memory.md R30) -/

namespace State

@[simp] theorem finishTable_mem (s : State) (r : TableStep) : (s.finishTable r).mem = s.mem := by
  rw [finishTable]
  split <;> rfl

@[simp] theorem ftBuildFrom_mem (n0 : Nat) (s : State) : (ftBuildFrom n0 s).mem = s.mem := by
  rw [ftBuildFrom]
  split <;> rfl

end State

/-- Settles O18: every branch of the eight commands is built of updates that keep `mem`. -/
theorem readingCommandsKeepMemory : Obligations.ReadingCommandsKeepMemory := by
  intro i s t hwrite hencode h
  cases i with
  | writeBits => exact absurd rfl hwrite
  | hdrEncode => exact absurd rfl hencode
  | readBits | hdrDecode =>
    simp only [exec, execReadBits, execHdrDecode] at h
    split at h <;> cases h <;> rfl
  | ftInit =>
    simp only [exec, execFtInit] at h
    split_ifs at h <;> cases h <;> rfl
  | ftRelease =>
    simp only [exec, execFtRelease] at h
    split at h <;> cases h <;> rfl
  | ftLookup =>
    simp only [exec, execFtLookup] at h
    split at h
    · cases h
      rfl
    · split at h <;> cases h <;> rfl
  | ftResize | ftAdd =>
    simp only [exec, execFtResize, execFtAdd] at h
    split at h <;> cases h
    exacts [rfl, s.finishTable_mem _]
  | ftBuild =>
    cases h
    exact State.ftBuildFrom_mem _ s

/-! ### The canonical form (log entry 6) -/

theorem writeBits_wf {m m' : Memory} {c c' : Cursor} {value size : Nat}
    (h : writeBits m c value size = .ok (m', c')) (hm : m.wf = true) : m'.wf = true := by
  obtain ⟨⟨-, -, -, -, htop, -⟩, rfl, -⟩ := (writeBits_eq_ok_iff ..).1 h
  exact Memory.wf_storeBytes _ _ _ htop.le hm

/-- A header is written by three `write_bits` (41_header_codec.md R84). -/
theorem encodeHeader_wf {m m' : Memory} {hd : Header} {ptr cap : Nat} {c : Cursor}
    (h : encodeHeader m hd ptr cap = .ok (m', c)) (hm : m.wf = true) : m'.wf = true := by
  unfold encodeHeader at h
  split_ifs at h
  obtain ⟨⟨m1, c1⟩, hsize, h⟩ := except_bind_eq_ok h
  obtain ⟨⟨m2, c2⟩, hpad, hwords⟩ := except_bind_eq_ok h
  exact writeBits_wf hwords (writeBits_wf hpad (writeBits_wf hsize hm))

theorem exec_memWf {i : Instr} {s t : State} (hs : s.mem.wf = true) (h : exec i s = .next t) :
    t.mem.wf = true := by
  by_cases hwrite : i = .writeBits
  · subst hwrite
    simp only [exec, execWriteBits] at h
    split at h <;> cases h
    · exact hs
    · next hok => exact writeBits_wf hok hs
  by_cases hencode : i = .hdrEncode
  · subst hencode
    simp only [exec, execHdrEncode] at h
    split at h <;> cases h
    · exact hs
    · next hok => exact encodeHeader_wf hok hs
  rwa [readingCommandsKeepMemory i s t hwrite hencode h]

/-- Settles O10: memory changes only at a host `MEM` line that fits the address space and at the two
commands that write, whose footprints end below `2^64` (20_memory.md R37). -/
theorem stepKeepsMemoryCanonical : Obligations.StepKeepsMemoryCanonical := by
  intro s t
  refine step_keeps (P := fun s => s.mem.wf = true) ?script ?write ?store ?reset ?reserved ?command
  case script => exact fun _ _ h => h
  case write => exact fun s r v h => by rwa [State.hostWrite_mem]
  case store => exact fun s addr bytes hfit h =>
    Memory.wf_hostStore bytes addr.toNat (of_decide_eq_true hfit) h
  case reset => exact fun _ h => h
  case reserved => exact fun _ h => h
  case command => exact fun _ _ _ hs h => exec_memWf hs h

end Sys2Proof.Machine
end

section
/-!
# Command bytes, headers and what commands leave (30_encoding.md)
-/

namespace Sys2Proof.Machine

/-! ### Command bytes (R45, R46, R48) -/

theorem encodeByte_toNat (i : Instr) : (encodeByte i).toNat = i.opNumber := by
  cases i <;> rfl

theorem exists_opNumber_eq_iff (n : Nat) : (∃ i : Instr, i.opNumber = n) ↔ 1 ≤ n ∧ n ≤ 10 := by
  constructor
  · rintro ⟨i, rfl⟩
    cases i <;> decide
  · rintro ⟨hlo, hhi⟩
    interval_cases n
    exacts [⟨.readBits, rfl⟩, ⟨.writeBits, rfl⟩, ⟨.hdrEncode, rfl⟩, ⟨.hdrDecode, rfl⟩,
      ⟨.ftInit, rfl⟩, ⟨.ftRelease, rfl⟩, ⟨.ftLookup, rfl⟩, ⟨.ftResize, rfl⟩, ⟨.ftAdd, rfl⟩,
      ⟨.ftBuild, rfl⟩]

theorem decodeByte_eq_ok_iff (b : U8) (i : Instr) : decodeByte b = .ok i ↔ b = encodeByte i := by
  obtain ⟨-, -, hdecode, honly⟩ := byteOfCommand i
  exact ⟨honly b, fun h => h ▸ hdecode⟩

theorem decode_cons_eq_ok_iff (b : U8) (bs rest : List U8) (i : Instr) :
    decode (b :: bs) = .ok (i, rest) ↔ b = encodeByte i ∧ bs = rest := by
  rw [← decodeByte_eq_ok_iff, decode]
  cases decodeByte b <;> simp

/-- Settles O1: each byte of the table is the byte of its command. -/
theorem commandMapDecodes : Obligations.CommandMapDecodes :=
  ⟨decode_encodeByte .readBits, decode_encodeByte .writeBits, decode_encodeByte .hdrEncode,
    decode_encodeByte .hdrDecode, decode_encodeByte .ftInit, decode_encodeByte .ftRelease,
    decode_encodeByte .ftLookup, decode_encodeByte .ftResize, decode_encodeByte .ftAdd,
    decode_encodeByte .ftBuild⟩

/-- Settles O2: by `decode_cons_eq_ok_iff`, whose two directions are the two halves. -/
theorem decodeUndoesEncode : Obligations.DecodeUndoesEncode := by
  refine ⟨fun i => ⟨(byteOfCommand i).1, fun rest => ?_⟩, fun b i rest h => ?_⟩
  · exact (decode_cons_eq_ok_iff ..).2 ⟨rfl, rfl⟩
  · obtain ⟨rfl, -⟩ := (decode_cons_eq_ok_iff ..).1 h
    rfl

theorem exists_decode_iff (b : U8) :
    (∃ i, decode [b] = .ok (i, [])) ↔ 1 ≤ b.toNat ∧ b.toNat ≤ 10 := by
  simp only [decode_cons_eq_ok_iff, and_true, ← BitVec.toNat_inj, encodeByte_toNat,
    eq_comm (a := b.toNat), exists_opNumber_eq_iff]

/-- Settles O3: a byte that decodes is the byte of a command number, 1 to 10; any other is rejected,
and runs `reservedByte`, which raises `InvalidValue` (code 2). -/
theorem reservedBytesExecuteNothing : Obligations.ReservedBytesExecuteNothing := by
  refine ⟨exists_decode_iff, fun b s hb => ?_⟩
  cases hd : decode [b] with
  | error r => exact runByte_of_reject hd s
  | ok p =>
    obtain ⟨i, rest⟩ := p
    obtain ⟨-, rfl⟩ := (decode_cons_eq_ok_iff ..).1 hd
    have hlisted := (exists_decode_iff b).1 ⟨i, hd⟩
    omega

/-! ### Header sizes (R52, 41_header_codec.md R81) -/

/-- Between two powers of two `clog2` is the exponent of the upper one, which belongs to the range. -/
theorem clog2_eq_succ {x c : Nat} (hx : 2 ≤ x) (hlo : 2 ^ c < x) (hhi : x ≤ 2 ^ (c + 1)) :
    clog2 x = c + 1 := by
  rw [clog2, if_neg (by omega), if_neg (by omega), lowBits_eq_mod]
  rcases hhi.eq_or_lt with rfl | hlt
  · rw [Nat.log2_two_pow, Nat.mod_self, if_neg (not_not.2 rfl)]
  · have hlog : Nat.log2 x = c := (Nat.log2_eq_iff (by omega)).2 ⟨hlo.le, hlt⟩
    have hlow : x % 2 ^ c = x - 2 ^ c := by
      rw [Nat.mod_eq_sub_mod hlo.le, Nat.mod_eq_of_lt (by omega)]
    rw [hlog, if_pos (by omega)]

theorem headerBytes_of_wordSize : ∀ ws ≤ 64, 2 ≤ ws → headerBytes ws =
    if ws ≤ 7 then 2 else if ws ≤ 14 then 3 else if ws ≤ 21 then 4 else if ws ≤ 29 then 5
    else if ws ≤ 36 then 6 else if ws ≤ 44 then 7 else if ws ≤ 52 then 8 else if ws ≤ 60 then 9
    else 10 := by
  decide

/-- Settles O31: the pad field is `clog2` wide, a step function of the word size, and the byte sizes
of the 63 legal word sizes are computed. -/
theorem headerSizesMatchTheTable : Obligations.HeaderSizesMatchTheTable := by
  refine ⟨by decide, fun ws hlo hhi => ?_, fun ws hlo hhi => ?_, fun ws hlo hhi => ?_,
    fun ws hlo hhi => headerBytes_of_wordSize ws hhi hlo⟩
  · rw [headerBits, clog2_eq_succ (c := 3) (by omega) (by omega) (by omega)]
  · rw [headerBits, clog2_eq_succ (c := 4) (by omega) (by omega) (by omega)]
  · rw [headerBits, clog2_eq_succ (c := 5) (by omega) (by omega) (by omega)]

/-! ### The host's `MEM` line (R54) -/

theorem step_of_store {s : State} {addr : U64} {bytes : List U8} {rest : List Action}
    (h : s.script = .store addr bytes :: rest) :
    step s = if storeFits addr bytes then
        .next { s with script := rest, mem := s.mem.hostStore addr.toNat bytes }
      else .fault .storePastTop := by
  simp only [step, State.takeAction, h]
  split_ifs <;> rfl

theorem Memory.readByte_hostStore_inside {bytes : List U8} {i : Nat} {b : U8} (m : Memory)
    (addr : Nat) (h : bytes[i]? = some b) : (m.hostStore addr bytes).readByte (addr + i) = b := by
  rw [Memory.readByte_hostStore, if_pos (Nat.le_add_right addr i), Nat.add_sub_cancel_left, h]
  rfl

theorem Memory.readByte_hostStore_outside {bytes : List U8} {addr a : Nat} (m : Memory)
    (h : ¬ InFootprint addr bytes.length a) :
    (m.hostStore addr bytes).readByte a = m.readByte a := by
  rw [Memory.readByte_hostStore]
  split_ifs with hle
  · rw [List.getElem?_eq_none (by omega), Option.getD_none]
  · rfl

/-- Settles O8: the step of a `MEM` line is `hostStore` where the line fits, and the fault where it
does not. -/
theorem hostStorePlacesBytes : Obligations.HostStorePlacesBytes := by
  intro s addr bytes rest hs
  rw [step_of_store hs]
  refine ⟨fun hfit => ⟨_, if_pos (decide_eq_true hfit), ?_, ?_⟩, fun hpast => if_neg ?_⟩
  · exact fun i b => s.mem.readByte_hostStore_inside addr.toNat
  · exact fun a => s.mem.readByte_hostStore_outside
  · rw [storeFits, decide_eq_true_iff]
    omega

/-! ### What the writing commands leave (20_memory.md R34, R38) -/

theorem writeBits_outside {m m' : Memory} {c c' : Cursor} {value size a : Nat}
    (h : writeBits m c value size = .ok (m', c')) (ha : ¬ InFootprint c.ptr (footprint c.off size) a) :
    m'.readByte a = m.readByte a := by
  obtain ⟨-, rfl, -⟩ := (writeBits_eq_ok_iff ..).1 h
  exact m.readByte_storeBytes_outside c.ptr a _ _ ha

theorem Header.fits_of_encodeHeader {m m' : Memory} {hd : Header} {ptr cap : Nat} {c : Cursor}
    (h : encodeHeader m hd ptr cap = .ok (m', c)) : hd.Fits ptr cap := by
  unfold encodeHeader at h
  split_ifs at h
  unfold Header.Fits
  omega

theorem encodeHeader_outside {m m' : Memory} {hd : Header} {ptr cap a : Nat} {c : Cursor}
    (h : encodeHeader m hd ptr cap = .ok (m', c)) (ha : ¬ InFootprint ptr (headerBytes hd.wordSize) a) :
    m'.readByte a = m.readByte a := by
  obtain ⟨m1, hok, -, -, -, -, houtside, -⟩ := encodeHeader_of_fits m (Header.fits_of_encodeHeader h)
  rw [h] at hok
  cases hok
  exact houtside a ha

/-- Settles O19: a failure raises, and a success sets memory and cursor and reports it; the bytes
outside the footprint are kept by `writeBits_outside` and `encodeHeader_outside`. -/
theorem writingCommandsFrame : Obligations.WritingCommandsFrame := by
  constructor
  · intro s t h
    simp only [exec, execWriteBits] at h
    split at h <;> cases h
    · exact ⟨rfl, fun _ _ => rfl⟩
    · next hok => exact ⟨rfl, fun _ => writeBits_outside hok⟩
  · intro s t h
    simp only [exec, execHdrEncode] at h
    split at h <;> cases h
    · exact ⟨rfl, fun _ _ => rfl⟩
    · next hok => exact ⟨rfl, fun _ => encodeHeader_outside (hd := s.header) hok⟩

/-! ### What the commands that write no memory leave (R49) -/

theorem State.finishTable_frame (s : State) (r : TableStep) :
    s.finishTable r = { s with table := (s.finishTable r).table, alloc := (s.finishTable r).alloc,
                               status := (s.finishTable r).status } := by
  simp only [State.finishTable]
  split <;> rfl

theorem ftBuildFrom_frame (n0 : Nat) (s : State) :
    ftBuildFrom n0 s =
      { s with hws := (ftBuildFrom n0 s).hws, hpad := (ftBuildFrom n0 s).hpad,
               huw := (ftBuildFrom n0 s).huw, table := (ftBuildFrom n0 s).table,
               alloc := (ftBuildFrom n0 s).alloc, status := (ftBuildFrom n0 s).status } := by
  simp only [ftBuildFrom]
  generalize build n0 s.mem _ _ _ _ _ = r
  cases r.result <;> rfl

/-- What the table commands other than `FT_LOOKUP` and `FT_BUILD` leave. -/
theorem tableCommand_frame {i : Instr} {s t : State}
    (hi : i = .ftInit ∨ i = .ftRelease ∨ i = .ftResize ∨ i = .ftAdd) (h : exec i s = .next t) :
    t = { s with table := t.table, alloc := t.alloc, status := t.status } := by
  rcases hi with rfl | rfl | rfl | rfl
  · simp only [exec, execFtInit] at h
    split_ifs at h <;> cases h <;> rfl
  · simp only [exec, execFtRelease] at h
    split at h <;> cases h <;> rfl
  · simp only [exec, execFtResize] at h
    split at h <;> cases h
    exacts [rfl, s.finishTable_frame _]
  · simp only [exec, execFtAdd] at h
    split at h <;> cases h
    exacts [rfl, s.finishTable_frame _]

/-- Settles O20: every branch of the eight commands is built of updates of the fields named. -/
theorem readingCommandsFrame : Obligations.ReadingCommandsFrame := by
  refine ⟨fun s t h => ?readBits, fun s t h => ?hdrDecode, fun _ _ _ => tableCommand_frame,
    fun s t h => ?ftLookup, fun s t h => ?ftBuild⟩
  case readBits =>
    simp only [exec, execReadBits] at h
    split at h <;> cases h <;> rfl
  case hdrDecode =>
    simp only [exec, execHdrDecode] at h
    split at h <;> cases h <;> rfl
  case ftLookup =>
    simp only [exec, execFtLookup] at h
    split at h
    · cases h
      rfl
    · split at h <;> cases h <;> rfl
  case ftBuild =>
    cases h
    exact ftBuildFrom_frame _ s

end Sys2Proof.Machine
end

section
/-!
# The bit cursor (40_bitcursor.md)
-/

namespace Sys2Proof.Machine

/-! ### The cursor (R60, R61, R66) -/

/-- A field fits exactly if its first part fits and the rest fits where the first part ends. -/
theorem Cursor.fits_add_iff {a b : Nat} (c : Cursor) (ha : 1 ≤ a) (hb : 1 ≤ b) (hab : a + b ≤ 64) :
    c.Fits (a + b) ↔ c.Fits a ∧ (c.advance a).Fits b := by
  simp only [Cursor.Fits, Cursor.advance, footprint_eq]
  omega

/-- The registers past a field that fits, the capacity consumed given as a sum. -/
theorem State.cursor_advance_toNat {s : State} {size : Nat} (h : s.cursor.Fits size) :
    (BitVec.ofNat 64 (s.cursor.advance size).ptr).toNat = s.ptr.toNat + (s.off.toNat + size) / 8 ∧
      (BitVec.ofNat 8 (s.cursor.advance size).off).toNat = (s.off.toNat + size) % 8 ∧
      (BitVec.ofNat 64 (s.cursor.advance size).cap).toNat + (s.off.toNat + size) / 8 =
        s.cap.toNat := by
  obtain ⟨-, -, -, -, htop, hcap⟩ := h
  have hcap_lt := s.cap.isLt
  simp only [State.cursor, Cursor.advance, footprint_eq, BitVec.toNat_ofNat] at htop hcap ⊢
  omega

/-! ### The failures that `READ_BITS` and `WRITE_BITS` share (R62, R67) -/

theorem Cursor.fieldError_of_null {c : Cursor} {size : Nat} (h : c.ptr = 0) :
    c.fieldError size = some .nullPointer := if_pos h

theorem Cursor.fieldError_of_invalid {c : Cursor} {size : Nat} (hptr : c.ptr ≠ 0)
    (h : 8 ≤ c.off ∨ size = 0 ∨ 64 < size ∨ 2 ^ 64 ≤ c.ptr + footprint c.off size) :
    c.fieldError size = some .invalidValue := by
  rw [Cursor.fieldError, if_neg hptr]
  split_ifs
  · rfl
  · rfl
  · omega
  · omega

theorem Cursor.fieldError_of_space {c : Cursor} {size : Nat} (hptr : c.ptr ≠ 0) (hoff : c.off < 8)
    (hpos : size ≠ 0) (hle : size ≤ 64) (htop : c.ptr + footprint c.off size < 2 ^ 64)
    (hcap : c.cap < footprint c.off size) : c.fieldError size = some .insufficientSpace := by
  rw [Cursor.fieldError, if_neg hptr, if_neg (by omega), if_neg (by omega), if_pos hcap]

theorem exec_readBits_of_error {s : State} {e : ErrKind}
    (h : s.cursor.fieldError s.size.toNat = some e) : exec .readBits s = .next (s.raise e) := by
  simp only [exec, execReadBits, readBits, h]

theorem exec_writeBits_of_error {s : State} {e : ErrKind}
    (h : s.cursor.fieldError s.size.toNat = some e) : exec .writeBits s = .next (s.raise e) := by
  simp only [exec, execWriteBits, writeBits, h]

/-- The three failures, in their order, of a command that raises the error its field checks report. -/
theorem fieldCommand_failures {i : Instr} {s : State}
    (hraise : ∀ {e}, s.cursor.fieldError s.size.toNat = some e → exec i s = .next (s.raise e)) :
    (s.ptr = 0 → exec i s = .next { s with status := 1 }) ∧
    (s.ptr ≠ 0 →
      8 ≤ s.off.toNat ∨ s.size = 0 ∨ 64 < s.size.toNat ∨
        2 ^ 64 ≤ s.ptr.toNat + footprint s.off.toNat s.size.toNat →
      exec i s = .next { s with status := 2 }) ∧
    (s.ptr ≠ 0 → s.off.toNat < 8 → s.size ≠ 0 → s.size.toNat ≤ 64 →
      s.ptr.toNat + footprint s.off.toNat s.size.toNat < 2 ^ 64 →
      s.cap.toNat < footprint s.off.toNat s.size.toNat →
      exec i s = .next { s with status := 3 }) := by
  simp only [ne_eq, ← BitVec.toNat_inj]
  exact ⟨fun hnull => hraise (Cursor.fieldError_of_null hnull),
    fun hptr hbad => hraise (Cursor.fieldError_of_invalid hptr hbad),
    fun hptr hoff hpos hle htop hcap =>
      hraise (Cursor.fieldError_of_space hptr hoff hpos hle htop hcap)⟩

/-! ### `READ_BITS` (R62, R63) -/

theorem exec_readBits_of_fits {s : State} (h : s.cursor.Fits s.size.toNat) :
    exec .readBits s = .next (((s.setVal (s.mem.fieldAt (8 * s.ptr.toNat + s.off.toNat)
      s.size.toNat)).setCursor (s.cursor.advance s.size.toNat)).succeed) := by
  simp only [exec, execReadBits, readBits_of_fits s.mem h]
  rfl

/-- Settles O22: a field that fits is below `2^64`, so `VAL` holds all of it; the failures are those of
the field checks. -/
theorem readBitsCommand : Obligations.ReadBitsCommand := by
  refine fun s => ⟨fun hfit => ?_, fieldCommand_failures exec_readBits_of_error⟩
  obtain ⟨hptr, hoff, hcap⟩ := State.cursor_advance_toNat hfit
  refine ⟨_, exec_readBits_of_fits hfit, ?_, hptr, hoff, hcap, rfl⟩
  obtain ⟨-, -, -, hle, -⟩ := hfit
  have hpow : 2 ^ s.size.toNat ≤ 2 ^ 64 := Nat.pow_le_pow_right (by decide) hle
  exact (BitVec.toNat_ofNat ..).trans (Nat.mod_eq_of_lt ((s.mem.fieldAt_lt _ _).trans_le hpow))

/-- Settles O24: the parts of a field that fits fit too, and its value is `2^b * A + B`, where `A` is
the value of the first part and `B < 2^b` that of the second. -/
theorem readSplitsInTwo : Obligations.ReadSplitsInTwo := by
  intro m c c' a b v ha hb hab h
  obtain ⟨hfit, rfl, rfl⟩ := (readBits_eq_ok_iff ..).1 h
  obtain ⟨hfit1, hfit2⟩ := (c.fits_add_iff ha hb hab).1 hfit
  have hlow := m.fieldAt_lt (8 * c.ptr + c.off + a) b
  have hvalue : m.fieldAt (8 * c.ptr + c.off) (a + b) =
      2 ^ b * m.fieldAt (8 * c.ptr + c.off) a + m.fieldAt (8 * c.ptr + c.off + a) b := by
    rw [Memory.fieldAt_add, Nat.mul_comm]
  refine ⟨c.advance a, ?_, ?_⟩
  · rw [readBits_of_fits m hfit1, hvalue, Nat.shiftRight_eq_div_pow,
      Nat.mul_add_div (Nat.two_pow_pos b), Nat.div_eq_of_lt hlow, Nat.add_zero]
  · rw [readBits_of_fits m hfit2, Cursor.advance_position, Cursor.advance_advance, hvalue,
      Nat.and_two_pow_sub_one_eq_mod, Nat.mul_add_mod, Nat.mod_eq_of_lt hlow]

/-- Settles O25: the value is a field of the footprint's bits, and the checks read no memory. -/
theorem readDependsOnlyOnFootprint : Obligations.ReadDependsOnlyOnFootprint := by
  refine fun m m' c size hsame => ⟨?_, fun v c' h => ?_⟩
  · have hvalue : fieldValue m' c.ptr c.off size = fieldValue m c.ptr c.off size := by
      obtain ⟨hle, -⟩ := footprint_bounds c.off size
      rw [fieldValue_eq_fieldAt, fieldValue_eq_fieldAt]
      exact Memory.fieldAt_congr_bytes (fun a ha => congrArg BitVec.toNat (hsame a ha))
        (by omega) (by omega)
    simp only [readBits, hvalue]
  · obtain ⟨-, rfl, -⟩ := (readBits_eq_ok_iff ..).1 h
    exact m.fieldAt_lt _ size

/-! ### `WRITE_BITS` (R66, R67) -/

/-- Settles O23: `writeBits_of_fits` gives the memory, and the failures are those of the field
checks. -/
theorem writeBitsCommand : Obligations.WriteBitsCommand := by
  refine fun s => ⟨fun hfit => ?_, fieldCommand_failures exec_writeBits_of_error⟩
  obtain ⟨m', hok, hwrote, houtside, -⟩ := writeBits_of_fits s.mem s.val.toNat hfit
  have hexec : exec .writeBits s =
      .next (((s.setMem m').setCursor (s.cursor.advance s.size.toNat)).succeed) := by
    simp only [exec, execWriteBits, hok]
  obtain ⟨hptr, hoff, hcap⟩ := State.cursor_advance_toNat hfit
  exact ⟨_, hexec, hwrote, houtside, hptr, hoff, hcap, rfl⟩

/-- Everything a `write_bits` that succeeded did. -/
theorem wroteField_of_writeBits {m m' : Memory} {c c' : Cursor} {value size : Nat}
    (h : writeBits m c value size = .ok (m', c')) :
    c.Fits size ∧ WroteField m m' (8 * c.ptr + c.off) size value ∧ c' = c.advance size := by
  obtain ⟨hfit, -, hadvance⟩ := (writeBits_eq_ok_iff ..).1 h
  obtain ⟨m1, hok, hwrote, -⟩ := writeBits_of_fits m value hfit
  rw [h] at hok
  cases hok
  exact ⟨hfit, hwrote, hadvance⟩

theorem Cursor.fits_of_exec_writeBits {s t : State} (h : exec .writeBits s = .next t)
    (h0 : t.status = 0) : s.cursor.Fits s.size.toNat := by
  rw [← Cursor.fieldError_eq_none_iff]
  cases herr : s.cursor.fieldError s.size.toNat with
  | none => rfl
  | some e =>
    rw [exec_writeBits_of_error herr] at h
    cases h
    exact absurd h0 e.code_ne_zero

/-! ### Laws of writes (R69) -/

/-- Settles O26: a write that reports success had a field that fits; the read at the same position has
the same field, which now holds the clipped value. -/
theorem writeThenReadRoundTrip : Obligations.WriteThenReadRoundTrip := by
  intro s t h h0
  have hfit := Cursor.fits_of_exec_writeBits h h0
  obtain ⟨hsuccess, -⟩ := writeBitsCommand s
  obtain ⟨t', ht', hwrote, -, hptr, hoff, hcap, hframe⟩ := hsuccess hfit
  rw [h] at ht'
  cases ht'
  have hsize : t.size = s.size := by rw [hframe]
  obtain ⟨hread, -⟩ := readBitsCommand { t with ptr := s.ptr, off := s.off, cap := s.cap }
  obtain ⟨u, hu, hval, hptr', hoff', hcap', hframe'⟩ :=
    hread (show s.cursor.Fits t.size.toNat from hsize ▸ hfit)
  simp only [hsize] at hval hptr' hoff' hcap'
  refine ⟨by omega, u, hu, by rw [hframe'], hval.trans hwrote.field, ?_, ?_, ?_⟩ <;>
    apply BitVec.eq_of_toNat_eq <;> omega

theorem Memory.same_of_streamBit_eq {m m' : Memory} (h : ∀ Q, m'.streamBit Q = m.streamBit Q) :
    m.Same m' := by
  intro a
  apply BitVec.eq_of_toNat_eq
  change m'.read a = m.read a
  rw [← Memory.fieldAt_byte, ← Memory.fieldAt_byte]
  exact Memory.fieldAt_congr fun k _ => h (8 * a + k)

/-- What a write changes fixes what memory then reads. -/
theorem WroteField.same {m m1 m2 : Memory} {P size value : Nat} (h1 : WroteField m m1 P size value)
    (h2 : WroteField m m2 P size value) : m1.Same m2 := by
  refine Memory.same_of_streamBit_eq fun Q => ?_
  by_cases hQ : Q < P ∨ P + size ≤ Q
  · rw [h1.others Q hQ, h2.others Q hQ]
  · have hbits := Memory.streamBit_of_fieldAt_eq (h2.field.trans h1.field.symm) (Q - P) (by omega)
    rwa [show P + (Q - P) = Q by omega] at hbits

/-- Writing the value a field already holds changes nothing. -/
theorem WroteField.refl {m m' : Memory} {P size value : Nat} (h : WroteField m m' P size value) :
    WroteField m' m' P size value := ⟨h.field, fun _ _ => rfl⟩

/-- Two adjacent writes come to one write of both values, the first value the high part. -/
theorem WroteField.append {m m1 m2 : Memory} {P a b v1 v2 : Nat} (h1 : WroteField m m1 P a v1)
    (h2 : WroteField m1 m2 (P + a) b v2) :
    WroteField m m2 P (a + b) (v1 % 2 ^ a * 2 ^ b + v2 % 2 ^ b) := by
  have hfirst : m2.fieldAt P a = v1 % 2 ^ a := by
    rw [← h1.field]
    exact Memory.fieldAt_congr fun k hk => h2.others _ (.inl (by omega))
  have hfield : m2.fieldAt P (a + b) = v1 % 2 ^ a * 2 ^ b + v2 % 2 ^ b := by
    rw [Memory.fieldAt_add, hfirst, h2.field]
  refine ⟨?_, fun Q hQ => ?_⟩
  · rw [← hfield, Nat.mod_eq_of_lt (m2.fieldAt_lt P (a + b))]
  · rw [h2.others Q (by omega), h1.others Q (by omega)]

/-- The write of a joined value and the two writes of its parts leave memories that read the same. -/
theorem writeBits_append_same {m m' m1 m2 : Memory} {c c' c1 c2 : Cursor} {v1 v2 a b : Nat}
    (h : writeBits m c (v1 % 2 ^ a * 2 ^ b + v2 % 2 ^ b) (a + b) = .ok (m', c'))
    (h1 : writeBits m c v1 a = .ok (m1, c1)) (h2 : writeBits m1 c1 v2 b = .ok (m2, c2)) :
    c2 = c' ∧ m'.Same m2 := by
  obtain ⟨-, hwrote, rfl⟩ := wroteField_of_writeBits h
  obtain ⟨-, hwrote1, rfl⟩ := wroteField_of_writeBits h1
  obtain ⟨-, hwrote2, rfl⟩ := wroteField_of_writeBits h2
  rw [Cursor.advance_position] at hwrote2
  exact ⟨c.advance_advance a b, hwrote.same (hwrote1.append hwrote2)⟩

/-- Settles O27: the whole field fits exactly if both parts do, so the writes succeed together, and
`writeBits_append_same` compares what they leave. -/
theorem writeSplitsInTwo : Obligations.WriteSplitsInTwo := by
  intro m c v1 v2 a b ha hb hab
  have hsplit := c.fits_add_iff ha hb hab
  refine ⟨fun m' c' h => ?_, fun m1 c1 m2 c2 h1 h2 => ?_⟩
  · obtain ⟨hfit, -⟩ := (writeBits_eq_ok_iff ..).1 h
    obtain ⟨hfit1, hfit2⟩ := hsplit.1 hfit
    obtain ⟨m1, h1, -⟩ := writeBits_of_fits m v1 hfit1
    obtain ⟨m2, h2, -⟩ := writeBits_of_fits m1 v2 hfit2
    obtain ⟨rfl, hsame⟩ := writeBits_append_same h h1 h2
    exact ⟨m1, _, m2, h1, h2, hsame⟩
  · obtain ⟨hfit1, -, rfl⟩ := (writeBits_eq_ok_iff ..).1 h1
    obtain ⟨hfit2, -⟩ := (writeBits_eq_ok_iff ..).1 h2
    obtain ⟨m', h, -⟩ := writeBits_of_fits m (v1 % 2 ^ a * 2 ^ b + v2 % 2 ^ b)
      (hsplit.2 ⟨hfit1, hfit2⟩)
    obtain ⟨rfl, hsame⟩ := writeBits_append_same h h1 h2
    exact ⟨m', h, hsame⟩

/-- Settles O28: after the first write the field holds the value already, and by `WroteField.same` the
repeat leaves what that write left. -/
theorem repeatedWriteChangesNothing : Obligations.RepeatedWriteChangesNothing := by
  intro m m1 c c1 v size h
  obtain ⟨hfit, hwrote, rfl⟩ := wroteField_of_writeBits h
  obtain ⟨m2, hok, hagain, -⟩ := writeBits_of_fits m1 v hfit
  exact ⟨m2, hok, hwrote.refl.same hagain⟩

end Sys2Proof.Machine
end

section
/-!
# The header codec (41_header_codec.md)
-/

namespace Sys2Proof.Machine

/-! ### `clog2` (R80) -/

/-- From 2 on `clog2` is the library's ceiling logarithm. -/
theorem clog2_eq_clog {x : Nat} (hx : 2 ≤ x) : clog2 x = Nat.clog 2 x := by
  have hsucc : Nat.clog 2 x - 1 + 1 = Nat.clog 2 x :=
    Nat.sub_add_cancel (Nat.clog_pos Nat.one_lt_two hx)
  have hlo : 2 ^ (Nat.clog 2 x - 1) < x := Nat.pow_pred_clog_lt_self Nat.one_lt_two hx
  have hhi : x ≤ 2 ^ (Nat.clog 2 x - 1 + 1) := hsucc ▸ Nat.le_pow_clog Nat.one_lt_two x
  exact (clog2_eq_succ hx hlo hhi).trans hsucc

theorem log2_eq_of_highest_bit {x hb : Nat} (hbit : x.testBit hb = true)
    (habove : ∀ i, hb < i → x.testBit i = false) : Nat.log2 x = hb := by
  have hlo : 2 ^ hb ≤ x := Nat.ge_two_pow_of_testBit hbit
  have hhi : x < 2 ^ (hb + 1) := Nat.lt_pow_two_of_testBit x habove
  exact (Nat.log2_eq_iff (Nat.ne_of_gt ((Nat.two_pow_pos hb).trans_le hlo))).2 ⟨hlo, hhi⟩

/-- Settles O30: `Nat.log2` is the position of the highest set bit, and `Nat.clog` is the least
exponent. -/
theorem clog2IsCeilingLogarithm : Obligations.Clog2IsCeilingLogarithm := by
  refine ⟨rfl, fun x hb hx hbit habove => ?_, fun x c hx => ?_⟩
  · rw [clog2, if_neg (by omega), if_neg (by omega), log2_eq_of_highest_bit hbit habove, lowBits]
  · rw [clog2_eq_clog hx, Nat.clog_le_iff_le_pow Nat.one_lt_two]

/-! ### The cursor past a header (R85, R91) -/

/-- The registers past a header that lies in the space, the capacity consumed given as a sum. -/
theorem State.header_advance_toNat {s : State} {ws : Nat}
    (htop : s.ptr.toNat + headerBytes ws < 2 ^ 64) (hcap : headerBytes ws ≤ s.cap.toNat) :
    let c := (Cursor.mk s.ptr.toNat 0 s.cap.toNat).advance (headerBits ws)
    (BitVec.ofNat 64 c.ptr).toNat = s.ptr.toNat + headerBits ws / 8 ∧
      (BitVec.ofNat 8 c.off).toNat = headerBits ws % 8 ∧
      (BitVec.ofNat 64 c.cap).toNat + headerBits ws / 8 = s.cap.toNat := by
  have hcap_lt := s.cap.isLt
  simp only [headerBytes_eq, footprint_eq, Cursor.advance, BitVec.toNat_ofNat] at htop hcap ⊢
  omega

/-! ### `HDR_ENCODE` (R84, R85) -/

section

variable {m : Memory} {h : Header} {ptr cap : Nat}

theorem encodeHeader_of_null (hnull : ptr = 0) : encodeHeader m h ptr cap = .error .nullPointer :=
  if_pos hnull

theorem encodeHeader_of_invalid (hptr : ptr ≠ 0)
    (hbad : h.wordSize < 2 ∨ 64 < h.wordSize ∨ h.uniqueWords = 0 ∨ 2 ^ h.wordSize < h.uniqueWords ∨
      h.wordSize ≤ h.padBits ∨ 2 ^ 64 ≤ ptr + headerBytes h.wordSize) :
    encodeHeader m h ptr cap = .error .invalidValue := by
  rw [encodeHeader, if_neg hptr]
  by_cases hws : h.wordSize < 2 ∨ 64 < h.wordSize
  · rw [if_pos hws]
  rw [if_neg hws]
  by_cases hfields : h.uniqueWords = 0 ∨ 2 ^ h.wordSize < h.uniqueWords ∨ h.wordSize ≤ h.padBits
  · rw [if_pos hfields]
  · rw [if_neg hfields, if_pos (by omega)]

theorem encodeHeader_of_space (hptr : ptr ≠ 0) (hws : 2 ≤ h.wordSize) (hws' : h.wordSize ≤ 64)
    (huw : h.uniqueWords ≠ 0) (huw' : h.uniqueWords ≤ 2 ^ h.wordSize) (hpad : h.padBits < h.wordSize)
    (htop : ptr + headerBytes h.wordSize < 2 ^ 64) (hcap : cap < headerBytes h.wordSize) :
    encodeHeader m h ptr cap = .error .insufficientSpace := by
  rw [encodeHeader, if_neg hptr, if_neg (by omega), if_neg (by omega), if_neg (by omega),
    if_pos hcap]

end

theorem exec_hdrEncode_of_error {s : State} {e : ErrKind}
    (h : encodeHeader s.mem s.header s.ptr.toNat s.cap.toNat = .error e) :
    exec .hdrEncode s = .next (s.raise e) := by
  simp only [exec, execHdrEncode, h]

theorem exec_hdrEncode_of_ok {s : State} {m : Memory} {c : Cursor}
    (h : encodeHeader s.mem s.header s.ptr.toNat s.cap.toNat = .ok (m, c)) :
    exec .hdrEncode s = .next (((s.setMem m).setCursor c).succeed) := by
  simp only [exec, execHdrEncode, h]

/-- An `HDR_ENCODE` that reports success is an `encode` that succeeded. -/
theorem encodeHeader_of_exec {s t : State} (h : exec .hdrEncode s = .next t) (h0 : t.status = 0) :
    ∃ m c, encodeHeader s.mem s.header s.ptr.toNat s.cap.toNat = .ok (m, c) ∧
      t = ((s.setMem m).setCursor c).succeed := by
  cases henc : encodeHeader s.mem s.header s.ptr.toNat s.cap.toNat with
  | error e =>
    rw [exec_hdrEncode_of_error henc] at h
    cases h
    exact absurd h0 e.code_ne_zero
  | ok r =>
    rw [exec_hdrEncode_of_ok henc] at h
    cases h
    exact ⟨r.1, r.2, rfl, rfl⟩

/-- Settles O32: `encodeHeader_of_fits` gives the memory, and each failure is that of the first check
of R84 that applies. -/
theorem hdrEncodeCommand : Obligations.HdrEncodeCommand := by
  intro s
  simp only [ne_eq, ← BitVec.toNat_inj (x := s.ptr), ← BitVec.toNat_inj (x := s.huw)]
  refine ⟨fun hfit => ?_, fun hnull => ?_, fun hptr hbad => ?_, ?_⟩
  · obtain ⟨m', hok, hsize, hpad, hwords, hothers, houtside, -⟩ := encodeHeader_of_fits s.mem hfit
    obtain ⟨-, -, -, huw, -, -, htop, hcap⟩ := hfit
    obtain ⟨hptr', hoff', hcap'⟩ := State.header_advance_toNat htop hcap
    exact ⟨_, exec_hdrEncode_of_ok hok, hsize, hpad,
      (congrArg (· + 1) hwords).trans (Nat.sub_add_cancel huw), hothers, houtside, hptr', hoff',
      hcap', rfl⟩
  · exact exec_hdrEncode_of_error (encodeHeader_of_null hnull)
  · exact exec_hdrEncode_of_error (encodeHeader_of_invalid hptr hbad)
  · exact fun hptr hws hws' huw huw' hpad htop hcap =>
      exec_hdrEncode_of_error (encodeHeader_of_space hptr hws hws' huw huw' hpad htop hcap)

/-! ### `HDR_DECODE` (R90, R91) -/

/-- `decode` past its pre-check, in the order of its tests, on the fields of the stream. -/
theorem decodeHeader_eq {m : Memory} {ptr cap ws : Nat} (hptr : ptr ≠ 0) (htop : ptr + 2 < 2 ^ 64)
    (hcap : 2 ≤ cap) (hws : ws = m.fieldAt (8 * ptr) 6) :
    decodeHeader m ptr cap =
      if ws < 2 then .error .invalidData
      else if 2 ^ 64 ≤ ptr + headerBytes ws then .error .invalidValue
      else if cap < headerBytes ws then .error .insufficientSpace
      else if ws ≤ m.fieldAt (8 * ptr + 6) (clog2 ws) then .error .invalidData
      else .ok (⟨ws, m.fieldAt (8 * ptr + 6) (clog2 ws),
          m.fieldAt (8 * ptr + 6 + clog2 ws) ws + 1⟩,
        (Cursor.mk ptr 0 cap).advance (headerBits ws)) := by
  have hlt : ws < 64 := hws ▸ m.fieldAt_lt _ 6
  have hfit : (Cursor.mk ptr 0 cap).Fits 6 := by
    simp only [Cursor.Fits, footprint_eq]
    omega
  rw [decodeHeader, if_neg hptr, if_neg (by omega), if_neg (by omega), readBits_of_fits m hfit]
  simp only [bind, Except.bind, Nat.add_zero, ← hws, or_iff_left (show ¬ 64 < ws by omega)]
  by_cases hws2 : ws < 2
  · simp only [if_pos hws2]
  by_cases htop' : 2 ^ 64 ≤ ptr + headerBytes ws
  · simp only [if_neg hws2, if_pos htop']
  by_cases hcap' : cap < headerBytes ws
  · simp only [if_neg hws2, if_neg htop', if_pos hcap']
  simp only [if_neg hws2, if_neg htop', if_neg hcap']
  have hspace := Nat.not_le.1 htop'
  have hroom := Nat.not_lt.1 hcap'
  rw [headerBytes_eq] at hspace hroom
  obtain ⟨hc1, hc2, -⟩ := clog2_bounds ws hlt.le (by omega)
  have hfit2 : ((Cursor.mk ptr 0 cap).advance 6).Fits (clog2 ws) :=
    Cursor.advance_fits hptr hspace hroom hc1 (by omega) (Nat.le_add_right _ ws)
  have hfit3 : (((Cursor.mk ptr 0 cap).advance 6).advance (clog2 ws)).Fits ws := by
    rw [Cursor.advance_advance]
    exact Cursor.advance_fits hptr hspace hroom (by omega) hlt.le le_rfl
  simp only [readBits_of_fits m hfit2, readBits_of_fits m hfit3, Cursor.advance_position,
    Nat.add_zero]
  by_cases hpad : ws ≤ m.fieldAt (8 * ptr + 6) (clog2 ws)
  · simp only [if_pos hpad]
  · simp only [if_neg hpad, Cursor.advance_advance]
    rfl

section

variable {m : Memory} {ptr cap : Nat}

theorem decodeHeader_of_null (hnull : ptr = 0) : decodeHeader m ptr cap = .error .nullPointer :=
  if_pos hnull

theorem decodeHeader_of_top (hptr : ptr ≠ 0) (htop : 2 ^ 64 ≤ ptr + 2) :
    decodeHeader m ptr cap = .error .invalidValue := by
  rw [decodeHeader, if_neg hptr, if_pos htop]

theorem decodeHeader_of_short (hptr : ptr ≠ 0) (htop : ptr + 2 < 2 ^ 64) (hcap : cap < 2) :
    decodeHeader m ptr cap = .error .insufficientSpace := by
  rw [decodeHeader, if_neg hptr, if_neg (by omega), if_pos hcap]

/-- A header that `decode` accepts stands in the stream at `ptr`. -/
theorem fields_of_decodeHeader {h : Header} {c : Cursor}
    (hdec : decodeHeader m ptr cap = .ok (h, c)) :
    h.Fits ptr cap ∧ m.fieldAt (8 * ptr) 6 = h.wordSize ∧
      m.fieldAt (8 * ptr + 6) (clog2 h.wordSize) = h.padBits ∧
      m.fieldAt (8 * ptr + 6 + clog2 h.wordSize) h.wordSize = h.uniqueWords - 1 ∧
      c = (Cursor.mk ptr 0 cap).advance (headerBits h.wordSize) := by
  obtain ⟨hws, hws', hpad, huw, huw'⟩ := decodeHeader_legal hdec
  have hcheck : ptr ≠ 0 ∧ ptr + 2 < 2 ^ 64 ∧ 2 ≤ cap := by
    unfold decodeHeader at hdec
    split_ifs at hdec
    omega
  obtain ⟨hptr, htop, hcap⟩ := hcheck
  rw [decodeHeader_eq hptr htop hcap rfl] at hdec
  split_ifs at hdec with hsize htop' hcap' hpad'
  cases hdec
  exact ⟨⟨hptr, hws, by omega, huw, huw', hpad, Nat.not_le.1 htop', Nat.not_lt.1 hcap'⟩,
    rfl, rfl, rfl, rfl⟩

end

theorem exec_hdrDecode_of_error {s : State} {e : ErrKind}
    (h : decodeHeader s.mem s.ptr.toNat s.cap.toNat = .error e) :
    exec .hdrDecode s = .next (s.raise e) := by
  simp only [exec, execHdrDecode, h]

theorem exec_hdrDecode_of_ok {s : State} {hd : Header} {c : Cursor}
    (h : decodeHeader s.mem s.ptr.toNat s.cap.toNat = .ok (hd, c)) :
    exec .hdrDecode s = .next (((s.setHeader hd).setCursor c).succeed) := by
  simp only [exec, execHdrDecode, h]

/-- An `HDR_DECODE` that reports success is a `decode` that succeeded. -/
theorem decodeHeader_of_exec {s t : State} (h : exec .hdrDecode s = .next t) (h0 : t.status = 0) :
    ∃ hd c, decodeHeader s.mem s.ptr.toNat s.cap.toNat = .ok (hd, c) ∧
      t = ((s.setHeader hd).setCursor c).succeed := by
  cases hdec : decodeHeader s.mem s.ptr.toNat s.cap.toNat with
  | error e =>
    rw [exec_hdrDecode_of_error hdec] at h
    cases h
    exact absurd h0 e.code_ne_zero
  | ok r =>
    rw [exec_hdrDecode_of_ok hdec] at h
    cases h
    exact ⟨r.1, r.2, rfl, rfl⟩

/-- A header that decodes reads back from the registers as it was decoded. -/
theorem State.header_of_decodeHeader {m : Memory} {ptr cap : Nat} {hd : Header} {c : Cursor}
    (hdec : decodeHeader m ptr cap = .ok (hd, c)) (s : State) : (s.setHeader hd).header = hd := by
  obtain ⟨-, hws, hpad, -, huw⟩ := decodeHeader_legal hdec
  have hpow : 2 ^ hd.wordSize ≤ 2 ^ 63 := Nat.pow_le_pow_right (by decide) hws
  exact s.header_setHeader (by omega) (by omega) (by omega)

/-- Settles O33: past the pre-check the tests are those of `decodeHeader_eq`, and a header that
decodes fits its registers. -/
theorem hdrDecodeCommand : Obligations.HdrDecodeCommand := by
  intro s ws hws
  simp only [ne_eq, ← BitVec.toNat_inj (x := s.ptr)]
  refine ⟨fun hnull => ?_, fun hptr htop => ?_, fun hptr htop hcap => ?_, fun hptr htop hcap => ?_⟩
  · exact exec_hdrDecode_of_error (decodeHeader_of_null hnull)
  · exact exec_hdrDecode_of_error (decodeHeader_of_top hptr htop)
  · exact exec_hdrDecode_of_error (decodeHeader_of_short hptr htop hcap)
  have heq := decodeHeader_eq hptr htop hcap hws
  refine ⟨fun hws2 => ?_, fun hws2 htop' => ?_, fun hws2 htop' hcap' => ?_, fun hws2 htop' hcap' =>
    ⟨fun hpad => ?_, fun hpad => ?_⟩⟩
  · rw [if_pos hws2] at heq
    exact exec_hdrDecode_of_error heq
  · rw [if_neg (by omega), if_pos htop'] at heq
    exact exec_hdrDecode_of_error heq
  · rw [if_neg (by omega), if_neg (by omega), if_pos hcap'] at heq
    exact exec_hdrDecode_of_error heq
  · rw [if_neg (by omega), if_neg (by omega), if_neg (by omega), if_pos hpad] at heq
    exact exec_hdrDecode_of_error heq
  · rw [if_neg (by omega), if_neg (by omega), if_neg (by omega), if_neg (by omega)] at heq
    obtain ⟨hptr', hoff', hcap''⟩ := State.header_advance_toNat htop' hcap'
    have hread := State.header_of_decodeHeader heq s
    simp only [State.header, Header.mk.injEq] at hread
    obtain ⟨hhws, hhpad, hhuw⟩ := hread
    exact ⟨_, exec_hdrDecode_of_ok heq, hhws, hhpad, hhuw, hptr', hoff', hcap'', rfl⟩

/-! ### Round trips (R86, R92) -/

/-- R92, first part: a word size of at most 63 fits its field of 6 bits, so the fields written are
those of a header that decodes. -/
theorem decodeHeader_of_encodeHeader {m m' : Memory} {h : Header} {ptr cap : Nat} {c : Cursor}
    (henc : encodeHeader m h ptr cap = .ok (m', c)) (h63 : h.wordSize ≤ 63) :
    decodeHeader m' ptr cap = .ok (h, c) := by
  have hfit := Header.fits_of_encodeHeader henc
  obtain ⟨m1, hok, hsize, hpad, hwords, -⟩ := encodeHeader_of_fits m hfit
  rw [henc] at hok
  cases hok
  obtain ⟨hptr, hws, -, huw, -, hlegal, htop, hcap⟩ := hfit
  rw [Nat.mod_eq_of_lt (by omega)] at hsize
  rw [decodeHeader_of_fits m' hsize.symm hptr hws htop hcap (hpad.trans_lt hlegal), hpad, hwords,
    Nat.sub_add_cancel huw]

/-- R92, converse: the three fields written are those the stream holds already. -/
theorem encodeHeader_of_decodeHeader {m : Memory} {h : Header} {ptr cap : Nat} {c : Cursor}
    (hdec : decodeHeader m ptr cap = .ok (h, c)) :
    ∃ m', encodeHeader m h ptr cap = .ok (m', c) ∧ m.Same m' := by
  obtain ⟨-, h63, -⟩ := decodeHeader_legal hdec
  obtain ⟨hfit, hsize, hpad, hwords, rfl⟩ := fields_of_decodeHeader hdec
  obtain ⟨m', hok, hsize', hpad', hwords', hothers, -⟩ := encodeHeader_of_fits m hfit
  have hfield : m'.fieldAt (8 * ptr) (headerBits h.wordSize) =
      m.fieldAt (8 * ptr) (headerBits h.wordSize) := by
    simp only [headerBits, Memory.fieldAt_add, ← Nat.add_assoc, hsize, hpad, hwords, hsize', hpad',
      hwords', Nat.mod_eq_of_lt (show h.wordSize < 64 by omega)]
  have hkept : WroteField m m (8 * ptr) (headerBits h.wordSize)
      (m.fieldAt (8 * ptr) (headerBits h.wordSize)) :=
    ⟨(Nat.mod_eq_of_lt (m.fieldAt_lt _ _)).symm, fun _ _ => rfl⟩
  exact ⟨m', hok, hkept.same ⟨hfield.trans hkept.field, hothers⟩⟩

/-- Settles O34: by `decodeHeader_of_encodeHeader`; the header decoded is what the registers held. -/
theorem headerRoundTrip : Obligations.HeaderRoundTrip := by
  intro s t h h0 h63
  obtain ⟨m', c, henc, rfl⟩ := encodeHeader_of_exec h h0
  have hdec := decodeHeader_of_encodeHeader henc h63
  refine ⟨_, exec_hdrDecode_of_ok hdec, rfl, ?_, ?_, ?_, rfl, rfl, rfl⟩
  all_goals exact (BitVec.ofNat_toNat ..).trans (BitVec.setWidth_eq _)

/-- Settles O35: by `encodeHeader_of_decodeHeader`; the header decoded is what the registers hold. -/
theorem decodeThenEncodeKeepsMemory : Obligations.DecodeThenEncodeKeepsMemory := by
  intro s t h h0
  obtain ⟨hd, c, hdec, rfl⟩ := decodeHeader_of_exec h h0
  obtain ⟨m', henc, hsame⟩ := encodeHeader_of_decodeHeader hdec
  have hread := State.header_of_decodeHeader hdec s
  exact ⟨_, exec_hdrEncode_of_ok (hread.symm ▸ henc), rfl, hsame, rfl, rfl, rfl⟩

/-- Settles O36: 64 is 0 modulo `2^6`, and a word size of 0 fails the test of `HDR_DECODE` that
follows its pre-check. -/
theorem wordSize64EncodesButDoesNotDecode : Obligations.WordSize64EncodesButDoesNotDecode := by
  intro s h64 hfit
  obtain ⟨hencode, -⟩ := hdrEncodeCommand s
  obtain ⟨t, ht, hsize, hpad, hwords, -, -, hptr, hoff, -, hframe⟩ := hencode hfit
  obtain ⟨hnull, -, -, -, -, -, htop, hcap⟩ := hfit
  have hclog : clog2 64 = 6 := by decide
  have hbits : headerBits 64 = 76 := by decide
  have hbytes : headerBytes 64 = 10 := by decide
  simp only [State.header, h64, hclog, hbits, hbytes] at hsize hpad hwords hptr hoff htop hcap
  obtain ⟨-, -, -, hpast⟩ := hdrDecodeCommand { t with ptr := s.ptr, cap := s.cap } 0 hsize.symm
  obtain ⟨hfail, -⟩ := hpast (fun h => hnull (congrArg BitVec.toNat h))
    (show s.ptr.toNat + 2 < 2 ^ 64 by omega) (show 2 ≤ s.cap.toNat by omega)
  exact ⟨t, ht, by rw [hframe], hsize, hpad, hwords, hptr, hoff, hfail (by decide)⟩

end Sys2Proof.Machine
end

section
/-!
# The frequency table: lifecycle, lookup and resize (42_frequency_table.md)
-/

namespace Sys2Proof.Machine

/-! ### `FT_INIT` and `FT_RELEASE` (R102, R103) -/

theorem freshTable_size_toNat {n : Nat} (h : n < 2 ^ 64) : (freshTable n).size.toNat = n :=
  (BitVec.toNat_ofNat ..).trans (Nat.mod_eq_of_lt h)

/-- Settles O38: the branches of the command; a fresh table lists no slot, so every slot reads empty. -/
theorem ftInitCommand : Obligations.FtInitCommand := by
  intro s
  refine ⟨fun hlen => if_pos hlen, fun hlen hA => (if_neg hlen).trans (if_pos hA), fun hlen hA =>
    ⟨_, (if_neg hlen).trans (if_neg (by simp [hA])), rfl, ?size, rfl, fun j hj => ?slots, rfl⟩⟩
  case size => exact BitVec.eq_of_toNat_eq (freshTable_size_toNat s.len.isLt)
  case slots => exact if_pos (hj.trans_eq (freshTable_size_toNat s.len.isLt).symm)

/-- The commands that work on the current table need one. -/
theorem exec_of_no_table {i : Instr} {s : State}
    (hi : i = .ftRelease ∨ i = .ftLookup ∨ i = .ftResize ∨ i = .ftAdd) (hs : s.table = none) :
    exec i s = .next (s.raise .nullPointer) := by
  rcases hi with rfl | rfl | rfl | rfl
  · simp only [exec, execFtRelease, hs]
  · simp only [exec, execFtLookup, hs]
  · simp only [exec, execFtResize, hs]
  · simp only [exec, execFtAdd, hs]

/-- Settles O39: by whether there is a table. -/
theorem ftReleaseCommand : Obligations.FtReleaseCommand := by
  refine fun s => ⟨fun hno => ?_, fun hvalid =>
    ⟨(s.setTable none).succeed, ?_, rfl, rfl, rfl, fun _ => rfl, rfl⟩⟩
  · exact exec_of_no_table (.inl rfl) (by simpa [State.tValid] using hno)
  · obtain ⟨t, hs⟩ := Option.isSome_iff_exists.1 hvalid
    simp only [exec, execFtRelease, hs]

/-! ### `FT_LOOKUP` (R106, R107) -/

section

variable {A : List (Nat × Slot)} {size k : Nat} {id : U64} {anm : Bool}

theorem lookup_of_probeFinds (h : ProbeFinds A size id anm k) :
    lookupOrEmpty A size id anm = .ok ((hash id size + k) % size) :=
  (lookupOrEmpty_eq_ok_iff ..).2 ⟨k, h, rfl⟩

theorem lookup_of_no_stop (h : ∀ k, k < size - 1 → ¬ ProbeStops A size id anm k) :
    lookupOrEmpty A size id anm = .error .insufficientSpace :=
  (lookupOrEmpty_eq_error_iff ..).2 ⟨rfl, h⟩

end

section

variable {s : State} {t : Table} {j : Nat}

theorem exec_ftLookup_of_ok (hs : s.table = some t)
    (hl : lookupOrEmpty t.slots t.size.toNat s.val (s.anm == 1) = .ok j) :
    exec .ftLookup s = .next (s.setSlot j).succeed := by
  simp only [exec, execFtLookup, hs, hl]

theorem exec_ftLookup_of_error {e : ErrKind} (hs : s.table = some t)
    (hl : lookupOrEmpty t.slots t.size.toNat s.val (s.anm == 1) = .error e) :
    exec .ftLookup s = .next (s.raise e) := by
  simp only [exec, execFtLookup, hs, hl]

/-- The index of a slot of a table fits the register. -/
theorem State.setSlot_toNat (s : State) (h : j < t.size.toNat) : (s.setSlot j).slot.toNat = j :=
  (BitVec.toNat_ofNat ..).trans (Nat.mod_eq_of_lt (h.trans t.size.isLt))

end

/-- Settles O40: the two results of the probe loop, and the missing table. -/
theorem ftLookupCommand : Obligations.FtLookupCommand := by
  refine fun s => ⟨exec_of_no_table (.inr (.inl rfl)), fun t k hs hk => ?_, fun t hs hno => ?_⟩
  · have ⟨hlt, _⟩ := hk
    exact ⟨_, exec_ftLookup_of_ok hs (lookup_of_probeFinds hk),
      s.setSlot_toNat (Nat.mod_lt _ (by omega)), rfl⟩
  · exact exec_ftLookup_of_error hs (lookup_of_no_stop hno)

/-! ### What a well-formed table holds (R14, R15) -/

theorem exists_mem_of_countOf_pos {A : List (Nat × Slot)} {w : U64} (h : 0 < countOf A w) :
    ∃ e ∈ A, e.2.id = w := by
  by_contra hno
  exact h.ne' (countOf_eq_zero fun e he hid => hno ⟨e, he, hid⟩)

/-- On a well-formed table an id is held in one slot, whose count is what has been counted of it. -/
theorem Table.holds_iff_countOf {t : Table} (ht : t.WF) {id : U64} {c : Nat} :
    t.Holds id c ↔ 0 < c ∧ countOf t.slots id = c := by
  obtain ⟨-, -, hA⟩ := ht
  have ⟨hwf, _, hinj, _⟩ := hA
  constructor
  · rintro ⟨hc, j, -, hid, rfl⟩
    have hocc : Occupied t.slots j := fun h0 => by simp [h0] at hc
    exact ⟨hc, countOf_of_mem hwf hinj ((occupied_iff hA).1 hocc) hid⟩
  · rintro ⟨hc, rfl⟩
    obtain ⟨⟨j, sl⟩, hmem, hid⟩ := exists_mem_of_countOf_pos hc
    have hslot : slotAt t.slots j = sl := slotAt_of_mem hA hmem
    exact ⟨hc, j, (Sparse.mem_range hwf _ hmem).2, hslot ▸ hid,
      hslot ▸ (countOf_of_mem hwf hinj hmem hid).symm⟩

theorem Table.exists_holds_iff {t : Table} (ht : t.WF) {id : U64} :
    (∃ c, t.Holds id c) ↔ 0 < countOf t.slots id := by
  simp only [Table.holds_iff_countOf ht, exists_eq_right']

/-- Settles O41: `lookup_of_mem` finds a member; what a lookup of another id answers is, by
`lookup_ok_cases`, no slot that holds it. -/
theorem lookupFindsMembers : Obligations.LookupFindsMembers := by
  intro s t hs ht hanm
  have ⟨_, _, hA⟩ := ht
  have ⟨hwf, _⟩ := hA
  have hmode : (s.anm == 1) = false := by rw [hanm]; rfl
  simp only [Table.exists_holds_iff ht]
  refine ⟨fun hpos => ?_, fun hzero => ?_⟩
  · obtain ⟨⟨j, sl⟩, hmem, hid⟩ := exists_mem_of_countOf_pos hpos
    have hl : lookupOrEmpty t.slots t.size.toNat s.val (s.anm == 1) = .ok j := by
      rw [hmode, ← hid]
      exact lookup_of_mem hA hmem
    have hj : j < t.size.toNat := (Sparse.mem_range hwf _ hmem).2
    have hslot : slotAt t.slots j = sl := slotAt_of_mem hA hmem
    refine ⟨_, exec_ftLookup_of_ok hs hl, rfl, ?_⟩
    rw [State.succeed_slot, s.setSlot_toNat hj]
    exact ⟨hj, hslot ▸ hid, (occupied_iff hA).2 (hslot ▸ hmem)⟩
  · cases hl : lookupOrEmpty t.slots t.size.toNat s.val (s.anm == 1) with
    | error e =>
      obtain ⟨rfl, -⟩ := (lookupOrEmpty_eq_error_iff ..).1 hl
      exact ⟨_, exec_ftLookup_of_error hs hl, .inr rfl⟩
    | ok j =>
      have hresult := exec_ftLookup_of_ok hs hl
      rw [hmode] at hl
      obtain ⟨hj, ⟨hocc, hid⟩ | ⟨hempty, -⟩⟩ := lookup_ok_cases hA hl
      · exact absurd (hid ▸ countOf_pos hA hocc) hzero
      · refine ⟨_, hresult, .inl ⟨rfl, ?_⟩⟩
        rw [State.succeed_slot, s.setSlot_toNat hj]
        exact ⟨hj, hempty⟩

/-! ### How a command on the current table ends -/

theorem State.finishTable_of_ok (s : State) (t : Table) (A : Allocator) :
    s.finishTable ⟨none, t, A⟩ = { s with table := some t, alloc := A, status := 0 } := rfl

theorem State.finishTable_of_error (s : State) (e : ErrKind) (t : Table) (A : Allocator) :
    s.finishTable ⟨some e, t, A⟩ = { s with table := some t, alloc := A, status := e.code } := rfl

/-- A failure that hands back the table it was given leaves the table register alone. -/
theorem State.finishTable_of_kept {s : State} {t : Table} (hs : s.table = some t) (e : ErrKind)
    (A : Allocator) : s.finishTable ⟨some e, t, A⟩ = { s with alloc := A, status := e.code } := by
  rw [State.finishTable_of_error, ← hs]

@[simp] theorem State.finishTable_table (s : State) (r : TableStep) :
    (s.finishTable r).table = some r.table := by
  rw [State.finishTable]
  split <;> rfl

theorem State.finishTable_status_eq_zero_iff (s : State) (r : TableStep) :
    (s.finishTable r).status = 0 ↔ r.error = none := by
  obtain ⟨_ | e, t, A⟩ := r
  · exact ⟨fun _ => rfl, fun _ => rfl⟩
  · exact ⟨fun h => absurd h e.code_ne_zero, fun h => nomatch h⟩

/-! ### `FT_RESIZE` (R112, R113, R114) -/

section

variable {t : Table} {A : Allocator} {n : Nat}

theorem resize_of_invalid (h : n = 0 ∨ n ≤ t.size.toNat) :
    resize t A n = ⟨some .invalidValue, t, A⟩ := if_pos (.inr h)

theorem resize_of_refused (h1 : 1 ≤ t.size.toNat) (hn : t.size.toNat < n)
    (hA : A.answer n = false) : resize t A n = ⟨some .insufficientSpace, t, A.next⟩ := by
  have hsize : t.size ≠ 0 := fun h => by simp [h] at h1
  rw [resize, if_neg (not_or.2 ⟨hsize, by omega⟩), if_pos hA]

/-- What a resize that succeeds makes of a table (R114). -/
structure Resized (t t1 : Table) (n : Nat) : Prop where
  wf : t1.WF
  size : t1.size.toNat = n
  num : t1.num = t.num
  count : ∀ w, countOf t1.slots w = countOf t.slots w
  inOrder : RehashedInOrder t.slots t1.slots t.size.toNat n

theorem Resized.holds_iff {t1 : Table} (h : Resized t t1 n) (ht : t.WF) (id : U64) (c : Nat) :
    t1.Holds id c ↔ t.Holds id c := by
  rw [Table.holds_iff_countOf h.wf, Table.holds_iff_countOf ht, h.count]

theorem exists_resized (ht : t.WF) (hn : t.size.toNat < n) (hmax : n < 2 ^ 64)
    (hA : A.answer n = true) :
    ∃ t1, resize t A n = ⟨none, t1, A.next⟩ ∧ Resized t t1 n := by
  obtain ⟨N, hresize, hwf, hcount⟩ := resize_of_granted ht hn hmax hA
  have hinOrder := resize_inOrder (A := A) (n := n) ht (by rw [hresize])
  rw [hresize] at hinOrder
  exact ⟨_, hresize, hwf, (BitVec.toNat_ofNat ..).trans (Nat.mod_eq_of_lt hmax), rfl, hcount,
    hinOrder⟩

theorem exec_ftResize_of_table {s : State} (hs : s.table = some t) :
    exec .ftResize s = .next (s.finishTable (resize t s.alloc s.len.toNat)) := by
  simp only [exec, execFtResize, hs]

end

/-- Settles O42: each clause is a branch of `resize`; that the rehash succeeds on a well-formed table
is `exists_resized`. -/
theorem ftResizeCommand : Obligations.FtResizeCommand := by
  refine fun s => ⟨exec_of_no_table (.inr (.inr (.inl rfl))), fun t hs hbad => ?_,
    fun t hs h1 hn hA => ?_, fun t hs ht hn hA => ?_⟩
  · rw [exec_ftResize_of_table hs, resize_of_invalid (hbad.imp_left (congrArg BitVec.toNat)),
      State.finishTable_of_kept hs]
    rfl
  · rw [exec_ftResize_of_table hs, resize_of_refused h1 hn hA, State.finishTable_of_kept hs]
    rfl
  · obtain ⟨t', hresize, h⟩ := exists_resized ht hn s.len.isLt hA
    rw [exec_ftResize_of_table hs, hresize, State.finishTable_of_ok]
    exact ⟨t', rfl, h.wf, BitVec.eq_of_toNat_eq h.size, h.num, h.holds_iff ht, h.inOrder⟩

end Sys2Proof.Machine
end

section
/-!
# The frequency table: adding words (42_frequency_table.md)
-/

namespace Sys2Proof.Machine

/-! ### Counting a word in a slot (R118) -/

theorem eq_maxCount_iff (x : U64) : x = maxCount ↔ x.toNat = 2 ^ 64 - 1 := by
  rw [← BitVec.toNat_inj]
  rfl

theorem toNat_add_one {x : U64} (h : x.toNat < 2 ^ 64 - 1) : (x + 1).toNat = x.toNat + 1 :=
  BitVec.toNat_add_of_lt (show x.toNat + 1 < 2 ^ 64 by omega)

/-- Table `t'` is table `t` with `w` stored as a new word in slot `j`. -/
structure Stored (t t' : Table) (j : Nat) (w : U64) : Prop where
  size : t'.size = t.size
  num : t'.num.toNat = t.num.toNat + 1
  slot : slotAt t'.slots j = ⟨w, 1⟩
  others : ∀ i, i ≠ j → slotAt t'.slots i = slotAt t.slots i

section

variable {t : Table} {A : Allocator} {j : Nat} {w : U64}

theorem countStep_of_empty (hempty : ¬ Occupied t.slots j) (hnum : t.num.toNat < 2 ^ 64 - 1) :
    ∃ t', countStep t A j w = ⟨none, t', A⟩ ∧ Stored t t' j w := by
  have hmax : t.num ≠ maxCount := fun h => by rw [eq_maxCount_iff] at h; omega
  refine ⟨⟨t.size, t.num + 1, Sparse.put j ⟨w, 1⟩ t.slots⟩, ?_, rfl, toNat_add_one hnum, ?_,
    fun i hi => ?_⟩
  · rw [countStep, countIn, if_pos (not_not.1 hempty), if_neg hmax]
  · rw [slotAt_put, if_pos rfl]
  · rw [slotAt_put, if_neg hi.symm]

theorem countStep_of_occupied (hocc : Occupied t.slots j)
    (hcount : (slotAt t.slots j).count.toNat < 2 ^ 64 - 1) :
    countStep t A j w = ⟨none, ⟨t.size, t.num,
      Sparse.put j ⟨(slotAt t.slots j).id, (slotAt t.slots j).count + 1⟩ t.slots⟩, A⟩ := by
  have hmax : (slotAt t.slots j).count ≠ maxCount := fun h => by rw [eq_maxCount_iff] at h; omega
  rw [countStep, countIn, if_neg hocc, if_neg hmax]

theorem countStep_of_full_num (hempty : ¬ Occupied t.slots j) (hnum : t.num.toNat = 2 ^ 64 - 1) :
    countStep t A j w = ⟨some .overflow, t, A⟩ := by
  rw [countStep, countIn, if_pos (not_not.1 hempty), if_pos ((eq_maxCount_iff _).2 hnum)]

theorem countStep_of_full_count (hocc : Occupied t.slots j)
    (hcount : (slotAt t.slots j).count.toNat = 2 ^ 64 - 1) :
    countStep t A j w = ⟨some .overflow, t, A⟩ := by
  rw [countStep, countIn, if_neg hocc, if_pos ((eq_maxCount_iff _).2 hcount)]

/-- A word that has not been counted is stored in the slot its lookup answers, which is empty. -/
theorem countStep_of_absent (ht : t.WF) (hnum : t.num.toNat < 2 ^ 64 - 1)
    (habs : countOf t.slots w = 0) (hl : lookupOrEmpty t.slots t.size.toNat w false = .ok j) :
    ∃ t', countStep t A j w = ⟨none, t', A⟩ ∧ Stored t t' j w ∧ Counted t t' w := by
  have ⟨_, _, hA⟩ := ht
  obtain ⟨-, ⟨hocc, hid⟩ | ⟨hempty, -⟩⟩ := lookup_ok_cases hA hl
  · have hpos := countOf_pos hA hocc
    rw [hid] at hpos
    omega
  · obtain ⟨t', hstep, hstored⟩ := countStep_of_empty (A := A) (w := w) hempty hnum
    refine ⟨t', hstep, hstored, ?_⟩
    rcases countStep_cases (A := A) ht hl with ⟨-, hcounted, -⟩ | ⟨hover, -⟩
    · rwa [hstep] at hcounted
    · rw [hstep] at hover
      cases hover

theorem countStep_size : (countStep t A j w).table.size = t.size := by
  unfold countStep countIn
  split_ifs <;> rfl

theorem addRetry_size : (addRetry t A w).table.size = t.size := by
  unfold addRetry
  split
  · exact countStep_size
  · rfl

end

/-! ### The branches of `add_or_increment` (R118) -/

section

variable {t : Table} {A : Allocator} {w : U64} {limit : Nat}

theorem addOrIncrement_of_lookup {j : Nat}
    (hl : lookupOrEmpty t.slots t.size.toNat w false = .ok j) :
    addOrIncrement t A w limit = countStep t A j w := by
  rw [addOrIncrement, hl]

theorem addOrIncrement_at_limit {e : ErrKind}
    (hl : lookupOrEmpty t.slots t.size.toNat w false = .error e) (hlimit : t.size.toNat = limit) :
    addOrIncrement t A w limit = ⟨some .insufficientSpace, t, A⟩ := by
  rw [addOrIncrement, hl]
  exact if_pos hlimit

theorem addOrIncrement_of_resize_error {e e' : ErrKind} {t' : Table} {B : Allocator}
    (hl : lookupOrEmpty t.slots t.size.toNat w false = .error e) (hlimit : t.size.toNat ≠ limit)
    (hr : resize t A (min (2 * t.size.toNat) limit) = ⟨some e', t', B⟩) :
    addOrIncrement t A w limit = ⟨some e', t', B⟩ := by
  simp only [addOrIncrement, hl, if_neg hlimit, hr]

theorem addOrIncrement_of_resized {e : ErrKind} {t1 : Table} {B : Allocator}
    (hl : lookupOrEmpty t.slots t.size.toNat w false = .error e) (hlimit : t.size.toNat ≠ limit)
    (hr : resize t A (min (2 * t.size.toNat) limit) = ⟨none, t1, B⟩) :
    addOrIncrement t A w limit = addRetry t1 B w := by
  simp only [addOrIncrement, hl, if_neg hlimit, hr]

theorem addRetry_of_lookup {j : Nat}
    (hl : lookupOrEmpty t.slots t.size.toNat w false = .ok j) :
    addRetry t A w = countStep t A j w := by
  rw [addRetry, hl]

theorem addRetry_of_error {e : ErrKind}
    (hl : lookupOrEmpty t.slots t.size.toNat w false = .error e) :
    addRetry t A w = ⟨some e, t, A⟩ := by
  rw [addRetry, hl]

theorem exec_ftAdd_of_table {s : State} (hs : s.table = some t) :
    exec .ftAdd s = .next (s.finishTable (addOrIncrement t s.alloc s.val s.tmax.toNat)) := by
  simp only [exec, execFtAdd, hs]

theorem exec_ftAdd_of_kept {s : State} {e : ErrKind} {B : Allocator} (hs : s.table = some t)
    (hadd : addOrIncrement t s.alloc s.val s.tmax.toNat = ⟨some e, t, B⟩) :
    exec .ftAdd s = .next { s with alloc := B, status := e.code } := by
  rw [exec_ftAdd_of_table hs, hadd, State.finishTable_of_kept hs]

end

/-! ### `FT_ADD` without a resize (R119, R120) -/

/-- Settles O43: `lookup_of_mem` finds the word in slot `j`, where `countStep` adds 1. -/
theorem ftAddIncrementsKnownWord : Obligations.FtAddIncrementsKnownWord := by
  intro s t j hs ht hj hocc hid hlt
  have ⟨_, _, hA⟩ := ht
  have hl := lookup_of_mem hA ((occupied_iff hA).1 hocc)
  rw [hid] at hl
  rw [exec_ftAdd_of_table hs, addOrIncrement_of_lookup hl, countStep_of_occupied hocc hlt,
    State.finishTable_of_ok]
  refine ⟨_, rfl, rfl, rfl, ?_, ?_, fun i hi => ?_⟩
  · rw [slotAt_put, if_pos rfl, hid]
  · rw [slotAt_put, if_pos rfl, toNat_add_one hlt]
  · rw [slotAt_put, if_neg hi.symm]

/-- Settles O44: the probe answers slot `j`, which is empty, so `countStep` stores the word there. -/
theorem ftAddInsertsNewWord : Obligations.FtAddInsertsNewWord := by
  rintro s t k j hs hk rfl hempty hnum
  obtain ⟨t', hstep, h⟩ := countStep_of_empty (A := s.alloc) (w := s.val) hempty hnum
  rw [exec_ftAdd_of_table hs, addOrIncrement_of_lookup (lookup_of_probeFinds hk), hstep,
    State.finishTable_of_ok]
  exact ⟨t', rfl, h.size, h.num, h.slot, h.others⟩

/-- Settles O46: the errors of `add_or_increment` that hand back the table they were given. -/
theorem ftAddFailuresKeepTable : Obligations.FtAddFailuresKeepTable := by
  intro s
  refine ⟨exec_of_no_table (.inr (.inr (.inr rfl))), fun t hs hno => ?_, fun t k j hs hk hj => ?_⟩
  · have hl := lookup_of_no_stop hno
    refine ⟨fun heq => ?_, fun hlt => ?_, fun h1 hlt hA => ?_⟩
    · exact exec_ftAdd_of_kept hs (addOrIncrement_at_limit hl (congrArg BitVec.toNat heq))
    · exact exec_ftAdd_of_kept hs (addOrIncrement_of_resize_error hl (by omega)
        (resize_of_invalid (.inr (by omega))))
    · exact exec_ftAdd_of_kept hs (addOrIncrement_of_resize_error hl (by omega)
        (resize_of_refused h1 (by omega) hA))
  · have hl := lookup_of_probeFinds hk
    rw [← hj] at hl
    refine ⟨fun hocc hfull => ?_, fun hempty hfull => ?_⟩
    · exact exec_ftAdd_of_kept hs ((addOrIncrement_of_lookup hl).trans (countStep_of_full_count hocc hfull))
    · exact exec_ftAdd_of_kept hs ((addOrIncrement_of_lookup hl).trans (countStep_of_full_num hempty hfull))

/-! ### `FT_ADD` after a growth (R119, R120 (c)) -/

section

variable {t : Table} {A : Allocator} {w : U64} {limit : Nat}

/-- An add of `w` to `t` grows the table first: its lookup fails, and a larger size is allowed and
granted. -/
def Table.Grows (t : Table) (A : Allocator) (w : U64) (limit : Nat) : Prop :=
  (∀ k, k < t.size.toNat - 1 → ¬ ProbeStops t.slots t.size.toNat w false k) ∧
    t.size.toNat < min (2 * t.size.toNat) limit ∧ A.answer (min (2 * t.size.toNat) limit) = true

/-- An add that grows the table is the retry on the resized one. -/
theorem addOrIncrement_of_grows (ht : t.WF) (hlimit : limit < 2 ^ 64) (hg : t.Grows A w limit) :
    ∃ t1, addOrIncrement t A w limit = addRetry t1 A.next w ∧
      Resized t t1 (min (2 * t.size.toNat) limit) ∧ countOf t1.slots w = 0 := by
  obtain ⟨hno, hlt, hA⟩ := hg
  have hl := lookup_of_no_stop hno
  obtain ⟨t1, hresize, h⟩ := exists_resized ht hlt (by omega) hA
  have ⟨_, _, hslots⟩ := ht
  exact ⟨t1, addOrIncrement_of_resized hl (by omega) hresize, h,
    (h.count w).trans (countOf_eq_zero (absent_of_lookup_error hslots hl))⟩

theorem addOrIncrement_size_of_not_grows (ht : t.WF)
    (hg : ¬ t.Grows A w limit) : (addOrIncrement t A w limit).table.size = t.size := by
  cases hl : lookupOrEmpty t.slots t.size.toNat w false with
  | ok j => rw [addOrIncrement_of_lookup hl, countStep_size]
  | error e =>
    by_cases heq : t.size.toNat = limit
    · rw [addOrIncrement_at_limit hl heq]
    by_cases hlt : t.size.toNat < min (2 * t.size.toNat) limit
    · have ⟨h1, _⟩ := ht
      have hA : A.answer (min (2 * t.size.toNat) limit) = false :=
        Bool.eq_false_iff.2 fun hA => hg ⟨((lookupOrEmpty_eq_error_iff ..).1 hl).2, hlt, hA⟩
      rw [addOrIncrement_of_resize_error hl heq (resize_of_refused h1 hlt hA)]
    · rw [addOrIncrement_of_resize_error hl heq (resize_of_invalid (.inr (by omega)))]

/-- A table larger than the one it was resized from has a number of words below the maximum. -/
theorem Resized.num_lt {t1 : Table} {n : Nat} (h : Resized t t1 n) (ht : t.WF)
    (hn : t.size.toNat < n) : t1.num.toNat < 2 ^ 64 - 1 := by
  obtain ⟨-, hnum, hwf, -⟩ := ht
  have hlen := slots_length_le hwf
  have hsize := h.size
  have hlt := t1.size.isLt
  rw [h.num]
  omega

theorem Resized.length_eq {t1 : Table} {n : Nat} (h : Resized t t1 n) (ht : t.WF) :
    t1.slots.length = t.slots.length := by
  obtain ⟨-, hnum, -⟩ := ht
  obtain ⟨-, hnum1, -⟩ := h.wf
  rw [← hnum1, h.num, hnum]

/-- A table of one slot has no word: its probes examine no slot. -/
theorem slots_eq_nil_of_size_one (ht : t.WF) (h1 : t.size.toNat = 1) : t.slots = [] := by
  obtain ⟨-, -, -, -, -, hchain⟩ := ht
  refine List.eq_nil_iff_forall_not_mem.2 fun e he => ?_
  obtain ⟨hdist, -⟩ := hchain e he
  omega

/-- A table grown by two slots, or from one slot to two, has an empty slot among those a probe
examines. -/
theorem Resized.room {t1 : Table} {n : Nat} (h : Resized t t1 n) (ht : t.WF)
    (hgrow : t.size.toNat + 2 ≤ n ∨ (t.size.toNat = 1 ∧ n = 2)) :
    t1.slots.length + 2 ≤ t1.size.toNat := by
  rw [h.size, h.length_eq ht]
  rcases hgrow with htwo | ⟨hone, rfl⟩
  · obtain ⟨-, -, hwf, -⟩ := ht
    have hlen := slots_length_le hwf
    omega
  · rw [slots_eq_nil_of_size_one ht hone, List.length_nil]

end

/-- Settles O58: the retry on the resized table, in which the word is absent, stores it where the
probe stops, or fails with the kind of the probe. -/
theorem ftAddAfterGrowth : Obligations.FtAddAfterGrowth := by
  rintro s t n hs ht hno rfl hn hA
  obtain ⟨t1, hadd, h, habs⟩ := addOrIncrement_of_grows ht s.tmax.isLt ⟨hno, hn, hA⟩
  refine ⟨t1, h.wf, h.size, h.num, h.holds_iff ht, h.inOrder, fun k j hk hj => ?_, fun hstop => ?_⟩
  · have hl := lookup_of_probeFinds hk
    rw [← hj, ← h.size] at hl
    obtain ⟨t', hstep, hstored, hcounted⟩ :=
      countStep_of_absent (A := s.alloc.next) h.wf (h.num_lt ht hn) habs hl
    rw [exec_ftAdd_of_table hs, hadd, addRetry_of_lookup hl, hstep, State.finishTable_of_ok]
    exact ⟨t', rfl, hcounted.wf, hstored.size, h.num ▸ hstored.num, hstored.slot, hstored.others⟩
  · have hl := lookup_of_no_stop hstop
    rw [← h.size] at hl
    rw [exec_ftAdd_of_table hs, hadd, addRetry_of_error hl, State.finishTable_of_error]
    rfl

/-- Settles O45: the resized table has room, so the retried lookup succeeds and stores the word. -/
theorem ftAddGrowsAndRetries : Obligations.FtAddGrowsAndRetries := by
  rintro s t n hs ht hno rfl hgrow hA
  have hn : t.size.toNat < min (2 * t.size.toNat) s.tmax.toNat := by omega
  obtain ⟨t1, hadd, h, habs⟩ := addOrIncrement_of_grows ht s.tmax.isLt ⟨hno, hn, hA⟩
  have ⟨_, _, hslots⟩ := h.wf
  obtain ⟨j, hl⟩ := lookup_ok_of_room s.val false hslots (h.room ht hgrow)
  obtain ⟨t', hstep, hstored, hcounted⟩ :=
    countStep_of_absent (A := s.alloc.next) h.wf (h.num_lt ht hn) habs hl
  rw [exec_ftAdd_of_table hs, hadd, addRetry_of_lookup hl, hstep, State.finishTable_of_ok]
  refine ⟨t', rfl, hcounted.wf, ?_, h.num ▸ hstored.num, ?_, fun id c hid => ?_⟩
  · rw [hstored.size, h.size]
  · rw [Table.holds_iff_countOf hcounted.wf, hcounted.count, habs, if_pos rfl]
    exact ⟨one_pos, rfl⟩
  · rw [← h.holds_iff ht, Table.holds_iff_countOf hcounted.wf, Table.holds_iff_countOf h.wf,
      hcounted.count, if_neg hid.symm, Nat.add_zero]

/-! ### Every outcome of `FT_ADD` (R120 (a), 60_exceptions.md R145 (a)) -/

/-- Settles O47: the counts are those of `addOrIncrement_cases`; the size is that of the resized table
if the add grows it, and the old one if not. -/
theorem ftAddChangesOneCount : Obligations.FtAddChangesOneCount := by
  intro s u t hs ht hu
  have hlimit := s.tmax.isLt
  rw [exec_ftAdd_of_table hs] at hu
  cases hu
  simp only [ne_eq, State.finishTable_status_eq_zero_iff]
  refine ⟨_, s.finishTable_table _, addOrIncrement_wf ht hlimit, ?size, ?counts⟩
  case size =>
    split_ifs with hg
    · obtain ⟨t1, hadd, h, -⟩ := addOrIncrement_of_grows ht hlimit hg
      rw [hadd, addRetry_size, h.size]
    · rw [addOrIncrement_size_of_not_grows ht hg]
  case counts =>
    rcases addOrIncrement_cases (A := s.alloc) (w := s.val) ht hlimit with ⟨hok, h⟩ | ⟨e, he, h⟩
    · refine ⟨fun _ => ⟨fun w => ?_, h.num⟩, fun hne => absurd hok hne⟩
      simp only [h.count, eq_comm]
    · exact ⟨fun hok => by simp [he] at hok, fun _ => ⟨h.count, h.num⟩⟩

/-! ### Adding a list of words (R120 (b)) -/

theorem addAll_counts {limit : Nat} (hlimit : limit < 2 ^ 64) : ∀ (ws : List U64) {t : Table}
    {A : Allocator}, t.WF → (addAll limit ws t A).error = none →
    (addAll limit ws t A).table.WF ∧
      ∀ w, countOf (addAll limit ws t A).table.slots w = countOf t.slots w + ws.count w
  | [], _, _, ht, _ => ⟨ht, fun _ => rfl⟩
  | x :: rest, t, A, ht, herr => by
    rcases addOrIncrement_cases (A := A) (w := x) ht hlimit with ⟨hok, hx⟩ | ⟨e, he, -⟩
    · simp only [addAll, hok] at herr ⊢
      obtain ⟨hwf, hcount⟩ := addAll_counts hlimit rest hx.wf herr
      refine ⟨hwf, fun w => ?_⟩
      rw [hcount, hx.count, List.count_cons, Nat.add_assoc, Nat.add_comm (rest.count w)]
      simp only [beq_iff_eq]
    · simp only [addAll, he] at herr
      cases herr

theorem addAll_freshTable {limit n : Nat} {ws : List U64} {A : Allocator} (h1 : 1 ≤ n)
    (hn : n < 2 ^ 64) (hlimit : limit < 2 ^ 64)
    (herr : (addAll limit ws (freshTable n) A).error = none) :
    (addAll limit ws (freshTable n) A).table.WF ∧
      ∀ w, countOf (addAll limit ws (freshTable n) A).table.slots w = ws.count w := by
  obtain ⟨hwf, hcount⟩ := addAll_counts hlimit ws (freshTable_wf h1 hn) herr
  exact ⟨hwf, fun w => (hcount w).trans (Nat.zero_add _)⟩

theorem nodup_ids {A : List (Nat × Slot)} {size : Nat} (hA : SlotsWF A size) :
    (A.map fun e => e.2.id).Nodup := by
  obtain ⟨hwf, -, hinj, -⟩ := hA
  exact List.pairwise_map.2 (pairwise_ids hwf hinj)

theorem mem_ids_iff {A : List (Nat × Slot)} {size : Nat} (hA : SlotsWF A size) (w : U64) :
    w ∈ A.map (fun e => e.2.id) ↔ 0 < countOf A w := by
  rw [List.mem_map]
  refine ⟨?_, exists_mem_of_countOf_pos⟩
  rintro ⟨e, he, rfl⟩
  exact mem_count_pos hA he

/-- `T.num` of a well-formed table is fixed by its counts. -/
theorem num_eq_of_countOf_eq {t t' : Table} (ht : t.WF) (ht' : t'.WF)
    (h : ∀ w, countOf t.slots w = countOf t'.slots w) : t.num = t'.num := by
  obtain ⟨-, hnum, hA⟩ := ht
  obtain ⟨-, hnum', hA'⟩ := ht'
  have hperm : (t.slots.map fun e => e.2.id).Perm (t'.slots.map fun e => e.2.id) :=
    (List.perm_ext_iff_of_nodup (nodup_ids hA) (nodup_ids hA')).2 fun w => by
      rw [mem_ids_iff hA, mem_ids_iff hA', h]
  have hlen := hperm.length_eq
  rw [List.length_map, List.length_map] at hlen
  exact BitVec.eq_of_toNat_eq (by rw [hnum, hnum', hlen])

/-- Settles O48: every add that succeeds counts its word once, so each count is that of the list. -/
theorem contentsIndependentOfGrowth : Obligations.ContentsIndependentOfGrowth := by
  intro ws ws' n n' limit limit' A A' hperm h1 hn h1' hn' hlimit hlimit' herr herr'
  obtain ⟨hwf, hcount⟩ := addAll_freshTable h1 hn hlimit herr
  obtain ⟨hwf', hcount'⟩ := addAll_freshTable h1' hn' hlimit' herr'
  have hsame : ∀ w, countOf (addAll limit ws (freshTable n) A).table.slots w =
      countOf (addAll limit' ws' (freshTable n') A').table.slots w := fun w => by
    rw [hcount, hcount', hperm.count_eq]
  exact ⟨hsame, hcount, num_eq_of_countOf_eq hwf hwf' hsame⟩

end Sys2Proof.Machine
end

section
/-!
# The frequency table: building (42_frequency_table.md)
-/

namespace Sys2Proof.Machine

/-! ### The partial word (R125) -/

/-- Settles O57: by whether each completion is present, which `present_cases` ties to its count. -/
theorem partialWordChoice : Obligations.PartialWordChoice := by
  intro t low high ht
  unfold choose
  rcases present_cases low ht with ⟨hlow, h0⟩ | ⟨jl, hlow, hl, hlpos⟩ <;>
    rcases present_cases high ht with ⟨hhigh, g0⟩ | ⟨jh, hhigh, hh, hhpos⟩ <;>
    simp only [hlow, hhigh]
  · rw [if_neg (by omega)]
  · rw [if_pos (by omega)]
  · rw [if_neg (by omega)]
  · rw [hl, hh]

/-! ### How a build starts and ends (R124, R126) -/

theorem toNat_ne_zero {n : Nat} {x : BitVec n} (h : x ≠ 0) : x.toNat ≠ 0 :=
  BitVec.toNat_ne.1 h

/-- The arguments of a build are legal and its first request is granted. -/
structure State.BuildStarts (s : State) (n0 : Nat) : Prop where
  ptr : s.ptr ≠ 0
  len : s.len ≠ 0
  two_le : 2 ≤ s.size.toNat
  le_64 : s.size.toNat ≤ 64
  top : s.ptr.toNat + s.len.toNat < 2 ^ 64
  granted : s.alloc.answer n0 = true

/-- The scan of a build whose first request is granted. -/
def State.buildScan (s : State) (n0 : Nat) : TableStep :=
  scan s.mem s.ptr.toNat s.len.toNat s.size.toNat (freshTable n0) s.alloc.next

/-- What a build whose scan comes to `r` leaves. -/
def State.finishBuild (s : State) (r : TableStep) : State :=
  match r.error with
  | some e => { s with table := none, alloc := r.alloc, status := e.code }
  | none =>
    { s with
      hws := s.size, hpad := BitVec.ofNat 8 (buildPad s.len.toNat s.size.toNat), huw := r.table.num,
      table := some r.table, alloc := r.alloc, status := 0 }

section

variable {s : State} {n0 : Nat} {r : TableStep}

theorem finishBuild_of_error {e : ErrKind} (h : r.error = some e) :
    s.finishBuild r = { s with table := none, alloc := r.alloc, status := e.code } := by
  rw [State.finishBuild, h]

theorem finishBuild_of_ok (h : r.error = none) :
    s.finishBuild r =
      { s with
        hws := s.size, hpad := BitVec.ofNat 8 (buildPad s.len.toNat s.size.toNat),
        huw := r.table.num, table := some r.table, alloc := r.alloc, status := 0 } := by
  rw [State.finishBuild, h]

theorem finishBuild_status_eq_zero_iff : (s.finishBuild r).status = 0 ↔ r.error = none := by
  cases h : r.error with
  | none => rw [finishBuild_of_ok h]; exact ⟨fun _ => rfl, fun _ => rfl⟩
  | some e => rw [finishBuild_of_error h]; exact ⟨fun h0 => absurd h0 e.code_ne_zero, nofun⟩

theorem finishBuild_alloc : (s.finishBuild r).alloc = r.alloc := by
  unfold State.finishBuild
  split <;> rfl

/-- A build that fails before its scan keeps the table. -/
theorem ftBuildFrom_of_error {e : ErrKind} {B : Allocator}
    (h : build n0 s.mem s.ptr.toNat s.len.toNat s.size.toNat s.table s.alloc =
      ⟨.error e, s.table, B⟩) :
    ftBuildFrom n0 s = { s with alloc := B, status := e.code } := by
  rw [ftBuildFrom, h]
  rfl

theorem ftBuildFrom_of_null (hnull : s.ptr = 0) : ftBuildFrom n0 s = s.raise .nullPointer :=
  ftBuildFrom_of_error (if_pos (congrArg BitVec.toNat hnull))

theorem ftBuildFrom_of_invalid (hptr : s.ptr ≠ 0)
    (hbad : s.len = 0 ∨ s.size.toNat < 2 ∨ 64 < s.size.toNat ∨
      2 ^ 64 ≤ s.ptr.toNat + s.len.toNat) :
    ftBuildFrom n0 s = s.raise .invalidValue := by
  refine ftBuildFrom_of_error ?_
  rw [build, if_neg (toNat_ne_zero hptr)]
  by_cases hargs : s.len.toNat = 0 ∨ s.size.toNat < 2 ∨ 64 < s.size.toNat
  · rw [if_pos hargs]
  · have hlen : s.len ≠ 0 := fun h => hargs (.inl (congrArg BitVec.toNat h))
    rw [if_neg hargs, if_pos (by tauto)]

theorem ftBuildFrom_of_refused (hptr : s.ptr ≠ 0) (hlen : s.len ≠ 0) (h2 : 2 ≤ s.size.toNat)
    (h64 : s.size.toNat ≤ 64) (htop : s.ptr.toNat + s.len.toNat < 2 ^ 64)
    (hA : s.alloc.answer n0 = false) :
    ftBuildFrom n0 s = { s with alloc := s.alloc.next, status := 3 } := by
  have hlen' := toNat_ne_zero hlen
  refine ftBuildFrom_of_error (e := .insufficientSpace) ?_
  rw [build, if_neg (toNat_ne_zero hptr), if_neg (by omega), if_neg (by omega), if_pos hA]

theorem ftBuildFrom_of_starts (h : s.BuildStarts n0) :
    ftBuildFrom n0 s = s.finishBuild (s.buildScan n0) := by
  obtain ⟨hptr, hlen, h2, h64, htop, hA⟩ := h
  have hlen' := toNat_ne_zero hlen
  have hA' : ¬ s.alloc.answer n0 = false := by rw [hA]; decide
  rw [State.buildScan]
  simp only [ftBuildFrom, build, if_neg (toNat_ne_zero hptr), if_neg hA',
    if_neg (show ¬ (s.len.toNat = 0 ∨ s.size.toNat < 2 ∨ 64 < s.size.toNat) by omega),
    if_neg (show ¬ 2 ^ 64 ≤ s.ptr.toNat + s.len.toNat by omega)]
  generalize scan s.mem _ _ _ _ _ = r
  cases hr : r.error with
  | some e =>
    rw [finishBuild_of_error hr]
    rfl
  | none =>
    rw [finishBuild_of_ok hr]
    simp only [State.setHeader, State.setTable, State.setAlloc, State.succeed, BitVec.ofNat_toNat,
      BitVec.setWidth_eq, statusOk]

/-- A build that reports success had legal arguments and its first request granted. -/
theorem State.BuildStarts.of_status (h : (ftBuildFrom n0 s).status = 0) : s.BuildStarts n0 := by
  by_cases hptr : s.ptr = 0
  · rw [ftBuildFrom_of_null hptr] at h
    exact absurd h (ErrKind.code_ne_zero .nullPointer)
  by_cases hbad : s.len = 0 ∨ s.size.toNat < 2 ∨ 64 < s.size.toNat ∨
      2 ^ 64 ≤ s.ptr.toNat + s.len.toNat
  · rw [ftBuildFrom_of_invalid hptr hbad] at h
    exact absurd h (ErrKind.code_ne_zero .invalidValue)
  simp only [not_or, not_lt, not_le] at hbad
  obtain ⟨hlen, h2, h64, htop⟩ := hbad
  cases hA : s.alloc.answer n0 with
  | true => exact ⟨hptr, hlen, h2, h64, htop, hA⟩
  | false =>
    rw [ftBuildFrom_of_refused hptr hlen h2 h64 htop hA] at h
    cases h

end

/-- Settles O50: the failures of `ftBuildFrom` that come before its first allocation. -/
theorem ftBuildEarlyFailures : Obligations.FtBuildEarlyFailures := by
  refine fun s => ⟨fun hnull => ?_, fun hptr hbad => ?_, fun hptr hlen h2 h64 htop hA => ?_⟩
  · exact congrArg Host.Outcome.next (ftBuildFrom_of_null hnull)
  · exact congrArg Host.Outcome.next (ftBuildFrom_of_invalid hptr hbad)
  · exact congrArg Host.Outcome.next (ftBuildFrom_of_refused hptr hlen h2 h64 htop hA)

/-! ### A build as the adds of its words (R124) -/

section

variable {s : State} {n0 : Nat}

theorem State.BuildStarts.scan_eq (h : s.BuildStarts n0) (h1 : 1 ≤ n0)
    (hmax : n0 ≤ maxSize s.size.toNat) :
    s.buildScan n0 = addAll (maxSize s.size.toNat)
      (buildWords s.mem s.ptr.toNat s.len.toNat s.size.toNat) (freshTable n0) s.alloc.next :=
  scan_eq_addAll s.mem s.alloc.next (toNat_ne_zero h.ptr) h.top h.two_le
    h.le_64 h1 hmax

end

/-- Settles O59: by `scan_eq_addAll`; `finishBuild` reports the error of the scan and keeps its table
only if there is none. -/
theorem ftBuildAddsSourceWords : Obligations.FtBuildAddsSourceWords := by
  intro n0 s r hptr hlen h2 h64 htop hA h1 hmax hr
  have hstarts : s.BuildStarts n0 := ⟨hptr, hlen, h2, h64, htop, hA⟩
  rw [ftBuildFrom_of_starts hstarts, hstarts.scan_eq h1 hmax, ← hr]
  refine ⟨finishBuild_alloc, fun hok => ?_, fun e he => ?_⟩
  · rw [finishBuild_of_ok hok]
    exact ⟨rfl, rfl⟩
  · rw [finishBuild_of_error he]
    exact ⟨rfl, rfl⟩

/-! ### What a successful build counts (R127) -/

section

variable {s : State} {n0 : Nat}

/-- What a successful build has made of its source: a well-formed table that counts the source, by
occurrences and as the list of words added. -/
structure State.CountsSource (s : State) (T : Table) : Prop where
  wf : T.WF
  occurrences : ∀ w, countOf T.slots w =
    buildCount s.mem s.ptr.toNat s.len.toNat s.size.toNat w.toNat
  words : ∀ w, countOf T.slots w =
    (buildWords s.mem s.ptr.toNat s.len.toNat s.size.toNat).count w

theorem State.BuildStarts.countsSource (h : s.BuildStarts n0) (h1 : 1 ≤ n0)
    (hmax : n0 ≤ maxSize s.size.toNat) (hok : (s.buildScan n0).error = none) :
    s.CountsSource (s.buildScan n0).table := by
  have hlimit := maxSize_lt s.size.toNat
  have hadds := hok
  rw [h.scan_eq h1 hmax] at hadds
  obtain ⟨hwf, hwords⟩ := addAll_freshTable h1 (by omega) hlimit hadds
  rw [← h.scan_eq h1 hmax] at hwf hwords
  refine ⟨hwf, ?_, hwords⟩
  rcases scan_cases s.mem s.alloc.next (toNat_ne_zero h.ptr) h.top h.two_le h.le_64 h1 hmax with
    ⟨-, hcount⟩ | herr | herr
  · exact hcount
  · exact absurd (hok.symm.trans herr) nofun
  · exact absurd (hok.symm.trans herr) nofun

/-- What a successful build leaves. -/
theorem ftBuildFrom_of_success (h1 : 1 ≤ n0) (hmax : n0 ≤ maxSize s.size.toNat)
    (h0 : (ftBuildFrom n0 s).status = 0) :
    ∃ (T : Table) (B : Allocator), s.CountsSource T ∧ ftBuildFrom n0 s =
      { s with
        hws := s.size, hpad := BitVec.ofNat 8 (buildPad s.len.toNat s.size.toNat), huw := T.num,
        table := some T, alloc := B, status := 0 } := by
  have hstarts := State.BuildStarts.of_status h0
  rw [ftBuildFrom_of_starts hstarts] at h0 ⊢
  have hok := finishBuild_status_eq_zero_iff.1 h0
  exact ⟨_, _, hstarts.countsSource h1 hmax hok, finishBuild_of_ok hok⟩

theorem buildPad_lt (len : Nat) {ws : Nat} (h2 : 2 ≤ ws) : buildPad len ws < ws := by
  unfold buildPad
  split_ifs <;> omega

/-- The pad of a build fits its register. -/
theorem ofNat_buildPad_toNat (len : Nat) {ws : Nat} (h2 : 2 ≤ ws) (h64 : ws ≤ 64) :
    (BitVec.ofNat 8 (buildPad len ws)).toNat = buildPad len ws := by
  have := buildPad_lt len h2
  exact (BitVec.toNat_ofNat ..).trans (Nat.mod_eq_of_lt (by omega))

end

/-- Settles O54: by `ftBuildFrom_of_success`; `T.num` is the number of occupied slots. -/
theorem buildCountsTheSource : Obligations.BuildCountsTheSource := by
  intro n0 s h1 hmax h0
  have hstarts := State.BuildStarts.of_status h0
  obtain ⟨T, B, hT, hend⟩ := ftBuildFrom_of_success h1 hmax h0
  obtain ⟨-, hnum, -⟩ := hT.wf
  rw [hend]
  exact ⟨T, rfl, hT.wf, hT.occurrences, rfl,
    ofNat_buildPad_toNat _ hstarts.two_le hstarts.le_64, hnum⟩

/-- Settles O53: by `scan_granted` no add fails, and a build that succeeds is that of
`ftBuildFrom_of_success`. -/
theorem ftBuildCompletes : Obligations.FtBuildCompletes := by
  intro s hptr hlen hlt h2 h64 htop hgrants
  obtain ⟨h1, hmax⟩ := initSize_bounds s.size.toNat
  obtain ⟨hfirst, hrest⟩ := hgrants
  have hstarts : s.BuildStarts (initSize s.size.toNat) := ⟨hptr, hlen, h2, h64, htop, hfirst _⟩
  have hok : (s.buildScan (initSize s.size.toNat)).error = none :=
    scan_granted s.mem s.alloc.next (toNat_ne_zero hptr) htop hlt h2 h64 h1
      hmax (Allocator.Grants.mono (by decide) hrest)
  have h0 : (ftBuildFrom (initSize s.size.toNat) s).status = 0 := by
    rwa [ftBuildFrom_of_starts hstarts, finishBuild_status_eq_zero_iff]
  obtain ⟨T, B, hT, hend⟩ := ftBuildFrom_of_success h1 hmax h0
  exact ⟨_, congrArg Host.Outcome.next hend, rfl, rfl, ofNat_buildPad_toNat _ h2 h64, rfl, T, rfl,
    hT.wf, hT.occurrences⟩

/-! ### The header and the total (R127 (a), (b)) -/

theorem ceilDiv_eq (a : Nat) {b : Nat} (hb : 1 ≤ b) :
    ceilDiv a b = a / b + if a % b = 0 then 0 else 1 := by
  have hmod : a % b < b := Nat.mod_lt _ hb
  have hsplit : ceilDiv a b = a / b + (a % b + (b - 1)) / b := by
    rw [← Nat.mul_add_div hb, ← Nat.add_assoc, Nat.div_add_mod, ceilDiv, Nat.add_sub_assoc hb]
  rw [hsplit]
  split_ifs with h0
  · rw [h0, Nat.div_eq_of_lt (a := 0 + (b - 1)) (by omega)]
  · rw [show a % b + (b - 1) = a % b - 1 + b by omega, Nat.add_div_right _ hb,
      Nat.div_eq_of_lt (a := a % b - 1) (by omega)]

theorem length_buildWords (m : Memory) (ptr len : Nat) {ws : Nat} (h2 : 2 ≤ ws) :
    (buildWords m ptr len ws).length = ceilDiv (8 * len) ws := by
  rw [ceilDiv_eq _ (by omega), buildWords, List.length_append, List.length_map, List.length_range]
  split_ifs <;> rfl

/-- The words of a build have `ws` bits. -/
theorem buildWords_lt {m : Memory} {ptr len ws : Nat} (h2 : 2 ≤ ws) {w : U64}
    (hw : w ∈ buildWords m ptr len ws) : w.toNat < 2 ^ ws := by
  obtain ⟨hlow, hhigh, -⟩ := completion_bounds m (ptr := ptr) (len := len) h2
  have hlt : ∃ n, n < 2 ^ ws ∧ BitVec.ofNat 64 n = w := by
    rw [buildWords, List.mem_append, List.mem_map] at hw
    rcases hw with ⟨i, -, hi⟩ | hw
    · exact ⟨_, m.fieldAt_lt _ ws, hi⟩
    · split_ifs at hw
      · cases hw
      · refine ⟨_, ?_, (List.mem_singleton.1 hw).symm⟩
        rw [chosenCompletion]
        split_ifs
        exacts [hhigh, hlow]
  obtain ⟨n, hn, rfl⟩ := hlt
  exact (BitVec.toNat_ofNat n 64).trans_le (Nat.mod_le ..) |>.trans_lt hn

/-- The sum of all counts is that of the counts of the ids, whatever finite set holds these. -/
theorem totalCount_eq_sum (S : Finset U64) : ∀ {A : List (Nat × Slot)}, (∀ e ∈ A, e.2.id ∈ S) →
    totalCount A = ∑ w ∈ S, countOf A w
  | [], _ => by simp [totalCount, countOf]
  | (j, sl) :: rest, hS => by
    rw [List.forall_mem_cons] at hS
    simp only [totalCount, countOf, Finset.sum_add_distrib, Finset.sum_ite_eq, if_pos hS.1,
      totalCount_eq_sum S hS.2]

/-- A well-formed table whose ids are below `n` has at most `n` of them. -/
theorem slots_length_le_of_ids_lt {A : List (Nat × Slot)} {size n : Nat} (hA : SlotsWF A size)
    (h : ∀ e ∈ A, e.2.id.toNat < n) : A.length ≤ n := by
  have hnodup := (nodup_ids hA).map (f := BitVec.toNat) fun _ _ => BitVec.eq_of_toNat_eq
  have hsub : ((A.map fun e => e.2.id).map BitVec.toNat).toFinset ⊆ Finset.range n := by
    intro x hx
    simp only [List.mem_toFinset, List.map_map, List.mem_map] at hx
    obtain ⟨e, he, rfl⟩ := hx
    exact Finset.mem_range.2 (h e he)
  calc A.length = ((A.map fun e => e.2.id).map BitVec.toNat).toFinset.card := by
        rw [List.toFinset_card_of_nodup hnodup, List.length_map, List.length_map]
    _ ≤ n := (Finset.card_le_card hsub).trans_eq (Finset.card_range n)

section

variable {s : State} {T : Table}

theorem State.CountsSource.mem_iff (h : s.CountsSource T) (w : U64) :
    w ∈ T.slots.map (fun e => e.2.id) ↔
      w ∈ buildWords s.mem s.ptr.toNat s.len.toNat s.size.toNat := by
  obtain ⟨-, -, hA⟩ := h.wf
  rw [mem_ids_iff hA, h.words, List.count_pos_iff]

/-- R127 (a): a build has seen at least one word, and each has `ws` bits. -/
theorem State.CountsSource.num_bounds (h : s.CountsSource T) (hlen : s.len ≠ 0)
    (h2 : 2 ≤ s.size.toNat) : 1 ≤ T.num.toNat ∧ T.num.toNat ≤ 2 ^ s.size.toNat := by
  obtain ⟨-, hnum, hA⟩ := h.wf
  have hpos : 0 < (buildWords s.mem s.ptr.toNat s.len.toNat s.size.toNat).length := by
    have hl := toNat_ne_zero hlen
    rw [length_buildWords _ _ _ h2, ceilDiv]
    exact Nat.div_pos (by omega) (by omega)
  obtain ⟨w, hw⟩ := List.exists_mem_of_length_pos hpos
  rw [hnum]
  refine ⟨?_, slots_length_le_of_ids_lt hA fun e he => ?_⟩
  · have := List.length_pos_of_mem ((h.mem_iff w).2 hw)
    rwa [List.length_map] at this
  · exact buildWords_lt h2 ((h.mem_iff _).1 (List.mem_map_of_mem he))

/-- R127 (b): the counts add up to the number of words added. -/
theorem State.CountsSource.totalCount_eq (h : s.CountsSource T) (h2 : 2 ≤ s.size.toNat) :
    totalCount T.slots = ceilDiv (8 * s.len.toNat) s.size.toNat := by
  rw [totalCount_eq_sum (buildWords s.mem s.ptr.toNat s.len.toNat s.size.toNat).toFinset fun e he =>
    List.mem_toFinset.2 ((h.mem_iff _).1 (List.mem_map_of_mem he))]
  simp only [h.words]
  rw [List.sum_toFinset_count_eq_length, length_buildWords _ _ _ h2]

end

/-- Settles O55: the word size was checked, the pad is below it, and the number of distinct words is
bounded by `num_bounds`. -/
theorem buildHeaderIsLegal : Obligations.BuildHeaderIsLegal := by
  intro s t h h0
  cases h
  obtain ⟨h1, hmax⟩ := initSize_bounds s.size.toNat
  have hstarts := State.BuildStarts.of_status h0
  have ⟨_, hlen, h2, h64, _, _⟩ := hstarts
  obtain ⟨T, B, hT, hend⟩ := ftBuildFrom_of_success h1 hmax h0
  rw [hend]
  exact ⟨h2, h64, (ofNat_buildPad_toNat _ h2 h64).trans_lt (buildPad_lt _ h2),
    hT.num_bounds hlen h2⟩

/-- Settles O56: by `totalCount_eq`. -/
theorem buildCountsAddUp : Obligations.BuildCountsAddUp := by
  intro s t h h0
  cases h
  obtain ⟨h1, hmax⟩ := initSize_bounds s.size.toNat
  have hstarts := State.BuildStarts.of_status h0
  obtain ⟨T, B, hT, hend⟩ := ftBuildFrom_of_success h1 hmax h0
  rw [hend]
  exact ⟨T, rfl, hT.totalCount_eq hstarts.two_le⟩

end Sys2Proof.Machine
end

section
/-!
# Exceptions (60_exceptions.md)
-/

namespace Sys2Proof.Machine

/-! ### The kinds of error each function reports (R141) -/

theorem Cursor.fieldError_mem {c : Cursor} {size : Nat} {e : ErrKind}
    (h : c.fieldError size = some e) :
    e ∈ [ErrKind.nullPointer, .invalidValue, .insufficientSpace] := by
  simpa using Cursor.fieldError_kinds h

theorem readBits_eq_error_iff (m : Memory) (c : Cursor) (size : Nat) (e : ErrKind) :
    readBits m c size = .error e ↔ c.fieldError size = some e := by
  rw [readBits]
  cases c.fieldError size <;> simp

theorem writeBits_eq_error_iff (m : Memory) (c : Cursor) (value size : Nat) (e : ErrKind) :
    writeBits m c value size = .error e ↔ c.fieldError size = some e := by
  rw [writeBits]
  cases c.fieldError size <;> simp

/-- Past the checks of `encode` its three writes succeed. -/
theorem encodeHeader_error_kinds {m : Memory} {hd : Header} {ptr cap : Nat} {e : ErrKind}
    (h : encodeHeader m hd ptr cap = .error e) :
    e ∈ [ErrKind.nullPointer, .invalidValue, .insufficientSpace] := by
  by_cases hfit : hd.Fits ptr cap
  · obtain ⟨m', hok, -⟩ := encodeHeader_of_fits m hfit
    rw [hok] at h
    cases h
  · unfold Header.Fits at hfit
    unfold encodeHeader at h
    split_ifs at h
    iterate 5
      · cases h
        decide
    · omega

/-- Past the pre-check of `decode` the errors are those of `decodeHeader_eq`. -/
theorem decodeHeader_error_kinds {m : Memory} {ptr cap : Nat} {e : ErrKind}
    (h : decodeHeader m ptr cap = .error e) :
    e ∈ [ErrKind.nullPointer, .invalidValue, .insufficientSpace, .invalidData] := by
  by_cases hnull : ptr = 0
  · rw [decodeHeader_of_null hnull] at h
    cases h
    decide
  by_cases htop : 2 ^ 64 ≤ ptr + 2
  · rw [decodeHeader_of_top hnull htop] at h
    cases h
    decide
  by_cases hcap : cap < 2
  · rw [decodeHeader_of_short hnull (by omega) hcap] at h
    cases h
    decide
  · rw [decodeHeader_eq hnull (by omega) (by omega) rfl] at h
    split_ifs at h <;> cases h <;> decide

theorem lookupOrEmpty_error_kind {A : List (Nat × Slot)} {size : Nat} {id : U64} {anm : Bool}
    {e : ErrKind} (h : lookupOrEmpty A size id anm = .error e) : e = .insufficientSpace :=
  ((lookupOrEmpty_eq_error_iff ..).1 h).1

theorem rehash_error_kind {newSize : Nat} {e : ErrKind} : ∀ {old N : List (Nat × Slot)},
    rehash newSize old N = .error e → e = .insufficientSpace
  | (_, sl) :: rest, N, h => by
    rw [rehash] at h
    split_ifs at h
    · exact rehash_error_kind h
    · cases hl : lookupOrEmpty N newSize sl.id true with
      | ok q => exact rehash_error_kind (by simpa only [hl] using h)
      | error e' =>
        simp only [hl, Except.error.injEq] at h
        exact h ▸ lookupOrEmpty_error_kind hl

section

variable {t : Table} {A : Allocator} {e : ErrKind}

/-- A resize that fails leaves the table, on any table. -/
theorem resize_of_error {n : Nat} (h : (resize t A n).error = some e) :
    (resize t A n).table = t ∧ e ∈ [ErrKind.invalidValue, .insufficientSpace] := by
  unfold resize at h ⊢
  split_ifs at h ⊢
  · cases h
    exact ⟨rfl, by decide⟩
  · cases h
    exact ⟨rfl, by decide⟩
  · cases hr : rehash n t.slots [] with
    | ok N => simp [hr] at h
    | error e' =>
      simp only [hr, Option.some.injEq] at h ⊢
      rw [← h, rehash_error_kind hr]
      exact ⟨trivial, by decide⟩

theorem countStep_error_kind {j : Nat} {w : U64} (h : (countStep t A j w).error = some e) :
    e = .overflow := by
  unfold countStep countIn at h
  split_ifs at h <;> cases h <;> rfl

theorem addRetry_error_kinds {w : U64} (h : (addRetry t A w).error = some e) :
    e = .insufficientSpace ∨ e = .overflow := by
  cases hl : lookupOrEmpty t.slots t.size.toNat w false with
  | ok j =>
    rw [addRetry_of_lookup hl] at h
    exact .inr (countStep_error_kind h)
  | error e' =>
    rw [addRetry_of_error hl] at h
    cases h
    exact .inl (lookupOrEmpty_error_kind hl)

/-- The errors of an add, on any table. `InvalidValue` is that of a resize to a size limit below the
present size. -/
theorem addOrIncrement_error_kinds {w : U64} {limit : Nat}
    (h : (addOrIncrement t A w limit).error = some e) :
    e ∈ [ErrKind.invalidValue, .insufficientSpace, .overflow] := by
  cases hl : lookupOrEmpty t.slots t.size.toNat w false with
  | ok j =>
    rw [addOrIncrement_of_lookup hl] at h
    simp [countStep_error_kind h]
  | error e' =>
    by_cases hlimit : t.size.toNat = limit
    · rw [addOrIncrement_at_limit hl hlimit] at h
      cases h
      decide
    rcases hr : resize t A (min (2 * t.size.toNat) limit) with ⟨_ | e1, t1, B⟩
    · rw [addOrIncrement_of_resized hl hlimit hr] at h
      simp [addRetry_error_kinds h]
    · rw [addOrIncrement_of_resize_error hl hlimit hr] at h
      cases h
      obtain ⟨-, hkinds⟩ := resize_of_error (congrArg TableStep.error hr)
      exact List.mem_append_left [.overflow] hkinds

end

/-! ### How a build ends (R126, R145) -/

section

variable {s : State} {n0 : Nat} {e : ErrKind}

/-- A build raises at once for its arguments or for its first request, or it starts. -/
theorem ftBuildFrom_cases (n0 : Nat) (s : State) :
    ftBuildFrom n0 s = s.raise .nullPointer ∨
    ((s.len = 0 ∨ s.size.toNat < 2 ∨ 64 < s.size.toNat ∨ 2 ^ 64 ≤ s.ptr.toNat + s.len.toNat) ∧
      ftBuildFrom n0 s = s.raise .invalidValue) ∨
    ftBuildFrom n0 s = (s.setAlloc s.alloc.next).raise .insufficientSpace ∨
    s.BuildStarts n0 := by
  by_cases hptr : s.ptr = 0
  · exact .inl (ftBuildFrom_of_null hptr)
  by_cases hbad : s.len = 0 ∨ s.size.toNat < 2 ∨ 64 < s.size.toNat ∨
      2 ^ 64 ≤ s.ptr.toNat + s.len.toNat
  · exact .inr (.inl ⟨hbad, ftBuildFrom_of_invalid hptr hbad⟩)
  simp only [not_or, not_lt, not_le] at hbad
  obtain ⟨hlen, h2, h64, htop⟩ := hbad
  cases hA : s.alloc.answer n0 with
  | false => exact .inr (.inr (.inl (ftBuildFrom_of_refused hptr hlen h2 h64 htop hA)))
  | true => exact .inr (.inr (.inr ⟨hptr, hlen, h2, h64, htop, hA⟩))

/-- With a starting capacity within its bounds a build that has started fails only for want of space
or by overflow. -/
theorem State.BuildStarts.error_kinds (h : s.BuildStarts n0) (h1 : 1 ≤ n0)
    (hmax : n0 ≤ maxSize s.size.toNat) (he : (s.buildScan n0).error = some e) :
    e = .insufficientSpace ∨ e = .overflow := by
  rw [State.buildScan] at he
  rcases scan_cases s.mem s.alloc.next (toNat_ne_zero h.ptr) h.top h.two_le h.le_64 h1 hmax with
    ⟨hok, -⟩ | hspace | hover
  · exact absurd (hok.symm.trans he) nofun
  · exact .inl (Option.some.inj (he.symm.trans hspace))
  · exact .inr (Option.some.inj (he.symm.trans hover))

theorem State.BuildStarts.exists_error (h : s.BuildStarts n0)
    (h0 : (ftBuildFrom n0 s).status ≠ 0) :
    ∃ e, (s.buildScan n0).error = some e := by
  rw [ftBuildFrom_of_starts h, ne_eq, finishBuild_status_eq_zero_iff] at h0
  exact Option.ne_none_iff_exists'.1 h0

theorem State.BuildStarts.status_of_failure (h : s.BuildStarts n0) (h1 : 1 ≤ n0)
    (hmax : n0 ≤ maxSize s.size.toNat) (h0 : (ftBuildFrom n0 s).status ≠ 0) :
    (ftBuildFrom n0 s).status = 3 ∨ (ftBuildFrom n0 s).status = 5 := by
  obtain ⟨e, he⟩ := h.exists_error h0
  rw [ftBuildFrom_of_starts h, finishBuild_of_error he]
  rcases h.error_kinds h1 hmax he with rfl | rfl
  · exact .inl rfl
  · exact .inr rfl

/-- A refused draw that a build makes after its first ends it. -/
theorem buildScan_of_refused {d : Nat} (hd : 1 ≤ d) (href : s.alloc.Refuses d)
    (hmade : s.alloc.count + d < (s.buildScan n0).alloc.count) :
    (s.buildScan n0).error = some .insufficientSpace ∧
      (s.buildScan n0).alloc = s.alloc.after (d + 1) := by
  obtain ⟨d, rfl⟩ := Nat.exists_eq_add_of_le' hd
  obtain ⟨k, halloc, hlast⟩ : Draws s.alloc.next (s.buildScan n0) := scan_draws ..
  simp only [halloc, Allocator.after, Allocator.next] at hmade
  obtain ⟨rfl, herr⟩ := hlast d (by omega) fun n => by
    rw [← Allocator.after_succ]
    exact href n
  exact ⟨herr, by rw [halloc, ← Allocator.after_succ]⟩

end

/-- Settles O51: a build that has started ends by `finishBuild`, which on an error releases the table;
the refused draw is that of `buildScan_of_refused`. -/
theorem ftBuildLateFailureLeavesNoTable : Obligations.FtBuildLateFailureLeavesNoTable := by
  refine ⟨fun _ => rfl, fun n0 s hptr hlen h2 h64 htop hA => ?_⟩
  have hstarts : s.BuildStarts n0 := ⟨hptr, hlen, h2, h64, htop, hA⟩
  refine ⟨fun h0 => ?_, hstarts.status_of_failure, fun d _ _ hd href hmade => ?_⟩
  · obtain ⟨e, he⟩ := hstarts.exists_error h0
    rw [ftBuildFrom_of_starts hstarts, finishBuild_of_error he]
  · rw [ftBuildFrom_of_starts hstarts] at hmade ⊢
    rw [finishBuild_alloc] at hmade ⊢
    obtain ⟨he, halloc⟩ := buildScan_of_refused hd href hmade
    rw [finishBuild_of_error he]
    exact ⟨rfl, halloc⟩

/-- Settles O52: a build that does not raise for its arguments ends with `STATUS` 0, 1, 3 or 5. -/
theorem ftBuildInvalidOnlyForArguments : Obligations.FtBuildInvalidOnlyForArguments := by
  intro s t h h2
  cases h
  obtain ⟨h1, hmax⟩ := initSize_bounds s.size.toNat
  rcases ftBuildFrom_cases (initSize s.size.toNat) s with hnull | ⟨hbad, -⟩ | hrefused | hstarts
  · rw [hnull] at h2
    cases h2
  · exact hbad
  · rw [hrefused] at h2
    cases h2
  · have hlate := hstarts.status_of_failure h1 hmax (by rw [h2]; decide)
    rw [h2] at hlate
    exact absurd hlate (by decide)

/-! ### What a command comes to (R141, R144, R145) -/

/-- The error kinds R141 lists for each command. -/
def errorKinds : Instr → List ErrKind
  | .readBits | .writeBits | .hdrEncode | .ftResize =>
    [.nullPointer, .invalidValue, .insufficientSpace]
  | .hdrDecode => [.nullPointer, .invalidValue, .insufficientSpace, .invalidData]
  | .ftInit => [.invalidValue, .insufficientSpace]
  | .ftRelease => [.nullPointer]
  | .ftLookup => [.nullPointer, .insufficientSpace]
  | .ftAdd | .ftBuild => [.nullPointer, .invalidValue, .insufficientSpace, .overflow]

/-- What command `i` in state `s` can come to: a success, or a failure of a kind listed for it, which
changes `STATUS`, the draws made, and the table only if it is `FT_ADD` or `FT_BUILD`. -/
inductive CommandResult (i : Instr) (s : State) : Host.Outcome State Fault Refusal → Prop where
  | success {t : State} : t.status = 0 → CommandResult i s (.next t)
  | failure (e : ErrKind) (T : Option Table) (A : Allocator) : e ∈ errorKinds i →
      (T = s.table ∨ i = .ftAdd ∨ i = .ftBuild) →
      CommandResult i s (.next { s with status := e.code, alloc := A, table := T })

section

variable {i : Instr} {s : State}

theorem CommandResult.raise {e : ErrKind} (he : e ∈ errorKinds i) :
    CommandResult i s (.next (s.raise e)) := .failure e s.table s.alloc he (.inl rfl)

theorem CommandResult.refused (he : .insufficientSpace ∈ errorKinds i) :
    CommandResult i s (.next ((s.setAlloc s.alloc.next).raise .insufficientSpace)) :=
  .failure _ s.table s.alloc.next he (.inl rfl)

theorem CommandResult.finishTable {r : TableStep}
    (h : ∀ e, r.error = some e → e ∈ errorKinds i ∧ (some r.table = s.table ∨ i = .ftAdd)) :
    CommandResult i s (.next (s.finishTable r)) := by
  obtain ⟨_ | e, t, A⟩ := r
  · exact .success rfl
  · obtain ⟨hkind, htable⟩ := h e rfl
    exact .failure e (some t) A hkind (htable.imp_right .inl)

end

theorem ftBuild_result (s : State) : CommandResult .ftBuild s (exec .ftBuild s) := by
  have hexec : exec .ftBuild s = .next (ftBuildFrom (initSize s.size.toNat) s) := rfl
  obtain ⟨h1, hmax⟩ := initSize_bounds s.size.toNat
  rw [hexec]
  rcases ftBuildFrom_cases (initSize s.size.toNat) s with hend | ⟨-, hend⟩ | hend | hstarts
  · rw [hend]
    exact .raise (by decide)
  · rw [hend]
    exact .raise (by decide)
  · rw [hend]
    exact .refused (by decide)
  · rw [ftBuildFrom_of_starts hstarts]
    cases he : (s.buildScan (initSize s.size.toNat)).error with
    | none =>
      rw [finishBuild_of_ok he]
      exact .success rfl
    | some e =>
      rw [finishBuild_of_error he]
      have hkind : e ∈ errorKinds .ftBuild := by
        simpa [errorKinds] using .inr (.inr (hstarts.error_kinds h1 hmax he))
      exact .failure e none _ hkind (.inr (.inr rfl))

/-- Every command, in every state: its checks and function raise the kinds listed, and only a failing
`FT_ADD` or `FT_BUILD` writes back a table that may differ. -/
theorem exec_result (i : Instr) (s : State) : CommandResult i s (exec i s) := by
  cases i with
  | readBits =>
    simp only [exec, execReadBits]
    split
    · next e herr => exact .raise (Cursor.fieldError_mem ((readBits_eq_error_iff ..).1 herr))
    · exact .success rfl
  | writeBits =>
    simp only [exec, execWriteBits]
    split
    · next e herr => exact .raise (Cursor.fieldError_mem ((writeBits_eq_error_iff ..).1 herr))
    · exact .success rfl
  | hdrEncode =>
    simp only [exec, execHdrEncode]
    split
    · next e herr => exact .raise (encodeHeader_error_kinds herr)
    · exact .success rfl
  | hdrDecode =>
    simp only [exec, execHdrDecode]
    split
    · next e herr => exact .raise (decodeHeader_error_kinds herr)
    · exact .success rfl
  | ftInit =>
    simp only [exec, execFtInit]
    split_ifs
    · exact .raise (by decide)
    · exact .refused (by decide)
    · exact .success rfl
  | ftRelease =>
    simp only [exec, execFtRelease]
    split
    · exact .raise (by decide)
    · exact .success rfl
  | ftLookup =>
    cases hs : s.table with
    | none =>
      rw [exec_of_no_table (.inr (.inl rfl)) hs]
      exact .raise (by decide)
    | some t =>
      cases hl : lookupOrEmpty t.slots t.size.toNat s.val (s.anm == 1) with
      | ok j =>
        rw [exec_ftLookup_of_ok hs hl]
        exact .success rfl
      | error e =>
        rw [exec_ftLookup_of_error hs hl, lookupOrEmpty_error_kind hl]
        exact .raise (by decide)
  | ftResize =>
    cases hs : s.table with
    | none =>
      rw [exec_of_no_table (.inr (.inr (.inl rfl))) hs]
      exact .raise (by decide)
    | some t =>
      rw [exec_ftResize_of_table hs]
      refine .finishTable fun e he => ?_
      obtain ⟨htable, hkind⟩ := resize_of_error he
      exact ⟨.tail _ hkind, .inl (by rw [htable, hs])⟩
  | ftAdd =>
    cases hs : s.table with
    | none =>
      rw [exec_of_no_table (.inr (.inr (.inr rfl))) hs]
      exact .raise (by decide)
    | some t =>
      rw [exec_ftAdd_of_table hs]
      exact .finishTable fun e he => ⟨.tail _ (addOrIncrement_error_kinds he), .inr rfl⟩
  | ftBuild => exact ftBuild_result s

/-- Settles O16: a failure is one of `CommandResult`. -/
theorem failureChangesOnlyStatus : Obligations.FailureChangesOnlyStatus := by
  intro i s t h hfail
  have hresult := exec_result i s
  rw [h] at hresult
  cases hresult with
  | success h0 => exact absurd h0 hfail
  | failure e T A _ htable =>
    exact ⟨rfl, fun hadd hbuild => htable.resolve_right (by simp [hadd, hbuild])⟩

theorem exec_status_mem {i : Instr} {s t : State} (h : exec i s = .next t) :
    t.status ∈ 0 :: (errorKinds i).map ErrKind.code := by
  have hresult := exec_result i s
  rw [h] at hresult
  cases hresult with
  | success h0 => exact h0 ▸ List.mem_cons_self
  | failure e T A hkind _ =>
    exact List.mem_cons_of_mem _ (List.mem_map_of_mem (f := ErrKind.code) hkind)

/-- Settles O17: the codes listed are 0 and those of `errorKinds`. -/
theorem commandsRaiseOnlyListedKinds : Obligations.CommandsRaiseOnlyListedKinds := by
  intro i s t h
  have hstatus := exec_status_mem h
  cases i <;> exact hstatus

/-! ### Where a step stops (R142, R144) -/

theorem exists_exec_eq_next (i : Instr) (s : State) : ∃ t, exec i s = .next t := by
  have hresult := exec_result i s
  generalize exec i s = o at hresult
  cases hresult <;> exact ⟨_, rfl⟩

theorem exists_runByte_eq_next (b : U8) (s : State) : ∃ t, runByte b s = .next t := by
  cases hd : decode [b] with
  | error r => exact ⟨_, runByte_of_reject hd s⟩
  | ok p =>
    rw [runByte_of_decode hd]
    exact exists_exec_eq_next p.1 s

/-- A step answers a next state, or stops at a `MEM` line that runs past the last address. -/
theorem step_next_or_fault (s : State) :
    (∃ t, step s = .next t) ∨
    (step s = .fault .storePastTop ∧ ∃ addr bytes rest, s.script = .store addr bytes :: rest ∧
      2 ^ 64 < addr.toNat + bytes.length) := by
  rcases hs : s.script with _ | ⟨⟨r, v⟩ | ⟨addr, bytes⟩ | _, rest⟩
  case nil => exact .inl ⟨s, step_of_idle hs⟩
  case cons.write =>
    by_cases hr : r = .cmd
    · subst hr
      rw [step_of_command hs]
      exact .inl (exists_runByte_eq_next ..)
    · exact .inl ⟨_, step_of_write hr hs⟩
  case cons.store =>
    rw [step_of_store hs]
    by_cases hfit : storeFits addr bytes = true
    · exact .inl ⟨_, if_pos hfit⟩
    · refine .inr ⟨if_neg hfit, addr, bytes, rest, rfl, ?_⟩
      rwa [storeFits, decide_eq_true_iff, Nat.not_le] at hfit
  case cons.reset => exact .inl ⟨_, step_of_reset hs⟩

/-- Settles O15: by `step_next_or_fault`. -/
theorem stepStopsOnlyAtBadStore : Obligations.StepStopsOnlyAtBadStore := by
  refine ⟨fun s r h => ?_, fun s f h => ?_⟩
  · rcases step_next_or_fault s with ⟨t, hnext⟩ | ⟨hfault, -⟩
    · exact absurd (h.symm.trans hnext) nofun
    · exact absurd (h.symm.trans hfault) nofun
  · rcases step_next_or_fault s with ⟨t, hnext⟩ | ⟨hfault, hline⟩
    · exact absurd (h.symm.trans hnext) nofun
    · cases h.symm.trans hfault
      exact ⟨rfl, hline⟩

end Sys2Proof.Machine
end

section
/-!
# What a command leaves to the host (70_reset_and_hazards.md R167)
-/

namespace Sys2Proof.Machine

/-- What no command changes: the coming actions of the host, and `CMD` (R10). -/
def State.hostPart (s : State) : List Action × U8 := (s.script, s.cmd)

theorem State.hostPart_eq_iff {s t : State} :
    t.hostPart = s.hostPart ↔ t.script = s.script ∧ t.cmd = s.cmd := Prod.mk_inj

/-- No command's frame names the script or `CMD`. -/
theorem exec_hostPart {i : Instr} {s t : State} (h : exec i s = .next t) :
    t.hostPart = s.hostPart := by
  obtain ⟨hwriteBits, hhdrEncode⟩ := writingCommandsFrame
  obtain ⟨hreadBits, hhdrDecode, -, hftLookup, hftBuild⟩ := readingCommandsFrame
  cases i with
  | readBits => exact (congrArg State.hostPart (hreadBits s t h) :)
  | writeBits => exact (congrArg State.hostPart (hwriteBits s t h).1 :)
  | hdrEncode => exact (congrArg State.hostPart (hhdrEncode s t h).1 :)
  | hdrDecode => exact (congrArg State.hostPart (hhdrDecode s t h) :)
  | ftInit | ftRelease | ftResize | ftAdd =>
    exact (congrArg State.hostPart (tableCommand_frame (by simp) h) :)
  | ftLookup => exact (congrArg State.hostPart (hftLookup s t h) :)
  | ftBuild => exact (congrArg State.hostPart (hftBuild s t h) :)

/-- Settles O14: a command ends in a next state by `exists_exec_eq_next`, and its frame keeps
the host's part. -/
theorem everyCommandEndsInNextState : Obligations.EveryCommandEndsInNextState := by
  intro i s
  obtain ⟨t, h⟩ := exists_exec_eq_next i s
  exact ⟨t, h, State.hostPart_eq_iff.1 (exec_hostPart h)⟩

end Sys2Proof.Machine
end
